-- ==== Sys2Proof/Word.lean ====
section
/-! DEFINITION. The plainest types of the block: bytes, bit sequences, byte memories (00_scope.md R14 to R16, 20_memory.md R60). -/

namespace Sys2Proof

/-- A byte, and a Symbol: "one byte value, domain 0–255" (R10, R15, R19). -/
abbrev Byte := BitVec 8

/-- A bit sequence; index 0 is the first bit, the one nearest the root and packed first (R16). -/
abbrev Bits := List Bool

/-- A byte memory: the bytes it holds, by strictly rising index (the canonical form).
An index that is not listed holds an UNSPECIFIED byte (R32, R33, R51). -/
abbrev Mem := List Host.Cell

/-- An index of one of the 511 slots of the node arena (R36). -/
abbrev Slot := Fin 511

end Sys2Proof
end

