-- ==== Sys2Proof/Syntax.lean ====
section
/-! DEFINITION. The operations of the block: the thirteen rows of spec/opcode_table.json, the two formats that select them
(30_encoding.md R80, R83), and the operations by which the host reaches the block (R103, 10_state.md R21). -/

namespace Sys2Proof

/-- One constructor per row of the operation table: two commands and eleven phases.
None has an operand ("A command has no explicit operands", R81). -/
inductive Instr where
  | encode
  | decode
  | pIdle
  | pECount
  | pETbInit
  | pETbMerge
  | pEDerive
  | pEPack
  | pEEmit
  | pDParse
  | pDUnpack
  | pDMatch
  | pDEmit
deriving DecidableEq, Repr

/-- What selects an operation: a byte written to CMD (format CMD8, R80) or the code held by PHASE (format PHASE4, R83). -/
inductive OpWord where
  | cmd (v : BitVec 8)
  | phase (c : BitVec 4)
deriving DecidableEq, Repr

/-- Why a word selects no operation: the reserved commands (R82) and the reserved phase codes (R84). -/
inductive DecodeError where
  | reservedCommand (v : BitVec 8)
  | reservedPhase (c : BitVec 4)
deriving DecidableEq, Repr

/-- One row of the operation table: a word w is the row's when w masked is the pattern. -/
structure OpRow (w : Nat) where
  mask : BitVec w
  pattern : BitVec w
  instr : Instr
deriving DecidableEq, Repr

/-- The six host registers (R21); their numbers are `HostReg.number` (Machine/Spaces.lean). -/
inductive HostReg where
  | cmd
  | status
  | err
  | stage
  | ilen
  | olen
deriving DecidableEq, Repr

/-- What the outside world can do next. `sequencer` lets the block take one step; the others are the host's own accesses
at their registers' widths (R21, R24 to R29, R32, R33), the reset event (R255), and HOST.WAIT (R103).
A register is named, or addressed by its number (R60), or by its bus address (REG_MAP, R12); a buffer byte is addressed by its
index only (its bus address is OPEN, R60, and not modelled, log entry 22); an addressed write carries
its value in 64 bits, the width of the widest register. There is no write to OBUF: no rule gives the host one (R33). -/
inductive HostEvent where
  | writeCmd (v : BitVec 8)
  | writeStatus (v : BitVec 2)
  | writeErr (v : BitVec 3)
  | writeStage (v : BitVec 2)
  | writeIlen (v : BitVec 32)
  | writeOlen (v : BitVec 64)
  | readReg (r : HostReg)
  | readRegAt (n : Nat)
  | writeRegAt (n : Nat) (v : BitVec 64)
  | readBus (a : Nat)
  | writeBus (a : Nat) (v : BitVec 64)
  | writeIbuf (a : Nat) (b : Byte)
  | readIbuf (a : Nat)
  | readObuf (a : Nat)
  | wait
  | sequencer
  | reset
deriving DecidableEq, Repr

end Sys2Proof
end

