-- ==== Sys2Proof/Machine/Work.lean ====
section
/-! DEFINITION. The working state the five units hold while a command runs (10_state.md R34 to R48), without the sequencer register. -/

namespace Sys2Proof.Machine

/-- NODE[i].kind, one bit: 0 = LEAF, 1 = INTERNAL (R36). -/
inductive NodeKind where
  | leaf
  | internal
deriving DecidableEq, Repr, Inhabited

/-- One slot of the node arena (R36); left and right hold NIL = 511 in a leaf. -/
structure Node where
  kind : NodeKind
  sym : Byte
  weight : BitVec 32
  left : BitVec 9
  right : BitVec 9
deriving DecidableEq, Repr, Inhabited

/-- One entry of the code table (R41). `bits` is "a bit sequence of exactly len bits", so the record's `len` is read off
`bits` (`codeLen`, Machine/Operands.lean) and not stored a second time. -/
structure CodeEntry where
  present : Bool
  bits : Bits
deriving DecidableEq, Repr, Inhabited

/-- FREQ[0 .. 255], 32 bits each (R34). -/
abbrev FreqTable := Vector (BitVec 32) 256
/-- NODE[0 .. 510] (R36). -/
abbrev Arena := Vector Node 511
/-- CODE[0 .. 255] (R41). -/
abbrev CodeTable := Vector CodeEntry 256

/-- The working state other than PHASE (R20 (c)); no part of it is visible to the host (R23). -/
structure Work where
  /-- FREQ, R34 -/
  freq : FreqTable
  /-- NSYM, 9 bits, R35 -/
  nsym : BitVec 9
  /-- NODE, R36 -/
  node : Arena
  /-- NNODES, 10 bits, R37 -/
  nnodes : BitVec 10
  /-- PQ, a set of arena indices (R38), held as the list of its elements in rising order -/
  pq : List Slot
  /-- ROOT, 9 bits, R39 -/
  root : BitVec 9
  /-- TRIVIAL, 1 bit, R40 -/
  trivial : Bool
  /-- CODE, R41 -/
  code : CodeTable
  /-- ACC, 8 bits, R43 -/
  acc : Byte
  /-- NACC, 3 bits, R43 -/
  nacc : BitVec 3
  /-- TBITS, 64 bits, R44 -/
  tbits : BitVec 64
  /-- VALID, 4 bits, R45 -/
  valid : BitVec 4
  /-- PBUF, a byte sequence, R46 -/
  pbuf : List Byte
  /-- PPOS, 33 bits, R47 -/
  ppos : BitVec 33
  /-- UBITS, a bit sequence, R47 -/
  ubits : Bits
  /-- CAND, a bit sequence, R48 -/
  cand : Bits
  /-- DBUF, a byte sequence, R48 -/
  dbuf : List Byte
deriving DecidableEq, Repr, Inhabited

/-- The "no child" and "no tree" marker, NIL = 511 (R11, R36, R39). -/
def nil9 : BitVec 9 := 511#9

/-- What an arena slot holds at power-on in this model: a leaf of weight 0 without children.
DESIGN CHOICE (log entry 2), unsafe: the spec leaves every slot unspecified after reset (R51). -/
def Node.zero : Node :=
  { kind := .leaf, sym := 0#8, weight := 0#32, left := nil9, right := nil9 }

/-- The working state at power-on in this model: everything zero, empty or NIL.
DESIGN CHOICE (log entry 2), unsafe: the spec leaves all of it unspecified after reset (R51, R255). -/
def Work.zero : Work :=
  { freq := Vector.replicate 256 0#32, nsym := 0#9, node := Vector.replicate 511 Node.zero, nnodes := 0#10, pq := [],
    root := nil9, trivial := false, code := Vector.replicate 256 { present := false, bits := [] }, acc := 0#8, nacc := 0#3,
    tbits := 0#64, valid := 0#4, pbuf := [], ppos := 0#33, ubits := [], cand := [], dbuf := [] }

end Sys2Proof.Machine
end

