-- ==== Sys2Proof/Config.lean ====
section
/-! DEFINITION. The parameters the spec leaves OPEN (00_scope.md R12) and the free values: what 93_implementation_defined.md
calls `any value`. A free value has no body, so no proof can see which value it is. -/

namespace Sys2Proof

/-- REG_MAP: the bus address of each host register (R12, U27). The spec leaves the addresses OPEN. -/
structure RegMap where
  cmd : Nat
  status : Nat
  err : Nat
  stage : Nat
  ilen : Nat
  olen : Nat
deriving DecidableEq, Repr

/-- The register numbers of R21 as bus addresses (DESIGN CHOICE, log entry 20: R12 gives no address). -/
def RegMap.byNumber : RegMap := { cmd := 0, status := 1, err := 2, stage := 3, ilen := 4, olen := 5 }

/-- The parameters a model takes as arguments (R12): the two capacities, where `none` is "unbounded", and REG_MAP.
`step` takes no argument but the state, so State carries them, and nothing writes them (log entries 4 and 20). -/
structure Params where
  ibufCap : Option Nat
  obufCap : Option Nat
  regMap : RegMap
deriving DecidableEq, Repr

/-- "A model may take both as unbounded" (R12). -/
def Params.unbounded : Params := { ibufCap := none, obufCap := none, regMap := RegMap.byNumber }

/-- The working state left behind when a command ends or a reset arrives, applied to the fresh-value counter
(R23 (3), R255; U22: any value). -/
opaque Config.freeWork : Nat → Machine.Work

/-- The byte of IBUF at an index that has not been written since the reset with the given number
(R32, R51; U23: any value). -/
opaque Config.freeIbuf : Nat → Nat → Byte

/-- The value a host read returns where the spec calls it unspecified, applied to the fresh-value counter
(R24, R33, R264; U4, U6, U18: any value). -/
opaque Config.freeRead : Nat → BitVec 64

/-- The value a register takes from an addressed write of a value that is wider than the register, applied to the fresh-value
counter (DESIGN CHOICE, log entry 20: no rule states it). -/
opaque Config.freeWrite : Nat → BitVec 64

end Sys2Proof
end

