-- ==== Sys2Proof/Machine/Spaces.lean ====
section
/-! DEFINITION. The three address spaces the host sees (20_memory.md R60): REG by register number and by bus address, IBUF and OBUF
by byte index. -/

namespace Sys2Proof

/-! REG. -/

/-- The six host registers, in the order of their numbers (R21). -/
def allRegs : List HostReg := [.cmd, .status, .err, .stage, .ilen, .olen]

/-- The register's number (R21, R60). -/
def HostReg.number : HostReg → Nat
  | .cmd => 0
  | .status => 1
  | .err => 2
  | .stage => 3
  | .ilen => 4
  | .olen => 5

/-- The register's width in bits (R21). -/
def HostReg.width : HostReg → Nat
  | .cmd => 8
  | .status => 2
  | .err => 3
  | .stage => 2
  | .ilen => 32
  | .olen => 64

/-- The register at an index of REG: "register number 0 to 5", and none at any other (R60). -/
def HostReg.ofNumber (n : Nat) : Option HostReg := allRegs.find? (fun r => r.number == n)

/-- The bus address REG_MAP gives a register (R12). -/
def RegMap.addr (m : RegMap) : HostReg → Nat
  | .cmd => m.cmd
  | .status => m.status
  | .err => m.err
  | .stage => m.stage
  | .ilen => m.ilen
  | .olen => m.olen

/-- The register at a bus address; none where REG_MAP puts no register there, or more than one (log entry 20). -/
def RegMap.find (m : RegMap) (a : Nat) : Option HostReg :=
  match allRegs.filter (fun r => m.addr r == a) with
  | [r] => some r
  | _ => none

/-- A value of the register's width (R21); what a register takes from a wider one no rule states (log entry 20). -/
def HostReg.takes (r : HostReg) (v : BitVec 64) : Bool := v.toNat < 2 ^ r.width

/-! IBUF and OBUF. -/

/-- n is inside a capacity (R12: a natural number, or unbounded). -/
def fitsCap (n : Nat) : Option Nat → Bool
  | none => true
  | some c => n ≤ c

/-- An index of IBUF: below IBUF_CAP, and "at most 32 bits wide" (R60). -/
def ibufIndex (p : Params) (a : Nat) : Bool := decide (a < 2 ^ 32) && fitsCap (a + 1) p.ibufCap

/-- An index of OBUF: below OBUF_CAP, and "at most 64 bits wide" (R60). -/
def obufIndex (p : Params) (a : Nat) : Bool := decide (a < 2 ^ 64) && fitsCap (a + 1) p.obufCap

end Sys2Proof
end

