-- ==== Sys2Proof/WellFormed.lean ====
section
/-! DEFINITION. Well-formed terms: an operation has no operands to check (30_encoding.md R81); a word must not be reserved
(R82, R84); a host access must lie inside its address space (20_memory.md R60, 70_reset_and_hazards.md R262). -/

namespace Sys2Proof

/-- Every operation is well formed: none has an operand (R81). -/
def Instr.wellFormed : Instr → Bool
  | .encode | .decode | .pIdle | .pECount | .pETbInit | .pETbMerge | .pEDerive | .pEPack | .pEEmit
  | .pDParse | .pDUnpack | .pDMatch | .pDEmit => true

/-- A word is well formed when it is not one of the reserved commands (R82) or reserved phase codes (R84). -/
def OpWord.wellFormed : OpWord → Bool
  | .cmd v => v == 0x01#8 || v == 0x02#8
  | .phase c => !(c == 0x7#4 || c == 0xC#4 || c == 0xD#4 || c == 0xE#4 || c == 0xF#4)

/-- A host event is well formed when the address it names is one of its space: a buffer index below the capacity, a register
number from 0 to 5, a bus address of one register (R60, R262). -/
def HostEvent.wellFormed (p : Params) : HostEvent → Bool
  | .writeIbuf a _ => ibufIndex p a
  | .readIbuf a => ibufIndex p a
  | .readObuf a => obufIndex p a
  | .readRegAt n => (HostReg.ofNumber n).isSome
  | .writeRegAt n _ => (HostReg.ofNumber n).isSome
  | .readBus a => (p.regMap.find a).isSome
  | .writeBus a _ => (p.regMap.find a).isSome
  | .writeCmd _ | .writeStatus _ | .writeErr _ | .writeStage _ | .writeIlen _ | .writeOlen _ | .readReg _
  | .wait | .sequencer | .reset => true

end Sys2Proof
end

