-- ==== Sys2Proof/Decode.lean ====
section
/-! DEFINITION. The decoder and the encoder of the two operation formats (30_encoding.md R80 to R84, spec/opcode_table.json). -/

namespace Sys2Proof

/-! The phase codes of R30 and R83, by name. -/

def codeIdle : BitVec 4 := 0x0#4
def codeECount : BitVec 4 := 0x1#4
def codeETbInit : BitVec 4 := 0x2#4
def codeETbMerge : BitVec 4 := 0x3#4
def codeEDerive : BitVec 4 := 0x4#4
def codeEPack : BitVec 4 := 0x5#4
def codeEEmit : BitVec 4 := 0x6#4
def codeDParse : BitVec 4 := 0x8#4
def codeDUnpack : BitVec 4 := 0x9#4
def codeDMatch : BitVec 4 := 0xA#4
def codeDEmit : BitVec 4 := 0xB#4

/-- The rows of format CMD8: "match 0x01 or 0x02 under mask 0xFF" (R80). -/
def cmdRows : List (OpRow 8) :=
  [⟨0xFF#8, 0x01#8, .encode⟩, ⟨0xFF#8, 0x02#8, .decode⟩]

/-- The rows of format PHASE4 (R83). -/
def phaseRows : List (OpRow 4) :=
  [⟨0xF#4, codeIdle, .pIdle⟩, ⟨0xF#4, codeECount, .pECount⟩, ⟨0xF#4, codeETbInit, .pETbInit⟩,
   ⟨0xF#4, codeETbMerge, .pETbMerge⟩, ⟨0xF#4, codeEDerive, .pEDerive⟩, ⟨0xF#4, codeEPack, .pEPack⟩,
   ⟨0xF#4, codeEEmit, .pEEmit⟩, ⟨0xF#4, codeDParse, .pDParse⟩, ⟨0xF#4, codeDUnpack, .pDUnpack⟩,
   ⟨0xF#4, codeDMatch, .pDMatch⟩, ⟨0xF#4, codeDEmit, .pDEmit⟩]

/-- The operation of the first row a word matches. -/
def findRow {w : Nat} (rows : List (OpRow w)) (v : BitVec w) : Option Instr :=
  (rows.find? (fun r => v &&& r.mask == r.pattern)).map (·.instr)

/-- The command a byte written to CMD selects; the other 254 values are reserved (R80, R82). -/
def decodeCmd (v : BitVec 8) : Option Instr := findRow cmdRows v

/-- The phase a PHASE code selects; 7 and 0xC to 0xF are reserved (R83, R84). -/
def decodePhase (c : BitVec 4) : Option Instr := findRow phaseRows c

/-- The operation a word selects, or the reason it selects none. -/
def decode : OpWord → Except DecodeError Instr
  | .cmd v =>
    match decodeCmd v with
    | some i => .ok i
    | none => .error (.reservedCommand v)
  | .phase c =>
    match decodePhase c with
    | some i => .ok i
    | none => .error (.reservedPhase c)

/-- The word of an operation (R80, R83). -/
def encode : Instr → OpWord
  | .encode => .cmd 0x01#8
  | .decode => .cmd 0x02#8
  | .pIdle => .phase codeIdle
  | .pECount => .phase codeECount
  | .pETbInit => .phase codeETbInit
  | .pETbMerge => .phase codeETbMerge
  | .pEDerive => .phase codeEDerive
  | .pEPack => .phase codeEPack
  | .pEEmit => .phase codeEEmit
  | .pDParse => .phase codeDParse
  | .pDUnpack => .phase codeDUnpack
  | .pDMatch => .phase codeDMatch
  | .pDEmit => .phase codeDEmit

/-- The word a row of the operation table stands for, from the table's numbering of its bits.
A row of fewer than 8 bits is a phase code. A row of 8 bits is a command byte, except that a byte which is NO command and
is a phase code in its low four bits is read as that phase, because the table's 4-bit rows come rounded up to whole bytes.
So 0x01 and 0x02 in 8 bits are the commands (log entry 9). Only the host's table check goes through here: a byte
written to CMD goes through `decodeCmd`. -/
def tableWord (nbits w : Nat) : OpWord :=
  if nbits < 8 then .phase (BitVec.ofNat 4 w)
  else if (decodeCmd (BitVec.ofNat 8 w)).isSome then .cmd (BitVec.ofNat 8 w)
  else if w < 16 && (decodePhase (BitVec.ofNat 4 w)).isSome then .phase (BitVec.ofNat 4 w)
  else .cmd (BitVec.ofNat 8 w)

/-- The operation the decoder reads from a row of the operation table. -/
def decodeTableWord (nbits w : Nat) : Option Instr :=
  match decode (tableWord nbits w) with
  | .ok i => some i
  | .error _ => none

end Sys2Proof
end

