-- ==== Sys2Proof/Machine/State.lean ====
section
/-! DEFINITION. The state of the block (10_state.md), the host's pending operations, why a step stops, and the state after reset. -/

namespace Sys2Proof.Machine

/-- STATUS, 2 bits (R25); the numbers are `statusCode` (Machine/Flags.lean). -/
inductive Status where
  | idle
  | busy
  | done
  | error
deriving DecidableEq, Repr

/-- ERR, 3 bits (R26, R226); "6 and 7 are never written", so the six codes are the type (U25). -/
inductive ErrCode where
  | noError
  | inputUnavailable
  | outputUnwritable
  | malformedArtifact
  | internalTreeFault
  | illegalCommand
deriving DecidableEq, Repr

/-- STAGE, 2 bits (R27). -/
inductive Stage where
  | noStage
  | tableParse
  | bitUnpack
  | codeMatch
deriving DecidableEq, Repr

/-- The whole state: the host registers, PHASE, the two buffers and the working state of R20, then the parameters (R12),
and last the model's own fields: what the host is about to do, what its reads have returned, and the two counters that
free values are taken from. -/
structure State where
  /-- STATUS, R25 -/
  status : Status
  /-- ERR, R26 -/
  err : ErrCode
  /-- STAGE, R27 -/
  stage : Stage
  /-- ILEN, 32 bits, R28 -/
  ilen : BitVec 32
  /-- OLEN, 64 bits, R29 -/
  olen : BitVec 64
  /-- PHASE, 4 bits, R30 -/
  phase : BitVec 4
  /-- IBUF, R32: the bytes the host has written since reset -/
  ibuf : Mem
  /-- OBUF, R33: the bytes the last EMIT phase has written; every other byte is unspecified -/
  obuf : Mem
  /-- FREQ, NSYM, NODE, ... , R34 to R48 -/
  work : Work
  /-- IBUF_CAP, OBUF_CAP and REG_MAP, R12; no step writes them -/
  params : Params
  /-- model's own: the host's operations still to come, first one first -/
  hostOps : List HostEvent
  /-- model's own: what the host's reads have returned, last one first -/
  hostReads : List (BitVec 64)
  /-- model's own: how many free values have been taken -/
  frees : Nat
  /-- model's own: how many resets there have been -/
  resets : Nat
deriving DecidableEq, Repr

/-- Where the block has no step. All are safe: the model stops where the spec gives no effect. No state that meets the
invariant `Inv` (Safety.lean) reaches one of them (log entries 8 and 11). -/
inductive Fault where
  /-- Raised by every step but the reset event when PHASE holds a reserved code: such a state has "no step", "the block is
  stuck" (R84, U21; the reset event: log entry 19). -/
  | reservedPhase
  /-- Raised by P_E_TB_MERGE when PQ has fewer than two elements: R125's precondition and R123's. -/
  | mergeNeedsTwo
  /-- Raised by P_E_TB_MERGE when NNODES is no arena index (0 to 510, R36, R37). -/
  | arenaFull
  /-- Raised by a phase that reads IBUF when ILEN is over IBUF_CAP: the bytes do not exist (R60, R262). -/
  | inputBeyondCapacity
  /-- Raised by P_D_MATCH when UBITS holds fewer than TBITS bits: UBITS[i] does not exist (R47, R210). -/
  | unpackedBitsMissing
deriving DecidableEq, Repr

/-- What the model gives no step to. All are safe. -/
inductive Refusal where
  /-- Raised by no instruction of this model: kept for an arm without a meaning. -/
  | notModelled (mnemonic : String)
  /-- Raised by a command issued with ILEN over IBUF_CAP (R262, U7: refuse). -/
  | commandBeyondCapacity
  /-- Raised by a host access to IBUF or OBUF at an index at or over the capacity (R262, U7: refuse), or wider than the
  index may be (R60). -/
  | hostIndexBeyondCapacity
  /-- Raised by a host access to REG at a number over 5 (R60, R262: an out-of-range host access), and by one at a bus address
  where REG_MAP does not put exactly one register (log entry 20), a platform's bus address of a buffer included (log
  entry 22). -/
  | noSuchRegister
  /-- Raised by a host write to IBUF or ILEN while STATUS is BUSY (R264, U17: refuse). -/
  | hostWriteWhileBusy
deriving DecidableEq, Repr

/-- The machine right after reset (R51, R255): the host registers and PHASE are zero, both buffers hold no specified byte.
The working state is unspecified after reset; what it is here is log entry 2 (DESIGN CHOICE, unsafe). -/
def State.reset : State :=
  { status := .idle, err := .noError, stage := .noStage, ilen := 0#32, olen := 0#64, phase := 0x0#4,
    ibuf := [], obuf := [], work := Work.zero, params := Params.unbounded,
    hostOps := [], hostReads := [], frees := 0, resets := 0 }

end Sys2Proof.Machine
end

