-- ==== Sys2Proof/Machine/Flags.lean ====
section
/-! DEFINITION. The flag-like state of the block (10_state.md R49): the numbers STATUS, ERR and STAGE are read as, the
trailing-bit count VALID, and the derived condition EMPTY. -/

namespace Sys2Proof.Machine

/-- STATUS as the host reads it: 0 IDLE, 1 BUSY, 2 DONE, 3 ERROR (R25). -/
def statusCode : Status → BitVec 2
  | .idle => 0#2
  | .busy => 1#2
  | .done => 2#2
  | .error => 3#2

/-- ERR as the host reads it (R26, R226). -/
def errCode : ErrCode → BitVec 3
  | .noError => 0#3
  | .inputUnavailable => 1#3
  | .outputUnwritable => 2#3
  | .malformedArtifact => 3#3
  | .internalTreeFault => 4#3
  | .illegalCommand => 5#3

/-- STAGE as the host reads it (R27). -/
def stageCode : Stage → BitVec 2
  | .noStage => 0#2
  | .tableParse => 1#2
  | .bitUnpack => 2#2
  | .codeMatch => 3#2

/-- The trailing-bit count of a total: 0 for no bits, else ((n − 1) mod 8) + 1 (R155, R160). -/
def validOf (n : Nat) : Nat := if n = 0 then 0 else (n - 1) % 8 + 1

/-- The derived condition EMPTY := (NSYM = 0 and TBITS = 0) (R49). -/
def isEmptyFlag (w : Work) : Bool := w.nsym == 0#9 && w.tbits == 0#64

/-- "STATUS = BUSY" (R25). -/
def isBusy (s : State) : Bool := s.status == .busy

end Sys2Proof.Machine
end

