-- ==== Sys2Proof/Machine/Operands.lean ====
section
/-! DEFINITION. Operand forms: integers and bit sequences in bytes (00_scope.md R14 to R17, 20_memory.md R63 to R65,
43_bit_packer.md R155, 44_bit_unpacker.md R171), reads of the tables, and the input sequence every operation takes implicitly (R81). -/

namespace Sys2Proof.Machine

/-- The number of bytes that hold n bits (R14). -/
def ceil8 (n : Nat) : Nat := (n + 7) / 8

/-- IsPrefix(α, β) (R16). -/
def isPrefix (α β : Bits) : Bool := α.isPrefixOf β

/-- Clash(α, β): one of the two is a prefix of the other (R16). -/
def clash (α β : Bits) : Bool := isPrefix α β || isPrefix β α

/-! Multi-byte integers, most significant byte first (R17, R65). -/

def be16 (b0 b1 : Byte) : Nat := b0.toNat * 256 + b1.toNat

/-- be64 of the first eight bytes of a sequence (R17); the caller has checked that there are eight. -/
def be64 (bs : List Byte) : Nat := (bs.take 8).foldl (fun n b => n * 256 + b.toNat) 0

def u16be (v : BitVec 16) : List Byte := [v.extractLsb' 8 8, v.extractLsb' 0 8]

def u64be (v : BitVec 64) : List Byte :=
  [v.extractLsb' 56 8, v.extractLsb' 48 8, v.extractLsb' 40 8, v.extractLsb' 32 8,
   v.extractLsb' 24 8, v.extractLsb' 16 8, v.extractLsb' 8 8, v.extractLsb' 0 8]

/-! Bit sequences in bytes: bit i is at byte i div 8, bit position 7 − (i mod 8) (R63). -/

/-- The byte with the given index of a packed bit sequence; positions past its end are padding, 0 (R64, R155). -/
def packByte (β : Bits) (j : Nat) : Byte :=
  BitVec.ofBoolListBE
    [β.getD (8 * j) false, β.getD (8 * j + 1) false, β.getD (8 * j + 2) false, β.getD (8 * j + 3) false,
     β.getD (8 * j + 4) false, β.getD (8 * j + 5) false, β.getD (8 * j + 6) false, β.getD (8 * j + 7) false]

/-- The bytes of Pack(β) (R155); its valid count is `validOf β.length` and its total is `β.length`. -/
def pack (β : Bits) : List Byte := (List.range (ceil8 β.length)).map (packByte β)

/-- (bytes[i div 8] >> (7 − (i mod 8))) & 1 (R95, R171). -/
def bitOf (bytes : List Byte) (i : Nat) : Bool := (bytes.getD (i / 8) 0#8).getLsbD (7 - i % 8)

/-- Unpack(bytes, n), `none` for "fail" (R171). -/
def unpack (bytes : List Byte) (n : Nat) : Option Bits :=
  if bytes.length < ceil8 n then none else some ((List.range n).map (bitOf bytes))

/-- UnpackV(bytes, valid), the interface in doc00's terms (R172). Where valid breaks what R172 requires of it (0 for no bytes, else
1 to 8) the rule states no outcome; that the answer is then `none` is the model's choice (DESIGN CHOICE, log entry 21). -/
def unpackV (bytes : List Byte) (valid : Nat) : Option Bits :=
  if bytes.length = 0 then (if valid = 0 then some [] else none)
  else if 1 ≤ valid ∧ valid ≤ 8 then unpack bytes (8 * (bytes.length - 1) + valid)
  else none

/-! The tables. -/

/-- The 256 Symbols in ascending order (R122, R186). -/
def allSymbols : List Byte := (List.range 256).map (BitVec.ofNat 8)

def freqOf (f : FreqTable) (s : Byte) : BitVec 32 := f[s.toNat]'(s.isLt)

/-- FREQ[s] <- FREQ[s] + 1 (R111). -/
def countByte (f : FreqTable) (s : Byte) : FreqTable := f.set s.toNat (freqOf f s + 1#32) s.isLt

def codeOf (t : CodeTable) (s : Byte) : CodeEntry := t[s.toNat]'(s.isLt)

/-- CODE[s] <- { present: 1, len: len(β), bits: β } (R143, R202). -/
def setCode (c : CodeTable) (s : Byte) (β : Bits) : CodeTable :=
  c.set s.toNat { present := true, bits := β } s.isLt

/-- CODE[s].len, 8 bits (R41): the length of the code's bit sequence. -/
def codeLen (e : CodeEntry) : BitVec 8 := BitVec.ofNat 8 e.bits.length

/-- NODE[i]; an index past the arena reads as an empty leaf, and no phase reads one (R36, R141). -/
def nodeAt (nd : Arena) (i : Nat) : Node := nd.getD i Node.zero

/-- An arena index as a child field or ROOT holds it, 9 bits (R36, R39). -/
def slotBits (i : Slot) : BitVec 9 := BitVec.ofNat 9 i.val

/-- Lookup(β), the reverse mapping (R42). Where two present codes are equal, which R41's invariant excludes,
it gives the smaller Symbol (log entry 12). -/
def lookup (c : CodeTable) (β : Bits) : Option Byte :=
  allSymbols.find? (fun s => (codeOf c s).present && (codeOf c s).bits == β)

/-! The implicit source operand (R81). -/

/-- The byte a memory holds at an index, `none` where it is unspecified. -/
def memRead : Mem → Nat → Option Byte
  | [], _ => none
  | (k, b) :: m, a => if k = a then some b else memRead m a

/-- MemRead(IBUF, a, 1): "the byte the host last wrote at IBUF[a]" (R75); where it has written none since reset, the
unspecified byte of that index (R32, U23), the same at every read (R66). -/
def ibufByte (s : State) (a : Nat) : Byte := (memRead s.ibuf a).getD (Config.freeIbuf s.resets a)

/-- The byte sequence IBUF[0 .. ILEN−1] (R28, R81). -/
def input (s : State) : List Byte := (List.range s.ilen.toNat).map (ibufByte s)

/-- ILEN ≤ IBUF_CAP (R262). -/
def ilenFits (s : State) : Bool := fitsCap s.ilen.toNat s.params.ibufCap

end Sys2Proof.Machine
end

