-- ==== Sys2Proof/Machine/Ops.lean ====
section
/-! DEFINITION. The operations every unit shares: a byte store, `raise`, the acceptance of a command (which is also the only way
out of an error, R235), and the end of a command with its output. -/

namespace Sys2Proof.Machine

/-! Byte memories. -/

/-- MemWrite: the byte at one index, "nothing else changes" (R75). -/
def memWrite : Mem → Nat → Byte → Mem
  | [], a, v => [(a, v)]
  | (k, b) :: m, a, v =>
    if a < k then (a, v) :: (k, b) :: m
    else if a = k then (a, v) :: m
    else (k, b) :: memWrite m a v

/-- The bytes of a sequence at ascending indices from a on (R68). -/
def memStore : Mem → Nat → List Byte → Mem
  | m, _, [] => m
  | m, a, v :: vs => memStore (memWrite m a v) (a + 1) vs

/-- The canonical form: indices strictly rising. An index that is not listed holds no specified byte, so no entry can
equal one. -/
def memWf : Mem → Bool
  | [] => true
  | [_] => true
  | (a, _) :: (b, c) :: m => a < b && memWf ((b, c) :: m)

/-! The end of a command. -/

/-- After a command the working state holds unspecified values: "releases them on return" (R23 (3), U22). -/
def releaseWork (s : State) : State :=
  { s with work := Config.freeWork s.frees, frees := s.frees + 1 }

/-- `raise E(stage)`, the block's only trap (R232): ERR, STAGE, OLEN <- 0, STATUS <- ERROR, PHASE <- P_IDLE, and no more of
the phase. With OLEN = 0 no byte of OBUF is specified (R33, U4, 90_conflicts.md C9). -/
def raise (e : ErrCode) (st : Stage) (s : State) : State :=
  releaseWork { s with err := e, stage := st, olen := 0#64, obuf := [], status := .error, phase := codeIdle }

/-- The values R50 gives the working state at acceptance. NODE and the bits of CODE entries are not cleared. -/
def clearWork (w : Work) : Work :=
  { w with freq := Vector.replicate 256 0#32, nsym := 0#9, nnodes := 0#10, pq := [], root := nil9, trivial := false,
           code := w.code.map (fun e => { e with present := false }), acc := 0#8, nacc := 0#3, tbits := 0#64,
           valid := 0#4, pbuf := [], ppos := 0#33, ubits := [], cand := [], dbuf := [] }

/-- "clear working state and ERR, STAGE, OLEN" (R50, R180, R200, R231); OLEN = 0 leaves no specified byte in OBUF (R33). -/
def acceptClear (s : State) : State :=
  { s with work := clearWork s.work, err := .noError, stage := .noStage, olen := 0#64, obuf := [] }

/-- Acceptance of a command whose first phase is given: the clearing, STATUS <- BUSY, PHASE (R180, R200).
It is also how the state ERROR is left: "There is no return instruction" (R235). -/
def accept (first : BitVec 4) (s : State) : State :=
  { acceptClear s with status := .busy, phase := first }

/-- The common form of the two commands: no effect at all while BUSY (R263), refused with ILEN over IBUF_CAP (R262). -/
def issue (accepted : State) (s : State) : Host.Outcome State Fault Refusal :=
  if isBusy s then .next s
  else if ilenFits s then .next accepted
  else .refused .commandBeyondCapacity

/-- The end of a command that succeeds with output A: OBUF, OLEN, STATUS <- DONE, PHASE <- P_IDLE (R71, R186, R213). -/
def finish (A : List Byte) (s : State) : State :=
  releaseWork { s with obuf := memStore s.obuf 0 A, olen := BitVec.ofNat 64 A.length, status := .done, phase := codeIdle }

/-- What both EMIT phases do with the output: OutputUnwritable when it is longer than OBUF_CAP, "before writing anything"
(R186, R213, R228). -/
def emitOutput (A : List Byte) (s : State) : State :=
  if fitsCap A.length s.params.obufCap then finish A s else raise .outputUnwritable .noStage s

/-- PHASE <- c with the working state the phase leaves. -/
def goto (c : BitVec 4) (w : Work) (s : State) : State := { s with work := w, phase := c }

end Sys2Proof.Machine
end

