-- ==== Sys2Proof/Machine/Command.lean ====
section
/-! DEFINITION. The two commands and the reserved ones (45_codec_encode.md R180, 46_codec_decode.md R200, 60_exceptions.md R231), and
the phase P_IDLE (10_state.md R30). -/

namespace Sys2Proof.Machine

/-- ENCODE (R180). -/
def execEncode (s : State) : Host.Outcome State Fault Refusal := issue (accept codeECount s) s

/-- DECODE (R200). -/
def execDecode (s : State) : Host.Outcome State Fault Refusal := issue (accept codeDParse s) s

/-- A reserved value written to CMD: the acceptance clearing, then raise IllegalCommand (R82, R231). -/
def execReserved (s : State) : Host.Outcome State Fault Refusal :=
  issue (raise .illegalCommand .noStage (acceptClear s)) s

/-- P_IDLE: "nothing; waits for a command" (R30, R83); all host registers and both buffers keep their values (R242, R271). -/
def execPIdle (s : State) : Host.Outcome State Fault Refusal := .next s

end Sys2Proof.Machine
end

