-- ==== Sys2Proof/Machine/BitPacker.lean ====
section
/-! DEFINITION. The bit packer unit: BP_RESET, BP_PUSH, BP_FLUSH (43_bit_packer.md R156 to R158). -/

namespace Sys2Proof.Machine

/-- BP_RESET (R156). -/
def bpReset (w : Work) : Work :=
  { w with acc := 0#8, nacc := 0#3, tbits := 0#64, valid := 0#4, pbuf := [] }

/-- ACC[i] <- b (R15, R157). -/
def setAccBit (acc : Byte) (i : Nat) (b : Bool) : Byte :=
  (acc &&& ~~~(1#8 <<< i)) ||| (if b then 1#8 <<< i else 0#8)

/-- BP_PUSH(b) (R157). "The comparison with 8 is made on the incremented value before it is stored." -/
def bpPush (w : Work) (b : Bool) : Work :=
  let acc := setAccBit w.acc (7 - w.nacc.toNat) b
  let tbits := w.tbits + 1#64
  if w.nacc.toNat + 1 = 8 then { w with pbuf := w.pbuf ++ [acc], acc := 0#8, nacc := 0#3, tbits := tbits }
  else { w with acc := acc, nacc := w.nacc + 1#3, tbits := tbits }

/-- BP_PUSH of each bit of a sequence, first bit first (R159, R183). -/
def bpPushAll (w : Work) (β : Bits) : Work := β.foldl bpPush w

/-- BP_FLUSH (R158). -/
def bpFlush (w : Work) : Work :=
  let w' := if w.nacc = 0#3 then w else { w with pbuf := w.pbuf ++ [w.acc], acc := 0#8, nacc := 0#3 }
  { w' with valid := BitVec.ofNat 4 (validOf w.tbits.toNat) }

end Sys2Proof.Machine
end

