-- ==== Sys2Proof/Machine/CodeDerivation.lean ====
section
/-! DEFINITION. The code derivation unit: TreeWellFormed, Derive, P_E_DERIVE (42_code_derivation.md). -/

namespace Sys2Proof.Machine

/-- Clauses (b) and (c) of R141 for one slot. -/
def slotWellFormed (nd : Arena) (i : Nat) : Bool :=
  let n := nodeAt nd i
  match n.kind with
  | .leaf => n.left == nil9 && n.right == nil9
  | .internal => n.left != nil9 && n.right != nil9 && n.left.toNat < i && n.right.toNat < i

/-- Clause (d) of R141. -/
def rootKindOk (w : Work) : Bool :=
  if w.trivial then w.nnodes == 1#10 && (nodeAt w.node 0).kind == .leaf
  else (nodeAt w.node w.root.toNat).kind == .internal

/-- TreeWellFormed (R141). NNODES ranges over 0 to 511 (R37), so clauses (b) and (c) look at the slots that exist. -/
def treeWellFormed (w : Work) : Bool :=
  w.root != nil9 && w.root.toNat < w.nnodes.toNat
    && (List.range (min w.nnodes.toNat 511)).all (slotWellFormed w.node)
    && rootKindOk w

/-- Derive(i, β) (R143), `none` for `raise InternalTreeFault`. The fuel bounds the nodes on a path; in a well-formed arena a
child's index is below its parent's (R141 (c)), so 511 is never used up. -/
def derive (nd : Arena) : Nat → Nat → Bits → CodeTable → Option CodeTable
  | 0, _, _, _ => none
  | fuel + 1, i, β, c =>
    let n := nodeAt nd i
    match n.kind with
    | .leaf =>
      if β.length = 0 ∨ β.length > 255 ∨ (codeOf c n.sym).present = true then none else some (setCode c n.sym β)
    | .internal =>
      match derive nd fuel n.left.toNat (β ++ [false]) c with
      | none => none
      | some c' => derive nd fuel n.right.toNat (β ++ [true]) c'

/-- The codes of a tree (R142, R144), `none` for `raise InternalTreeFault`. -/
def deriveCodes (w : Work) : Option CodeTable :=
  if treeWellFormed w then
    if w.trivial then some (setCode w.code (nodeAt w.node w.root.toNat).sym [false])
    else derive w.node 511 w.root.toNat [] w.code
  else none

/-- P_E_DERIVE (R142). -/
def execPEDerive (s : State) : Host.Outcome State Fault Refusal :=
  match deriveCodes s.work with
  | none => .next (raise .internalTreeFault .noStage s)
  | some c => .next (goto codeEPack { s.work with code := c } s)

end Sys2Proof.Machine
end

