-- ==== Sys2Proof/Machine/CodecDecode.lean ====
section
/-! DEFINITION. The codec orchestrator, decode side: P_D_PARSE, P_D_UNPACK, P_D_MATCH, P_D_EMIT (46_codec_decode.md). The parser works on
the input as a byte sequence a = IBUF[0 .. ILEN−1]: every index it reads is below ILEN (R69). -/

namespace Sys2Proof.Machine

/-- a[p], for an index the caller has checked. -/
def byteAt (a : List Byte) (p : Nat) : Byte := a.getD p 0#8

/-- Test (7) of R202: the code clashes with one the table already holds. -/
def clashes (c : CodeTable) (β : Bits) : Bool :=
  allSymbols.any (fun t => (codeOf c t).present && clash (codeOf c t).bits β)

/-- The entry loop of R202 from offset p on, tests (3) to (7); `none` for `raise MalformedArtifact(TableParse)`. -/
def parseEntries (a : List Byte) : Nat → Nat → CodeTable → Option (CodeTable × Nat)
  | 0, p, c => some (c, p)
  | k + 1, p, c =>
    if p + 2 > a.length then none
    else
      let s := byteAt a p
      let l := (byteAt a (p + 1)).toNat
      if l = 0 then none
      else if p + 2 + ceil8 l > a.length then none
      else
        match unpack ((a.drop (p + 2)).take (ceil8 l)) l with
        | none => none
        | some β =>
          if (codeOf c s).present then none
          else if clashes c β then none
          else parseEntries a k (p + 2 + ceil8 l) (setCode c s β)

/-- The entry count C (R91). -/
def entryCount (a : List Byte) : Nat := be16 (byteAt a 0) (byteAt a 1)

/-- The whole table: C, the codes, and the index of the payload header (R202); `none` for
`raise MalformedArtifact(TableParse)`. -/
def parseTable (a : List Byte) (c : CodeTable) : Option (Nat × CodeTable × Nat) :=
  if a.length < 2 then none
  else if entryCount a > 256 then none
  else
    match parseEntries a (entryCount a) 2 c with
    | none => none
    | some (c', p) => some (entryCount a, c', p)

/-- P_D_PARSE (R202). -/
def execPDParse (s : State) : Host.Outcome State Fault Refusal :=
  if ilenFits s then
    match parseTable (input s) s.work.code with
    | none => .next (raise .malformedArtifact .tableParse s)
    | some (n, c, p) =>
      .next (goto codeDUnpack { s.work with code := c, nsym := BitVec.ofNat 9 n, ppos := BitVec.ofNat 33 p } s)
  else .fault .inputBeyondCapacity

/-- The total bit count and the payload's bits, from the payload header's index p on (R206);
`none` for `raise MalformedArtifact(BitUnpack)`. -/
def parsePayload (a : List Byte) (p : Nat) : Option (Nat × Bits) :=
  if p + 8 > a.length then none
  else
    let T := be64 (a.drop p)
    let R := a.length - (p + 8)
    if R < ceil8 T then none
    else if R > ceil8 T then none
    else
      match unpack (a.drop (p + 8)) T with
      | none => none
      | some u => some (T, u)

/-- P_D_UNPACK (R206, R208). -/
def execPDUnpack (s : State) : Host.Outcome State Fault Refusal :=
  if ilenFits s then
    match parsePayload (input s) s.work.ppos.toNat with
    | none => .next (raise .malformedArtifact .bitUnpack s)
    | some (T, u) =>
      let w := { s.work with tbits := BitVec.ofNat 64 T, valid := BitVec.ofNat 4 (validOf T), ubits := u,
                             ppos := s.ilen.setWidth 33 }
      .next (goto (if isEmptyFlag w then codeDEmit else codeDMatch) w s)
  else .fault .inputBeyondCapacity

/-- The matching loop of R210 over the bits that are left, with the candidate and the Symbols so far. -/
def matchBits (c : CodeTable) : Bits → Bits → List Byte → Bits × List Byte
  | [], cand, out => (cand, out)
  | b :: bs, cand, out =>
    match lookup c (cand ++ [b]) with
    | some r => matchBits c bs [] (out ++ [r])
    | none => matchBits c bs (cand ++ [b]) out

/-- P_D_MATCH (R210). -/
def execPDMatch (s : State) : Host.Outcome State Fault Refusal :=
  if s.work.ubits.length < s.work.tbits.toNat then .fault .unpackedBitsMissing
  else
    match matchBits s.work.code (s.work.ubits.take s.work.tbits.toNat) [] [] with
    | ([], out) => .next (goto codeDEmit { s.work with cand := [], dbuf := out } s)
    | (_ :: _, _) => .next (raise .malformedArtifact .codeMatch s)

/-- P_D_EMIT (R213). -/
def execPDEmit (s : State) : Host.Outcome State Fault Refusal := .next (emitOutput s.work.dbuf s)

end Sys2Proof.Machine
end

