-- ==== Sys2Proof/Machine/CodecEncode.lean ====
section
/-! DEFINITION. The codec orchestrator, encode side: P_E_PACK and P_E_EMIT (45_codec_encode.md R183, R186). -/

namespace Sys2Proof.Machine

/-- The substitution loop of R183, strictly left to right; `none` where a byte has no code (`raise InternalTreeFault`). -/
def packBytes : List Byte → Work → Option Work
  | [], w => some w
  | s :: x, w => if (codeOf w.code s).present then packBytes x (bpPushAll w (codeOf w.code s).bits) else none

/-- P_E_PACK (R183). -/
def execPEPack (s : State) : Host.Outcome State Fault Refusal :=
  if ilenFits s then
    match packBytes (input s) (bpReset s.work) with
    | none => .next (raise .internalTreeFault .noStage s)
    | some w => .next (goto codeEEmit (bpFlush w) s)
  else .fault .inputBeyondCapacity

/-- One table entry of the artifact: the Symbol, the code's length, the code's bits packed (R92, R93). -/
def entryBytes (s : Byte) (e : CodeEntry) : List Byte := s :: codeLen e :: pack e.bits

/-- Part 2 of the artifact: the entries of the present Symbols in ascending order (R98, R186). -/
def tableBytes (c : CodeTable) : List Byte :=
  allSymbols.flatMap (fun s => if (codeOf c s).present then entryBytes s (codeOf c s) else [])

/-- The artifact P_E_EMIT writes: its four parts in order (R90, R186). -/
def artifact (w : Work) : List Byte :=
  u16be (w.nsym.setWidth 16) ++ tableBytes w.code ++ u64be w.tbits ++ w.pbuf

/-- P_E_EMIT (R186). -/
def execPEEmit (s : State) : Host.Outcome State Fault Refusal := .next (emitOutput (artifact s.work) s)

end Sys2Proof.Machine
end

