-- ==== Sys2Proof/Machine/Frequency.lean ====
section
/-! DEFINITION. The FrequencyTable and the phase P_E_COUNT (40_frequency_table.md). -/

namespace Sys2Proof.Machine

/-- The counting loop of R111, one increment a byte, in ascending order. -/
def countBytes (f : FreqTable) (x : List Byte) : FreqTable := x.foldl countByte f

/-- P_E_COUNT (R111). -/
def execPECount (s : State) : Host.Outcome State Fault Refusal :=
  if ilenFits s then
    .next (goto (if s.ilen = 0#32 then codeEEmit else codeETbInit)
      { s.work with freq := countBytes s.work.freq (input s) } s)
  else .fault .inputBeyondCapacity

end Sys2Proof.Machine
end

