-- ==== Sys2Proof/Machine/TreeBuilder.lean ====
section
/-! DEFINITION. The tree builder unit: P_E_TB_INIT, ExtractMin, P_E_TB_MERGE (41_tree_builder.md). -/

namespace Sys2Proof.Machine

/-- A LEAF of the arena (R122). -/
def leafNode (s : Byte) (weight : BitVec 32) : Node :=
  { kind := .leaf, sym := s, weight := weight, left := nil9, right := nil9 }

/-- PQ ∪ (the index), in rising order without repeats (R38). -/
def pqInsert (i : Slot) : List Slot → List Slot
  | [] => [i]
  | j :: q => if i < j then i :: j :: q else if i = j then j :: q else j :: pqInsert i q

/-- The keys of the FrequencyTable in ascending order: the Symbols with a positive count (R34, R110). -/
def presentSymbols (f : FreqTable) : List Byte := allSymbols.filter (fun s => 0#32 < freqOf f s)

/-- The leaf loop of R122 from index k on: NODE[k] <- leaf, PQ <- PQ ∪ (k), for each key in turn. -/
def placeLeaves (f : FreqTable) : List Byte → Nat → Work → Work
  | [], _, w => w
  | s :: ss, k, w =>
    placeLeaves f ss (k + 1)
      { w with node := w.node.setIfInBounds k (leafNode s (freqOf f s)), pq := pqInsert (Fin.ofNat 511 k) w.pq }

/-- The leaves, NSYM and NNODES (R122). -/
def initTree (w : Work) : Work :=
  let ks := presentSymbols w.freq
  { placeLeaves w.freq ks 0 w with nsym := BitVec.ofNat 9 ks.length, nnodes := BitVec.ofNat 10 ks.length }

/-- P_E_TB_INIT (R122). -/
def execPETbInit (s : State) : Host.Outcome State Fault Refusal :=
  let w := initTree s.work
  if w.nsym = 0#9 then .next (raise .internalTreeFault .noStage s)
  else if w.nsym = 1#9 then .next (goto codeEDerive { w with trivial := true, root := 0#9 } s)
  else .next (goto codeETbMerge w s)

/-- The order of R123 on arena indices: lighter first, and the smaller index among equal weights. -/
def before (nd : Arena) (i j : Slot) : Bool :=
  nd[i].weight < nd[j].weight || (nd[i].weight == nd[j].weight && i < j)

/-- The least element of a non-empty collection, by a linear scan (R134 allows one). -/
def minSlot (nd : Arena) : Slot → List Slot → Slot
  | m, [] => m
  | m, j :: q => minSlot nd (if before nd j m then j else m) q

/-- ExtractMin (R123): the least element and the rest; `none` where its precondition PQ ≠ {} fails. -/
def extractMin (nd : Arena) : List Slot → Option (Slot × List Slot)
  | [] => none
  | i :: q =>
    let m := minSlot nd i q
    some (m, (i :: q).filter (· != m))

/-- The node a merge creates: the first extracted is the left child, the second the right one (R125). -/
def mergeNode (nd : Arena) (a b : Slot) : Node :=
  { kind := .internal, sym := 0#8, weight := nd[a].weight + nd[b].weight, left := slotBits a, right := slotBits b }

/-- One merge (R125), with whether it was the last one; the reasons are its two preconditions. -/
def mergeStep (w : Work) : Except Fault (Work × Bool) :=
  match extractMin w.node w.pq with
  | none => .error .mergeNeedsTwo
  | some (a, q1) =>
    match extractMin w.node q1 with
    | none => .error .mergeNeedsTwo
    | some (b, q2) =>
      if h : w.nnodes.toNat < 511 then
        let n : Slot := ⟨w.nnodes.toNat, h⟩
        let q := pqInsert n q2
        let w' := { w with node := w.node.set w.nnodes.toNat (mergeNode w.node a b) h, pq := q, nnodes := w.nnodes + 1#10 }
        if q.length = 1 then .ok ({ w' with root := slotBits n }, true) else .ok (w', false)
      else .error .arenaFull

/-- P_E_TB_MERGE (R125). -/
def execPETbMerge (s : State) : Host.Outcome State Fault Refusal :=
  match mergeStep s.work with
  | .error r => .fault r
  | .ok (w, last) => .next (goto (if last then codeEDerive else codeETbMerge) w s)

end Sys2Proof.Machine
end

