-- ==== Sys2Proof/Machine/Dispatch.lean ====
section
/-! DEFINITION. The one dispatcher: one arm per operation of the operation table. -/

namespace Sys2Proof.Machine

def exec (i : Instr) (s : State) : Host.Outcome State Fault Refusal :=
  match i with
  | .encode => Sys2Proof.Machine.execEncode s
  | .decode => Sys2Proof.Machine.execDecode s
  | .pIdle => Sys2Proof.Machine.execPIdle s
  | .pECount => Sys2Proof.Machine.execPECount s
  | .pETbInit => Sys2Proof.Machine.execPETbInit s
  | .pETbMerge => Sys2Proof.Machine.execPETbMerge s
  | .pEDerive => Sys2Proof.Machine.execPEDerive s
  | .pEPack => Sys2Proof.Machine.execPEPack s
  | .pEEmit => Sys2Proof.Machine.execPEEmit s
  | .pDParse => Sys2Proof.Machine.execPDParse s
  | .pDUnpack => Sys2Proof.Machine.execPDUnpack s
  | .pDMatch => Sys2Proof.Machine.execPDMatch s
  | .pDEmit => Sys2Proof.Machine.execPDEmit s

end Sys2Proof.Machine
end

