-- ==== Sys2Proof/Machine/HostPort.lean ====
section
/-! DEFINITION. The sequencer's step, the host's accesses and the reset event (10_state.md R21 to R33, 30_encoding.md R103, R104,
70_reset_and_hazards.md R255 to R267). -/

namespace Sys2Proof.Machine

/-- One step of the sequencer: the phase PHASE names, or no step at all for a reserved code (R30, R84). -/
def sequencerStep (s : State) : Host.Outcome State Fault Refusal :=
  match decodePhase s.phase with
  | some i => exec i s
  | none => .fault .reservedPhase

/-- PHASE holds a reserved code: "the block is stuck" (R84, U21). -/
def isStuck (s : State) : Bool := (decodePhase s.phase).isNone

/-- A write of v to CMD: the command v selects, or a reserved one (R24, R80, R82). -/
def writeCommand (v : BitVec 8) (s : State) : Host.Outcome State Fault Refusal :=
  match decodeCmd v with
  | some i => exec i s
  | none => execReserved s

/-- A host read that returns the value given. -/
def returnRead (v : BitVec 64) (s : State) : State := { s with hostReads := v :: s.hostReads }

/-- A host read that returns an unspecified value of the register's width (U4, U6, U18: any value). -/
def returnFree (width : Nat) (s : State) : State :=
  { s with hostReads := ((Config.freeRead s.frees).setWidth width).setWidth 64 :: s.hostReads, frees := s.frees + 1 }

/-- A host read of a register (R21, R24 to R29); CMD reads as anything (R24), and so do ILEN and OLEN while BUSY (R264, R70). -/
def readRegister (r : HostReg) (s : State) : State :=
  match r with
  | .cmd => returnFree 8 s
  | .status => returnRead ((statusCode s.status).setWidth 64) s
  | .err => returnRead ((errCode s.err).setWidth 64) s
  | .stage => returnRead ((stageCode s.stage).setWidth 64) s
  | .ilen => if isBusy s then returnFree 32 s else returnRead (s.ilen.setWidth 64) s
  | .olen => if isBusy s then returnFree 64 s else returnRead s.olen s

/-- A host write to IBUF (R32): refused beyond the capacity (R262) and while BUSY (R264). -/
def writeInput (a : Nat) (b : Byte) (s : State) : Host.Outcome State Fault Refusal :=
  if !ibufIndex s.params a then .refused .hostIndexBeyondCapacity
  else if isBusy s then .refused .hostWriteWhileBusy
  else .next { s with ibuf := memWrite s.ibuf a b }

/-- A host write to ILEN (R28): all 2^32 values are legal, refused while BUSY (R264). -/
def writeLength (v : BitVec 32) (s : State) : Host.Outcome State Fault Refusal :=
  if isBusy s then .refused .hostWriteWhileBusy else .next { s with ilen := v }

/-- A host read of IBUF: below ILEN the byte it holds (R70, R75). At an index at or beyond ILEN any value, since U23 calls those
bytes any value at any time; the byte last written there stays held, and is input once ILEN covers it (R70 (1), R258:
the bytes and ILEN may be written in either order). While BUSY the block alone accesses IBUF (R70), so then any value
too. All three are the model's reading (log entry 7). -/
def readInput (a : Nat) (s : State) : Host.Outcome State Fault Refusal :=
  if !ibufIndex s.params a then .refused .hostIndexBeyondCapacity
  else if isBusy s || s.ilen.toNat ≤ a then .next (returnFree 8 s)
  else .next (returnRead ((ibufByte s a).setWidth 64) s)

/-- A host read of OBUF: the output byte below OLEN when the block is not BUSY, and else any value (R33, R264, R265, U4, U18). -/
def readOutput (a : Nat) (s : State) : Host.Outcome State Fault Refusal :=
  if !obufIndex s.params a then .refused .hostIndexBeyondCapacity
  else if isBusy s || s.olen.toNat ≤ a then .next (returnFree 8 s)
  else
    match memRead s.obuf a with
    | some b => .next (returnRead (b.setWidth 64) s)
    | none => .next (returnFree 8 s)

/-- The value a register takes from an addressed write: the value written, where it has the register's width (R21), and else
any value, since no rule states one (DESIGN CHOICE, log entry 20). -/
def hostValue (r : HostReg) (v : BitVec 64) (s : State) : BitVec 64 := if r.takes v then v else Config.freeWrite s.frees

/-- The state that value is taken in: the fresh-value counter goes up where the value is a free one. -/
def drawHostValue (r : HostReg) (v : BitVec 64) (s : State) : State :=
  if r.takes v then s else { s with frees := s.frees + 1 }

/-- An addressed host write of a value to a register (R21): to CMD a command, to ILEN the length; the others are read-only, and a
write to them, of whatever value, is ignored (R25, R26, R27, R29). -/
def writeRegister (r : HostReg) (v : BitVec 64) (s : State) : Host.Outcome State Fault Refusal :=
  match r with
  | .cmd => writeCommand ((hostValue .cmd v s).setWidth 8) (drawHostValue .cmd v s)
  | .status => .next s
  | .err => .next s
  | .stage => .next s
  | .ilen => writeLength ((hostValue .ilen v s).setWidth 32) (drawHostValue .ilen v s)
  | .olen => .next s

/-- A host read at an address of REG, or on the bus, that selects a register or none (R60, R262). R60 leaves the buffers' base
addresses OPEN as well: that the model gives IBUF and OBUF no bus address, so that a bus access reaches registers only and is
refused at every other address, is its choice (DESIGN CHOICE, log entry 22). The buffers are reached by their own indices. -/
def readAddressed (r : Option HostReg) (s : State) : Host.Outcome State Fault Refusal :=
  match r with
  | some r => .next (readRegister r s)
  | none => .refused .noSuchRegister

/-- A host write at such an address (R60, R262; on the bus it reaches registers only, log entry 22). -/
def writeAddressed (r : Option HostReg) (v : BitVec 64) (s : State) : Host.Outcome State Fault Refusal :=
  match r with
  | some r => writeRegister r v s
  | none => .refused .noSuchRegister

/-- The reset event (R255, R256): the host registers and PHASE as R51 gives them, a running command abandoned, every byte of
both buffers and the whole working state unspecified. The host's own bookkeeping goes on. -/
def resetEvent (s : State) : State :=
  { State.reset with
    work := Config.freeWork s.frees, frees := s.frees + 1, resets := s.resets + 1, params := s.params,
    hostOps := s.hostOps, hostReads := s.hostReads }

/-- HOST.WAIT: "read STATUS until it is not BUSY" (R103): while BUSY the block takes its next step and the wait goes on. -/
def waitStep (s : State) : Host.Outcome State Fault Refusal :=
  if isBusy s then sequencerStep { s with hostOps := .wait :: s.hostOps }
  else .next (readRegister .status s)

/-- One host event of a block that is not stuck, on the state it has already been taken out of. Writes to read-only registers
are ignored (R25, R26, R27, R29). -/
def hostAction (e : HostEvent) (s : State) : Host.Outcome State Fault Refusal :=
  match e with
  | .writeCmd v => writeCommand v s
  | .writeStatus _ => .next s
  | .writeErr _ => .next s
  | .writeStage _ => .next s
  | .writeIlen v => writeLength v s
  | .writeOlen _ => .next s
  | .readReg r => .next (readRegister r s)
  | .readRegAt n => readAddressed (HostReg.ofNumber n) s
  | .writeRegAt n v => writeAddressed (HostReg.ofNumber n) v s
  | .readBus a => readAddressed (s.params.regMap.find a) s
  | .writeBus a v => writeAddressed (s.params.regMap.find a) v s
  | .writeIbuf a b => writeInput a b s
  | .readIbuf a => readInput a s
  | .readObuf a => readOutput a s
  | .wait => waitStep s
  | .sequencer => sequencerStep s
  | .reset => .next (resetEvent s)

/-- One host event. A state with a reserved PHASE has no step, of the host either; only the reset event, which R255 makes
unconditional, gets the block out of it (R84, U21; log entry 19). -/
def hostStep (e : HostEvent) (s : State) : Host.Outcome State Fault Refusal :=
  if isStuck s && e != .reset then .fault .reservedPhase else hostAction e s

/-! The host notation of R103 and R104, as sequences of host events. -/

/-- The bytes of a sequence written to IBUF at ascending indices from a on. -/
def loadFrom : Nat → List Byte → List HostEvent
  | _, [] => []
  | a, b :: bs => .writeIbuf a b :: loadFrom (a + 1) bs

/-- HOST.LOAD: the bytes to IBUF[0 ..], then their number to ILEN (R103). -/
def hostLoad (bs : List Byte) : List HostEvent := loadFrom 0 bs ++ [.writeIlen (BitVec.ofNat 32 bs.length)]

/-- RUN m = HOST.CMD m ; HOST.WAIT (R104). -/
def hostRun (v : BitVec 8) : List HostEvent := [.writeCmd v, .wait]

/-- HOST.READ of an output of n bytes: OLEN, then OBUF[0 .. n−1] (R103). -/
def hostRead (n : Nat) : List HostEvent := .readReg .olen :: (List.range n).map .readObuf

/-- COPYBACK where HOST.READ gives the bytes y: HOST.READ ; HOST.LOAD y (R104). -/
def hostCopyback (y : List Byte) : List HostEvent := hostRead y.length ++ hostLoad y

/-- ROUNDTRIP x where ENCODE's output is y and DECODE's has n bytes (R104). -/
def hostRoundtrip (x y : List Byte) (n : Nat) : List HostEvent :=
  hostLoad x ++ hostRun 0x01#8 ++ hostCopyback y ++ hostRun 0x02#8 ++ hostRead n

end Sys2Proof.Machine
end

