-- ==== Sys2Proof/Machine/Step.lean ====
section
/-! DEFINITION. One step of the machine: the host's next operation if it has one, else the sequencer's next phase. -/

namespace Sys2Proof.Machine

/-- While host operations are pending they go first, in order; with none pending the sequencer moves (R70, R103).
The pending list says how the two agents interleave (log entry 3). -/
def step (s : State) : Host.Outcome State Fault Refusal :=
  match s.hostOps with
  | [] => sequencerStep s
  | e :: rest => hostStep e { s with hostOps := rest }

/-- The state in which the next step runs the operation a row of the table stands for: a command as the host's next
operation, a phase as the code in PHASE with the sequencer's step next (log entry 10). -/
def State.withFetchWord (s : State) (nbits w : Nat) : State :=
  match tableWord nbits w with
  | .cmd v => { s with hostOps := .writeCmd v :: s.hostOps }
  | .phase c => { s with phase := c, hostOps := .sequencer :: s.hostOps }

end Sys2Proof.Machine
end

