-- ==== Sys2Proof/Safety.lean ====
section
/-! DEFINITION. The terms claims use: runs, the host's discipline, the invariants of the machine, well-formed code tables and
leaf paths, and the two functions the commands compute, `Encode` (45_codec_encode.md R188) and `Decode` (46_codec_decode.md R215). -/

namespace Sys2Proof.Machine

/-- k steps of the machine. -/
abbrev run (k : Nat) (s : State) : Host.Outcome State Fault Refusal := Host.Core.run Sys2Proof.core k s

/-- A write to a register that the rules allow in a state: none to ILEN while BUSY, no command with ILEN over IBUF_CAP
(R262, R264). -/
def writeAllowed (r : HostReg) (s : State) : Prop :=
  match r with
  | .cmd => s.status = .busy ∨ ilenFits s = true
  | .ilen => s.status ≠ .busy
  | .status => True
  | .err => True
  | .stage => True
  | .olen => True

/-- A host operation the rules allow in a state (R258, R262, R264): an address of its space, no write to IBUF while BUSY, and
to a register only what `writeAllowed` says, by whichever address. -/
def allowed (e : HostEvent) (s : State) : Prop :=
  e.wellFormed s.params = true ∧
  match e with
  | .writeIbuf _ _ => s.status ≠ .busy
  | .writeIlen _ => writeAllowed .ilen s
  | .writeCmd _ => writeAllowed .cmd s
  | .writeRegAt n _ => ∀ r, HostReg.ofNumber n = some r → writeAllowed r s
  | .writeBus a _ => ∀ r, s.params.regMap.find a = some r → writeAllowed r s
  | _ => True

/-- What the working state meets in the phases that rely on it: PQ is empty until P_E_TB_INIT fills it (R50); during the
merges it holds at least two arena indices in use, and a slot is free for each merge still to come (R125, R126); UBITS holds
exactly TBITS bits (R47). -/
def WorkInv (c : BitVec 4) (w : Work) : Prop :=
  (c = codeECount ∨ c = codeETbInit → w.pq = []) ∧
  (c = codeETbMerge →
    w.pq.Pairwise (· < ·) ∧ 2 ≤ w.pq.length ∧ (∀ i ∈ w.pq, i.val < w.nnodes.toNat) ∧
      w.nnodes.toNat + w.pq.length ≤ 512) ∧
  (c = codeDMatch → w.ubits.length = w.tbits.toNat)

/-- The invariant of the machine: what the host registers, PHASE and the buffers meet between any two steps. -/
structure Inv (s : State) : Prop where
  /-- the two buffers are in canonical form -/
  ibufWf : memWf s.ibuf = true
  obufWf : memWf s.obuf = true
  /-- PHASE never holds a reserved code (R84) -/
  phaseLegal : (decodePhase s.phase).isSome = true
  /-- "STATUS = BUSY if and only if PHASE ≠ P_IDLE" (R30) -/
  busyIff : s.status = .busy ↔ s.phase ≠ codeIdle
  /-- ERR is non-zero exactly when the last command failed (R26) -/
  errIff : s.err ≠ .noError ↔ s.status = .error
  /-- STAGE is non-zero exactly for MalformedArtifact (R27) -/
  stageIff : s.stage ≠ .noStage ↔ s.err = .malformedArtifact
  /-- "the block never writes 1 to ERR" (R227) -/
  noInputUnavailable : s.err ≠ .inputUnavailable
  /-- there is output only after success (R29, R214) -/
  olenZero : s.status ≠ .done → s.olen = 0#64 ∧ s.obuf = []
  /-- every byte of OBUF below OLEN is specified (R33) -/
  outputThere : ∀ a, a < s.olen.toNat → (memRead s.obuf a).isSome = true
  /-- the buffers hold nothing beyond their capacities, and IBUF nothing beyond a 32-bit index (R60, R69) -/
  ibufFits : ∀ x ∈ s.ibuf, ibufIndex s.params x.1 = true
  obufFits : ∀ x ∈ s.obuf, fitsCap (x.1 + 1) s.params.obufCap = true
  /-- a running command has its whole input in IBUF (R262) -/
  inputFits : s.status = .busy → ilenFits s = true
  /-- what the running phase relies on -/
  workInv : WorkInv s.phase s.work

/-- The invariants of a code table whenever a phase reads it (R41): every present code has 1 to 255 bits, and no code is a
prefix of another. -/
def TableWf (c : CodeTable) : Prop :=
  (∀ s, (codeOf c s).present = true → 1 ≤ (codeOf c s).bits.length ∧ (codeOf c s).bits.length ≤ 255) ∧
  (∀ s t, s ≠ t → (codeOf c s).present = true → (codeOf c t).present = true →
    clash (codeOf c s).bits (codeOf c t).bits = false)

/-- A code table with no entry (R50). -/
def NoCodes (c : CodeTable) : Prop := ∀ s, (codeOf c s).present = false

/-- The number of entries of a code table. -/
def entriesOf (c : CodeTable) : Nat := (allSymbols.filter (fun s => (codeOf c s).present)).length

/-- The leaf j is reached from node i by the path β: 0 for left, 1 for right (R143, R146). -/
inductive LeafPath (nd : Arena) : Nat → Bits → Nat → Prop
  | leaf (i : Nat) (h : (nodeAt nd i).kind = .leaf) : LeafPath nd i [] i
  | left (i : Nat) (β : Bits) (j : Nat) (h : (nodeAt nd i).kind = .internal)
      (p : LeafPath nd (nodeAt nd i).left.toNat β j) : LeafPath nd i (false :: β) j
  | right (i : Nat) (β : Bits) (j : Nat) (h : (nodeAt nd i).kind = .internal)
      (p : LeafPath nd (nodeAt nd i).right.toNat β j) : LeafPath nd i (true :: β) j

/-- The concatenated codes of a byte sequence, first byte first: PayloadBits (R183). -/
def payloadBits (c : CodeTable) (x : List Byte) : Bits := x.flatMap (fun s => (codeOf c s).bits)

/-- FREQ with every cell 0. -/
def zeroFreq : FreqTable := Vector.replicate 256 0#32

/-- The FrequencyTable of a byte sequence: Count(x) (R110). -/
def countOf (x : List Byte) : FreqTable := countBytes zeroFreq x

/-- The merges, as often as R126 has them run, from a working state on. -/
def mergeLoop : Nat → Work → Except Fault Work
  | 0, _ => .error .arenaFull
  | k + 1, w =>
    match mergeStep w with
    | .error r => .error r
    | .ok (w', true) => .ok w'
    | .ok (w', false) => mergeLoop k w'

/-- The tree built from a FrequencyTable, starting from the working state a command starts with (41_tree_builder.md). -/
def buildTree (f : FreqTable) : Except Fault Work :=
  let w := initTree { clearWork Work.zero with freq := f }
  if w.nsym = 0#9 then .error .mergeNeedsTwo
  else if w.nsym = 1#9 then .ok { w with trivial := true, root := 0#9 }
  else mergeLoop 255 w

/-- The codes derived from a FrequencyTable (42_code_derivation.md); `none` where a unit would raise InternalTreeFault. -/
def huffmanCodes (f : FreqTable) : Option CodeTable :=
  match buildTree f with
  | .error _ => none
  | .ok w => deriveCodes w

/-- Encode(x) (R188); `none` where a unit would raise InternalTreeFault, which R190 says cannot occur. -/
def encodeFn (x : List Byte) : Option (List Byte) :=
  if x = [] then some (List.replicate 10 0#8)
  else
    match huffmanCodes (countOf x) with
    | none => none
    | some c =>
      some (u16be (BitVec.ofNat 16 (presentSymbols (countOf x)).length) ++ tableBytes c
        ++ u64be (BitVec.ofNat 64 (payloadBits c x).length) ++ pack (payloadBits c x))

/-- CODE with no entry, as acceptance leaves it. -/
def noCodes : CodeTable := Vector.replicate 256 { present := false, bits := [] }

/-- Decode(a): "the result of running rules R202, R206, R210 in that order on a", with the stage of the first test that fails
(R215). -/
def decodeFn (a : List Byte) : Except Stage (List Byte) :=
  match parseTable a noCodes with
  | none => .error .tableParse
  | some (_, c, p) =>
    match parsePayload a p with
    | none => .error .bitUnpack
    | some (_, u) =>
      match matchBits c u [] [] with
      | ([], out) => .ok out
      | (_ :: _, _) => .error .codeMatch

/-- OBUF[0 .. OLEN−1] holds the byte sequence y (R25, R29). -/
def outputIs (s : State) (y : List Byte) : Prop :=
  s.olen = BitVec.ofNat 64 y.length ∧ ∀ j (h : j < y.length), memRead s.obuf j = some y[j]

/-- One table entry of an artifact as it lies in the bytes (R92): the Symbol, the code, and the bytes that hold the code's
bits. -/
structure TableEntry where
  sym : Byte
  bits : Bits
  codeBytes : List Byte
deriving DecidableEq, Repr

/-- The entry's bytes (R92). -/
def entryOnWire (e : TableEntry) : List Byte := e.sym :: BitVec.ofNat 8 e.bits.length :: e.codeBytes

/-- Part 2 of an artifact (R90). -/
def tableOnWire (es : List TableEntry) : List Byte := es.flatMap entryOnWire

/-- A legal entry: 1 to 255 bits, in exactly as many bytes as they need, bit i of the code at byte i div 8, position
7 − (i mod 8); the padding bits may have any value (R92, R93). -/
def EntryOk (e : TableEntry) : Prop :=
  1 ≤ e.bits.length ∧ e.bits.length ≤ 255 ∧ e.codeBytes.length = ceil8 e.bits.length ∧
  ∀ i (h : i < e.bits.length), e.bits[i] = bitOf e.codeBytes i

/-- The byte sequence a begins with a legal entry count and table: at most 256 legal entries, no Symbol twice, no two codes
that clash (R100 (a), R202); `rest` is what follows. -/
def HoldsTable (a : List Byte) (es : List TableEntry) (rest : List Byte) : Prop :=
  a = u16be (BitVec.ofNat 16 es.length) ++ tableOnWire es ++ rest ∧ es.length ≤ 256 ∧ (∀ e ∈ es, EntryOk e) ∧
  es.Pairwise (fun d e => d.sym ≠ e.sym ∧ clash d.bits e.bits = false)

/-- The order of R123: `(NODE[i].weight, i)` is less than `(NODE[j].weight, j)`. -/
def lighter (nd : Arena) (i j : Slot) : Prop :=
  nd[i].weight.toNat < nd[j].weight.toNat ∨ (nd[i].weight.toNat = nd[j].weight.toNat ∧ i.val < j.val)

/-- The invariant BP_PUSH keeps: "NACC = TBITS mod 8, len(PBUF) = TBITS div 8, and the low 8 − NACC bits of ACC are 0" (R157). -/
def PackerInv (w : Work) : Prop :=
  w.nacc.toNat = w.tbits.toNat % 8 ∧ w.pbuf.length = w.tbits.toNat / 8 ∧
  ∀ k, k < 8 - w.nacc.toNat → w.acc.getLsbD k = false

/-- How many input bytes a FrequencyTable counts: the sum of its cells (R110). -/
def totalCount (f : FreqTable) : Nat := (allSymbols.map (fun s => (freqOf f s).toNat)).sum

/-- The phases a phase can lead to, P_IDLE by `raise` or by the end of the command (R31). -/
def successors : Instr → List (BitVec 4)
  | .encode => [codeECount]
  | .decode => [codeDParse]
  | .pIdle => [codeIdle]
  | .pECount => [codeEEmit, codeETbInit]
  | .pETbInit => [codeEDerive, codeETbMerge, codeIdle]
  | .pETbMerge => [codeETbMerge, codeEDerive]
  | .pEDerive => [codeEPack, codeIdle]
  | .pEPack => [codeEEmit, codeIdle]
  | .pEEmit => [codeIdle]
  | .pDParse => [codeDUnpack, codeIdle]
  | .pDUnpack => [codeDEmit, codeDMatch, codeIdle]
  | .pDMatch => [codeDEmit, codeIdle]
  | .pDEmit => [codeIdle]

/-- The steps of an ENCODE after its acceptance: P_E_COUNT and P_E_EMIT for an empty input (R187), else 5 + (NSYM − 1)
(R31, R126). -/
def encodeSteps (x : List Byte) : Nat :=
  if x = [] then 2 else 5 + ((presentSymbols (countOf x)).length - 1)

end Sys2Proof.Machine
end

