-- ==== Sys2Proof/Certificates/Slice0/Obligations.lean ====
section
/-! DEFINITION. The statements for the provers. Each docstring names the rules of spec/ it formalises. -/

open Sys2Proof
open Sys2Proof.Machine

/-! ## Reset, the step, the encodings -/

/-- R51, R255: after reset STATUS, ERR, STAGE, ILEN, OLEN and PHASE are 0, and neither buffer holds a specified byte. -/
def Obligations.ResetValues : Prop :=
  statusCode State.reset.status = 0#2 ∧ errCode State.reset.err = 0#3 ∧ stageCode State.reset.stage = 0#2 ∧
  State.reset.ilen = 0#32 ∧ State.reset.olen = 0#64 ∧ State.reset.phase = codeIdle ∧
  (∀ a, memRead State.reset.ibuf a = none) ∧ (∀ a, memRead State.reset.obuf a = none)

/-- R255, R256: the reset event, in any state and also while a command runs, leaves those values. The parameters and the host's own
bookkeeping stay (the model's choice, log entries 3, 4 and 20), and that it ends a reserved PHASE too is log entry 19. -/
def Obligations.ResetEventAbandonsCommand : Prop :=
  ∀ (s : State) (rest : List HostEvent), s.hostOps = .reset :: rest →
    ∃ t, step s = .next t ∧ t.status = .idle ∧ t.err = .noError ∧ t.stage = .noStage ∧ t.ilen = 0#32 ∧ t.olen = 0#64 ∧
      t.phase = codeIdle ∧ (∀ a, memRead t.ibuf a = none) ∧ (∀ a, memRead t.obuf a = none) ∧
      t.params = s.params ∧ t.hostOps = rest ∧ t.hostReads = s.hostReads

/-- R24, R30, R80, R83: a step runs the operation the decoder reads: the phase PHASE names when the sequencer moves (no host
operation pending, its turn given, or the host waiting while BUSY), the command a written byte selects when the host
writes CMD and PHASE holds no reserved code (with one: `ReservedPhaseIsStuck`). How the two agents take turns is log entry 3. -/
def Obligations.StepRunsDecodedOperation : Prop :=
  ∀ (s : State) (i : Instr) (v : BitVec 8) (rest : List HostEvent),
    (s.hostOps = [] → decode (.phase s.phase) = .ok i → step s = exec i s) ∧
    (s.hostOps = .sequencer :: rest → decode (.phase s.phase) = .ok i → step s = exec i { s with hostOps := rest }) ∧
    (s.hostOps = .wait :: rest → s.status = .busy → decode (.phase s.phase) = .ok i → step s = exec i s) ∧
    (s.hostOps = .writeCmd v :: rest → isStuck s = false → decode (.cmd v) = .ok i →
      step s = exec i { s with hostOps := rest })

/-- R80, R83: words written out from the two encoding tables. -/
def Obligations.TableWordsDecode : Prop :=
  decode (.cmd 0b00000001#8) = .ok .encode ∧ decode (.cmd 0b00000010#8) = .ok .decode ∧
  decode (.phase 0b0000#4) = .ok .pIdle ∧ decode (.phase 0b0001#4) = .ok .pECount ∧
  decode (.phase 0b0011#4) = .ok .pETbMerge ∧ decode (.phase 0b0100#4) = .ok .pEDerive ∧
  decode (.phase 0b0110#4) = .ok .pEEmit ∧ decode (.phase 0b1000#4) = .ok .pDParse ∧
  decode (.phase 0b1011#4) = .ok .pDEmit

/-- R80, R82, R83, R84: each operation has exactly one word, and a word is refused exactly when it is reserved. -/
def Obligations.EachOperationHasOneWord : Prop :=
  (∀ (w : OpWord) (i : Instr), decode w = .ok i ↔ w = encode i) ∧
  (∀ v : BitVec 8, (∃ i, decode (.cmd v) = .ok i) ↔ (v = 0x01#8 ∨ v = 0x02#8)) ∧
  (∀ c : BitVec 4, (∃ i, decode (.phase c) = .ok i) ↔ ¬ (c = 0x7#4 ∨ c = 0xC#4 ∨ c = 0xD#4 ∨ c = 0xE#4 ∨ c = 0xF#4))

/-- R84: the five reserved phase codes; a state that holds one has no step, of the sequencer or of the host (the reset event is
left out, log entry 19); no step writes one. -/
def Obligations.ReservedPhaseIsStuck : Prop :=
  (∀ s : State, s.phase = 0x7#4 ∨ s.phase = 0xC#4 ∨ s.phase = 0xD#4 ∨ s.phase = 0xE#4 ∨ s.phase = 0xF#4 →
    (∀ rest, s.hostOps ≠ .reset :: rest) → step s = .fault .reservedPhase) ∧
  (∀ s t : State, (decodePhase s.phase).isSome = true → step s = .next t → (decodePhase t.phase).isSome = true)

/-! ## Commands -/

/-- R50, R180, R200: an accepted command clears the working state and ERR, STAGE, OLEN, becomes BUSY and enters its first
phase; the input, the parameters and the host's bookkeeping stay.
R50 says of NODE and the codes' bits only that they are not cleared and are unspecified until written: that they stay as they
were is the model's choice (DEDUCED, log entry 18).
With OLEN = 0 no byte of OBUF is specified any more (read from R33 by inference, log entry 6). -/
def Obligations.CommandAcceptanceClears : Prop :=
  ∀ (s : State) (i : Instr), (i = .encode ∨ i = .decode) → s.status ≠ .busy → ilenFits s = true →
    ∃ t, exec i s = .next t ∧ t.status = .busy ∧ t.phase = (if i = .encode then codeECount else codeDParse) ∧
      t.err = .noError ∧ t.stage = .noStage ∧ t.olen = 0#64 ∧ (∀ a, memRead t.obuf a = none) ∧
      (∀ b, freqOf t.work.freq b = 0#32) ∧ t.work.nsym = 0#9 ∧ t.work.nnodes = 0#10 ∧ t.work.pq = [] ∧
      t.work.root = nil9 ∧ t.work.trivial = false ∧ (∀ b, (codeOf t.work.code b).present = false) ∧
      t.work.acc = 0#8 ∧ t.work.nacc = 0#3 ∧ t.work.tbits = 0#64 ∧ t.work.valid = 0#4 ∧ t.work.pbuf = [] ∧
      t.work.ppos = 0#33 ∧ t.work.ubits = [] ∧ t.work.cand = [] ∧ t.work.dbuf = [] ∧
      t.work.node = s.work.node ∧ (∀ b, (codeOf t.work.code b).bits = (codeOf s.work.code b).bits) ∧
      t.ilen = s.ilen ∧ t.ibuf = s.ibuf ∧ t.params = s.params ∧ t.hostOps = s.hostOps ∧ t.hostReads = s.hostReads ∧
      t.frees = s.frees ∧ t.resets = s.resets

/-- R82, R231: a reserved value written to CMD ends at once in ERROR with IllegalCommand; the previous result is lost
(that OBUF then holds no specified byte is log entry 6). With a reserved PHASE there is no step (`ReservedPhaseIsStuck`). -/
def Obligations.ReservedCommandIsIllegal : Prop :=
  ∀ (s : State) (v : BitVec 8) (rest : List HostEvent), v ≠ 0x01#8 → v ≠ 0x02#8 → s.hostOps = .writeCmd v :: rest →
    isStuck s = false → s.status ≠ .busy → ilenFits s = true →
    ∃ t, step s = .next t ∧ t.status = .error ∧ t.err = .illegalCommand ∧ t.stage = .noStage ∧ t.olen = 0#64 ∧
      t.phase = codeIdle ∧ (∀ a, memRead t.obuf a = none) ∧ t.ilen = s.ilen ∧ t.ibuf = s.ibuf ∧ t.params = s.params ∧
      t.hostOps = rest ∧ t.hostReads = s.hostReads ∧ t.resets = s.resets

/-- R263: a write to CMD while BUSY, of any value, has no effect of any kind and is not kept. (With a reserved PHASE the block is
stuck and there is no step at all, `ReservedPhaseIsStuck`.) -/
def Obligations.CommandWhileBusyIgnored : Prop :=
  ∀ (s : State) (v : BitVec 8) (rest : List HostEvent), s.hostOps = .writeCmd v :: rest → isStuck s = false →
    s.status = .busy → step s = .next { s with hostOps := rest }

/-- R60, R262: a command issued with ILEN over IBUF_CAP and a host access outside an address space are refused: an IBUF or OBUF
index at or past the capacity, or wider than 32 or 64 bits; a register number over 5.
That REG's numbers end at 5 is R60's; that R262's refusal covers an access at another number is the model's choice (DEDUCED,
log entry 20). The command's byte is any, also a reserved one: R82 and R231 would raise IllegalCommand for that, and that the model refuses
it is its choice (DEDUCED, log entry 13). -/
def Obligations.OutOfRangeIsRefused : Prop :=
  ∀ (s : State) (rest : List HostEvent) (v : BitVec 8) (a n : Nat) (b : Byte) (x : BitVec 64), isStuck s = false →
    (s.hostOps = .writeCmd v :: rest → s.status ≠ .busy → s.params.ibufCap = some n → n < s.ilen.toNat →
      step s = .refused .commandBeyondCapacity) ∧
    (s.hostOps = .writeIbuf a b :: rest ∨ s.hostOps = .readIbuf a :: rest →
      (s.params.ibufCap = some n ∧ n ≤ a) ∨ 2 ^ 32 ≤ a → step s = .refused .hostIndexBeyondCapacity) ∧
    (s.hostOps = .readObuf a :: rest →
      (s.params.obufCap = some n ∧ n ≤ a) ∨ 2 ^ 64 ≤ a → step s = .refused .hostIndexBeyondCapacity) ∧
    (s.hostOps = .readRegAt a :: rest ∨ s.hostOps = .writeRegAt a x :: rest → 6 ≤ a → step s = .refused .noSuchRegister)

/-! ## The host's accesses -/

/-- R264: while BUSY a write to IBUF or ILEN is refused; a read of OBUF or OLEN returns some value, nothing is said of which;
a read of STATUS returns BUSY (1), and in a state that meets the invariant ERR and STAGE read as 0. -/
def Obligations.HostAccessWhileBusy : Prop :=
  ∀ (s : State) (rest : List HostEvent) (a : Nat) (b : Byte) (n : BitVec 32), isStuck s = false → s.status = .busy →
    (s.hostOps = .writeIbuf a b :: rest → ibufIndex s.params a = true → step s = .refused .hostWriteWhileBusy) ∧
    (s.hostOps = .writeIlen n :: rest → step s = .refused .hostWriteWhileBusy) ∧
    (s.hostOps = .readObuf a :: rest → obufIndex s.params a = true →
      ∃ x k, step s = .next { s with hostOps := rest, hostReads := x :: s.hostReads, frees := k }) ∧
    (s.hostOps = .readReg .olen :: rest →
      ∃ x k, step s = .next { s with hostOps := rest, hostReads := x :: s.hostReads, frees := k }) ∧
    (s.hostOps = .readReg .status :: rest →
      step s = .next { s with hostOps := rest, hostReads := 1#64 :: s.hostReads }) ∧
    (Inv s → s.hostOps = .readReg .err :: rest →
      step s = .next { s with hostOps := rest, hostReads := 0#64 :: s.hostReads }) ∧
    (Inv s → s.hostOps = .readReg .stage :: rest →
      step s = .next { s with hostOps := rest, hostReads := 0#64 :: s.hostReads })

/-- R21, R24 to R29, R33, R226: reads of the registers and the buffers while not BUSY, with the numbers the rules give the values
of STATUS, ERR and STAGE (STATUS 1, BUSY: `HostAccessWhileBusy`). CMD reads as some byte; an OBUF index at or beyond OLEN as
some byte. A read by register number is the read of that register (R60).
What a read of IBUF returns is the model's choice (log entry 7): the byte held below ILEN, some byte at or beyond it. -/
def Obligations.HostReadsReturnRegisters : Prop :=
  ∀ (s : State) (rest : List HostEvent) (a : Nat) (b : Byte), isStuck s = false → s.status ≠ .busy →
    (s.hostOps = .readReg .status :: rest →
      ∃ x : BitVec 64, step s = .next { s with hostOps := rest, hostReads := x :: s.hostReads } ∧
        (s.status = .idle → x = 0#64) ∧ (s.status = .done → x = 2#64) ∧ (s.status = .error → x = 3#64)) ∧
    (s.hostOps = .readReg .err :: rest →
      ∃ x : BitVec 64, step s = .next { s with hostOps := rest, hostReads := x :: s.hostReads } ∧
        (s.err = .noError → x = 0#64) ∧ (s.err = .inputUnavailable → x = 1#64) ∧ (s.err = .outputUnwritable → x = 2#64) ∧
        (s.err = .malformedArtifact → x = 3#64) ∧ (s.err = .internalTreeFault → x = 4#64) ∧
        (s.err = .illegalCommand → x = 5#64)) ∧
    (s.hostOps = .readReg .stage :: rest →
      ∃ x : BitVec 64, step s = .next { s with hostOps := rest, hostReads := x :: s.hostReads } ∧
        (s.stage = .noStage → x = 0#64) ∧ (s.stage = .tableParse → x = 1#64) ∧ (s.stage = .bitUnpack → x = 2#64) ∧
        (s.stage = .codeMatch → x = 3#64)) ∧
    (s.hostOps = .readReg .ilen :: rest →
      step s = .next { s with hostOps := rest, hostReads := s.ilen.setWidth 64 :: s.hostReads }) ∧
    (s.hostOps = .readReg .olen :: rest →
      step s = .next { s with hostOps := rest, hostReads := s.olen :: s.hostReads }) ∧
    (s.hostOps = .readReg .cmd :: rest →
      ∃ (x : BitVec 64) (k : Nat), x.toNat < 256 ∧
        step s = .next { s with hostOps := rest, hostReads := x :: s.hostReads, frees := k }) ∧
    (∀ r : HostReg, s.hostOps = .readRegAt a :: rest →
      (a, r) ∈ [(0, .cmd), (1, .status), (2, .err), (3, .stage), (4, .ilen), (5, .olen)] →
      step s = step { s with hostOps := .readReg r :: rest }) ∧
    (s.hostOps = .readIbuf a :: rest → ibufIndex s.params a = true → a < s.ilen.toNat → memRead s.ibuf a = some b →
      step s = .next { s with hostOps := rest, hostReads := b.setWidth 64 :: s.hostReads }) ∧
    (s.hostOps = .readIbuf a :: rest → ibufIndex s.params a = true → s.ilen.toNat ≤ a →
      ∃ (x : BitVec 64) (k : Nat), x.toNat < 256 ∧
        step s = .next { s with hostOps := rest, hostReads := x :: s.hostReads, frees := k }) ∧
    (s.hostOps = .readObuf a :: rest → obufIndex s.params a = true → a < s.olen.toNat → memRead s.obuf a = some b →
      step s = .next { s with hostOps := rest, hostReads := b.setWidth 64 :: s.hostReads }) ∧
    (s.hostOps = .readObuf a :: rest → obufIndex s.params a = true → s.olen.toNat ≤ a →
      ∃ (x : BitVec 64) (k : Nat), x.toNat < 256 ∧
        step s = .next { s with hostOps := rest, hostReads := x :: s.hostReads, frees := k })

/-- R25 to R29, R60: a host write to a read-only register, named or by its number, is ignored; a write to ILEN while not BUSY sets it,
and a write to number 0 is the write to CMD. An access at a bus address is the access to the one register REG_MAP puts there
(R12, log entry 20). By its number a register can be written a value wider than it is: then it takes some value, nothing is
said of which (the model's choice, log entry 20). -/
def Obligations.HostWritesToRegisters : Prop :=
  ∀ (s : State) (rest : List HostEvent) (v w : BitVec 2) (e : BitVec 3) (l : BitVec 64) (n : BitVec 32) (c : BitVec 8),
    isStuck s = false →
    ((s.hostOps = .writeStatus v :: rest ∨ s.hostOps = .writeErr e :: rest ∨ s.hostOps = .writeStage w :: rest ∨
        s.hostOps = .writeOlen l :: rest) → step s = .next { s with hostOps := rest }) ∧
    ((s.hostOps = .writeRegAt 1 l :: rest ∨ s.hostOps = .writeRegAt 2 l :: rest ∨ s.hostOps = .writeRegAt 3 l :: rest ∨
        s.hostOps = .writeRegAt 5 l :: rest) → step s = .next { s with hostOps := rest }) ∧
    (s.hostOps = .writeIlen n :: rest ∨ s.hostOps = .writeRegAt 4 (n.setWidth 64) :: rest → s.status ≠ .busy →
      step s = .next { s with hostOps := rest, ilen := n }) ∧
    (s.hostOps = .writeRegAt 0 (c.setWidth 64) :: rest → step s = step { s with hostOps := .writeCmd c :: rest }) ∧
    (s.hostOps = .writeRegAt 4 l :: rest → 2 ^ 32 ≤ l.toNat → s.status ≠ .busy →
      ∃ (m : BitVec 32) (k : Nat), step s = .next { s with hostOps := rest, ilen := m, frees := k }) ∧
    (s.hostOps = .writeRegAt 0 l :: rest → 2 ^ 8 ≤ l.toNat →
      ∃ (d : BitVec 8) (k : Nat), step s = step { s with hostOps := .writeCmd d :: rest, frees := k }) ∧
    (∀ (r : HostReg) (a : Nat), (∀ q, s.params.regMap.addr q = a ↔ q = r) →
      (s.hostOps = .readBus a :: rest → step s = step { s with hostOps := .readReg r :: rest }) ∧
      (s.hostOps = .writeBus a l :: rest → step s = step { s with hostOps := .writeRegAt r.number l :: rest }))

/-- R28, R32, R75, R103, R258: HOST.LOAD of a byte sequence puts it in IBUF and its length in ILEN, so that it is the input of the
next command; every byte beyond it and everything else stays. -/
def Obligations.HostLoadSetsInput : Prop :=
  ∀ (s : State) (x : List Byte) (rest : List HostEvent), s.hostOps = hostLoad x ++ rest → isStuck s = false → s.status ≠ .busy →
    x.length < 2 ^ 32 → fitsCap x.length s.params.ibufCap = true →
    ∃ m, run (x.length + 1) s = .next { s with hostOps := rest, ibuf := m, ilen := BitVec.ofNat 32 x.length } ∧
      input { s with hostOps := rest, ibuf := m, ilen := BitVec.ofNat 32 x.length } = x ∧
      ∀ a, x.length ≤ a → memRead m a = memRead s.ibuf a

/-! ## P_IDLE and the frequency table -/

/-- R30, R242, R271: P_IDLE changes nothing. -/
def Obligations.IdleChangesNothing : Prop :=
  ∀ s : State, exec .pIdle s = .next s

/-- R111: P_E_COUNT adds to each cell the number of times its Symbol occurs in the input, and nothing else changes but
PHASE. -/
def Obligations.CountPhaseCountsInput : Prop :=
  ∀ s : State, ilenFits s = true →
    ∃ f, exec .pECount s = .next { s with
        phase := if s.ilen = 0#32 then codeEEmit else codeETbInit, work := { s.work with freq := f } } ∧
      ∀ b, freqOf f b = freqOf s.work.freq b + BitVec.ofNat 32 ((input s).count b)

/-- R110, R111: from a table of zeros, the counts are those of the input and "values sum to N". -/
def Obligations.CountsSumToLength : Prop :=
  ∀ s : State, ilenFits s = true → (∀ b, freqOf s.work.freq b = 0#32) →
    ∃ t, exec .pECount s = .next t ∧ (∀ b, (freqOf t.work.freq b).toNat = (input s).count b) ∧
      totalCount t.work.freq = s.ilen.toNat

/-- R112, for the clause "no phase writes FREQ": while the command runs, every phase but P_E_COUNT leaves FREQ as it is. -/
def Obligations.FrequencyTableIsImmutable : Prop :=
  ∀ (i : Instr) (s t : State), i ≠ .pECount → i ≠ .encode → i ≠ .decode → exec i s = .next t → t.phase ≠ codeIdle →
    t.work.freq = s.work.freq

/-! ## The tree builder -/

/-- R122: with the keys of the table in ascending order, P_E_TB_INIT makes the leaf of the k-th key at index k, puts the new
indices in PQ, sets NSYM and NNODES, and for one key TRIVIAL and ROOT. -/
def Obligations.TreeInitCreatesLeaves : Prop :=
  ∀ (s : State) (ks : List Byte), ks.Pairwise (· < ·) → (∀ b, b ∈ ks ↔ 0#32 < freqOf s.work.freq b) → ks ≠ [] →
    ∃ nd q, exec .pETbInit s = .next { s with
        phase := if ks.length = 1 then codeEDerive else codeETbMerge,
        work := { s.work with
          node := nd, pq := q, nsym := BitVec.ofNat 9 ks.length, nnodes := BitVec.ofNat 10 ks.length,
          trivial := if ks.length = 1 then true else s.work.trivial,
          root := if ks.length = 1 then 0#9 else s.work.root } } ∧
      (∀ k (h : k < ks.length), nodeAt nd k =
        { kind := .leaf, sym := ks[k], weight := freqOf s.work.freq ks[k], left := nil9, right := nil9 }) ∧
      (∀ k, ks.length ≤ k → nodeAt nd k = nodeAt s.work.node k) ∧
      (∀ j, j ∈ q ↔ j ∈ s.work.pq ∨ j.val < ks.length) ∧
      (s.work.pq.Pairwise (· < ·) → q.Pairwise (· < ·))

/-- R123: ExtractMin returns the index whose (weight, index) is least, and removes it and nothing else from PQ. -/
def Obligations.ExtractMinTakesLeast : Prop :=
  ∀ (nd : Arena) (q : List Slot), q ≠ [] →
    ∃ m q', extractMin nd q = some (m, q') ∧ m ∈ q ∧ (∀ j ∈ q, j ≠ m → lighter nd m j) ∧
      (∀ j, j ∈ q' ↔ j ∈ q ∧ j ≠ m) ∧ (q.Pairwise (· < ·) → q'.Pairwise (· < ·) ∧ q'.length + 1 = q.length)

/-- R123, R125: P_E_TB_MERGE joins the least node a (left) and the least of the others b (right) under a new node at index
NNODES whose weight is their sum; PQ loses a and b and gains the new index; the last merge sets ROOT. -/
def Obligations.MergeJoinsTwoLeast : Prop :=
  ∀ s : State, s.work.pq.Pairwise (· < ·) → 2 ≤ s.work.pq.length → s.work.nnodes.toNat < 511 →
    ∃ a b nd q, a ∈ s.work.pq ∧ b ∈ s.work.pq ∧ a ≠ b ∧ (∀ j ∈ s.work.pq, j ≠ a → lighter s.work.node a j) ∧
      (∀ j ∈ s.work.pq, j ≠ a → j ≠ b → lighter s.work.node b j) ∧
      exec .pETbMerge s = .next { s with
        phase := if q.length = 1 then codeEDerive else codeETbMerge,
        work := { s.work with
          node := nd, pq := q, nnodes := s.work.nnodes + 1#10,
          root := if q.length = 1 then BitVec.ofNat 9 s.work.nnodes.toNat else s.work.root } } ∧
      nodeAt nd s.work.nnodes.toNat =
        { kind := .internal, sym := 0#8, weight := s.work.node[a].weight + s.work.node[b].weight,
          left := BitVec.ofNat 9 a.val, right := BitVec.ofNat 9 b.val } ∧
      (∀ k, k ≠ s.work.nnodes.toNat → nodeAt nd k = nodeAt s.work.node k) ∧
      (∀ j, j ∈ q ↔ j.val = s.work.nnodes.toNat ∨ (j ∈ s.work.pq ∧ j ≠ a ∧ j ≠ b)) ∧
      q.Pairwise (· < ·)

/-- R126 to R129: the tree built from a FrequencyTable with L ≥ 1 keys whose counts sum to less than 2^32. It has 2L − 1 nodes
with the root last; the leaves are the keys in ascending order; every other node has two different children before it
and the sum of their weights; every node but the root is the child of exactly one node; the root's weight is the sum
of all counts. -/
def Obligations.TreeBuilderBuildsFullTree : Prop :=
  ∀ (f : FreqTable) (L : Nat), L = (presentSymbols f).length → 1 ≤ L → totalCount f < 2 ^ 32 →
    ∃ w, buildTree f = .ok w ∧ w.nsym = BitVec.ofNat 9 L ∧ w.nnodes.toNat = 2 * L - 1 ∧ w.root.toNat = 2 * L - 2 ∧
      w.trivial = decide (L = 1) ∧ treeWellFormed w = true ∧
      (∀ k (h : k < (presentSymbols f).length), nodeAt w.node k =
        leafNode (presentSymbols f)[k] (freqOf f (presentSymbols f)[k])) ∧
      (∀ k, L ≤ k → k < 2 * L - 1 → (nodeAt w.node k).kind = .internal ∧
        (nodeAt w.node k).left ≠ (nodeAt w.node k).right ∧
        (nodeAt w.node k).left.toNat < k ∧ (nodeAt w.node k).right.toNat < k ∧
        (nodeAt w.node k).weight.toNat =
          (nodeAt w.node (nodeAt w.node k).left.toNat).weight.toNat +
          (nodeAt w.node (nodeAt w.node k).right.toNat).weight.toNat) ∧
      (∀ j, j < 2 * L - 2 → ∃! k, L ≤ k ∧ k < 2 * L - 1 ∧
        ((nodeAt w.node k).left.toNat = j ∨ (nodeAt w.node k).right.toNat = j)) ∧
      (nodeAt w.node w.root.toNat).weight.toNat = totalCount f

/-! ## Code derivation -/

/-- R141: the malformed-tree test, clause by clause. -/
def Obligations.TreeWellFormedTest : Prop :=
  ∀ w : Work, w.nnodes.toNat ≤ 511 →
    (treeWellFormed w = true ↔
      (w.root ≠ 511#9 ∧ w.root.toNat < w.nnodes.toNat) ∧
      (∀ i, i < w.nnodes.toNat → (nodeAt w.node i).kind = .leaf →
        (nodeAt w.node i).left = 511#9 ∧ (nodeAt w.node i).right = 511#9) ∧
      (∀ i, i < w.nnodes.toNat → (nodeAt w.node i).kind = .internal →
        (nodeAt w.node i).left ≠ 511#9 ∧ (nodeAt w.node i).right ≠ 511#9 ∧
        (nodeAt w.node i).left.toNat < i ∧ (nodeAt w.node i).right.toNat < i) ∧
      (w.trivial = true → w.nnodes = 1#10 ∧ (nodeAt w.node 0).kind = .leaf) ∧
      (w.trivial = false → (nodeAt w.node w.root.toNat).kind = .internal))

/-- R142, R144: for a well-formed trivial tree P_E_DERIVE gives its one Symbol the code "0" and changes nothing else. -/
def Obligations.DeriveTrivialCode : Prop :=
  ∀ s : State, treeWellFormed s.work = true → s.work.trivial = true →
    ∃ c, exec .pEDerive s = .next { s with phase := codeEPack, work := { s.work with code := c } } ∧
      codeOf c (nodeAt s.work.node s.work.root.toNat).sym = { present := true, bits := [false] } ∧
      ∀ b, b ≠ (nodeAt s.work.node s.work.root.toNat).sym → codeOf c b = codeOf s.work.code b

/-- R142, R143, R146: for a well-formed tree with more than one node, whose leaves hold different Symbols at depth 255 or less,
P_E_DERIVE gives every leaf's Symbol the path from the root as its code (0 for left, 1 for right) and changes nothing
else. -/
def Obligations.DeriveGivesPathsAsCodes : Prop :=
  ∀ s : State, treeWellFormed s.work = true → s.work.trivial = false →
    (∀ β j, LeafPath s.work.node s.work.root.toNat β j →
      β.length ≤ 255 ∧ (codeOf s.work.code (nodeAt s.work.node j).sym).present = false) →
    (∀ β β' j j', LeafPath s.work.node s.work.root.toNat β j → LeafPath s.work.node s.work.root.toNat β' j' →
      (nodeAt s.work.node j).sym = (nodeAt s.work.node j').sym → β = β') →
    ∃ c, exec .pEDerive s = .next { s with phase := codeEPack, work := { s.work with code := c } } ∧
      (∀ β j, LeafPath s.work.node s.work.root.toNat β j →
        codeOf c (nodeAt s.work.node j).sym = { present := true, bits := β }) ∧
      (∀ b, (∀ β j, LeafPath s.work.node s.work.root.toNat β j → (nodeAt s.work.node j).sym ≠ b) →
        codeOf c b = codeOf s.work.code b)

/-- R145, R147, R148: every FrequencyTable with a key has codes; exactly its keys have one, each of 1 to 255 bits, and no code is a
prefix of another. -/
def Obligations.DerivedCodesArePrefixFree : Prop :=
  ∀ f : FreqTable, presentSymbols f ≠ [] →
    ∃ c, huffmanCodes f = some c ∧ TableWf c ∧ ∀ b, (codeOf c b).present = true ↔ 0#32 < freqOf f b

/-- R149: with two or more keys the codes are full: every bit sequence has a code as a prefix or is a prefix of one. -/
def Obligations.DerivedCodesAreFull : Prop :=
  ∀ (f : FreqTable) (c : CodeTable), 2 ≤ (presentSymbols f).length → huffmanCodes f = some c →
    ∀ β : Bits, ∃ b, (codeOf c b).present = true ∧
      (isPrefix (codeOf c b).bits β = true ∨ isPrefix β (codeOf c b).bits = true)

/-! ## The bit packer and unpacker -/

/-- R155: the bytes of Pack(β): as many as its bits need, each filled high to low, padding 0; and the valid count. -/
def Obligations.PackLayout : Prop :=
  ∀ β : Bits, (pack β).length = (β.length + 7) / 8 ∧
    (∀ j (h : j < (pack β).length) k, k < 8 →
      (pack β)[j].getLsbD (7 - k) = if h : 8 * j + k < β.length then β[8 * j + k] else false) ∧
    (validOf β.length = if β.length = 0 then 0 else (β.length - 1) % 8 + 1)

/-- R157: BP_PUSH(b) writes bit 7 − NACC of ACC, counts, and moves a full byte to PBUF; it keeps the packer's invariant. -/
def Obligations.PushKeepsPackerInvariant : Prop :=
  ∀ (w : Work) (b : Bool), PackerInv w → w.tbits.toNat + 1 < 2 ^ 64 →
    PackerInv (bpPush w b) ∧ (bpPush w b).tbits.toNat = w.tbits.toNat + 1 ∧
    (w.nacc.toNat = 7 → ∃ x : Byte, (bpPush w b).pbuf = w.pbuf ++ [x] ∧ x.getLsbD 0 = b ∧
      ∀ k, 1 ≤ k → k < 8 → x.getLsbD k = w.acc.getLsbD k) ∧
    (w.nacc.toNat < 7 → (bpPush w b).pbuf = w.pbuf ∧ (bpPush w b).acc.getLsbD (7 - w.nacc.toNat) = b ∧
      ∀ k, k < 8 → k ≠ 7 - w.nacc.toNat → (bpPush w b).acc.getLsbD k = w.acc.getLsbD k)

/-- R159: the streaming form of the packer is Pack. -/
def Obligations.StreamingPackerIsPack : Prop :=
  ∀ (w : Work) (β : Bits), β.length < 2 ^ 64 →
    (bpFlush (bpPushAll (bpReset w) β)).pbuf = pack β ∧
    (bpFlush (bpPushAll (bpReset w) β)).valid.toNat = validOf β.length ∧
    (bpFlush (bpPushAll (bpReset w) β)).tbits.toNat = β.length

/-- R171: Unpack fails exactly when there are too few bytes, and else gives the n bits in the order they were packed. -/
def Obligations.UnpackReadsBitsInOrder : Prop :=
  ∀ (bytes : List Byte) (n : Nat),
    (unpack bytes n = none ↔ bytes.length < (n + 7) / 8) ∧
    (∀ u, unpack bytes n = some u → u.length = n ∧
      ∀ i (h : i < u.length) (h' : i / 8 < bytes.length), u[i] = bytes[i / 8].getLsbD (7 - i % 8))

/-- R173: Unpack and UnpackV give back what Pack packed. -/
def Obligations.UnpackInvertsPack : Prop :=
  ∀ β : Bits, unpack (pack β) β.length = some β ∧ unpackV (pack β) (validOf β.length) = some β

/-- R17, R65: the integers of the artifact lie most significant byte first, and read back as they were written. -/
def Obligations.IntegersRoundTrip : Prop :=
  (∀ v : BitVec 16, ∃ b0 b1, u16be v = [b0, b1] ∧ b0.toNat = v.toNat / 256 ∧ b1.toNat = v.toNat % 256 ∧
    be16 b0 b1 = v.toNat) ∧
  (∀ (v : BitVec 64) (rest : List Byte), (u64be v).length = 8 ∧
    (∀ k (h : k < (u64be v).length), (u64be v)[k].toNat = v.toNat / 256 ^ (7 - k) % 256) ∧
    be64 (u64be v ++ rest) = v.toNat) ∧
  (∀ b0 b1 : Byte, be16 b0 b1 = b0.toNat * 256 + b1.toNat) ∧
  (∀ b0 b1 b2 b3 b4 b5 b6 b7 : Byte, be64 [b0, b1, b2, b3, b4, b5, b6, b7] =
    b0.toNat * 256 ^ 7 + b1.toNat * 256 ^ 6 + b2.toNat * 256 ^ 5 + b3.toNat * 256 ^ 4 + b4.toNat * 256 ^ 3 +
      b5.toNat * 256 ^ 2 + b6.toNat * 256 + b7.toNat)

/-! ## ENCODE's output side -/

/-- R183: P_E_PACK leaves in the packer the packed codes of the input bytes in order, with their number and the trailing-bit
count, and nothing else changes but PHASE. -/
def Obligations.PackPhasePacksPayload : Prop :=
  ∀ s : State, ilenFits s = true → (∀ b ∈ input s, (codeOf s.work.code b).present = true) →
    (payloadBits s.work.code (input s)).length < 2 ^ 64 →
    exec .pEPack s = .next { s with
      phase := codeEEmit,
      work := { s.work with
        acc := 0#8, nacc := 0#3, tbits := BitVec.ofNat 64 (payloadBits s.work.code (input s)).length,
        valid := BitVec.ofNat 4 (validOf (payloadBits s.work.code (input s)).length),
        pbuf := pack (payloadBits s.work.code (input s)) } }

/-- R184: the payload has as many bits as the counts times the code lengths; R192: over one or two distinct byte values every
derived code has one bit, so it has as many bits as the input has bytes. -/
def Obligations.PayloadBitCount : Prop :=
  (∀ (c : CodeTable) (x : List Byte),
    (payloadBits c x).length = (allSymbols.map (fun b => x.count b * (codeOf c b).bits.length)).sum) ∧
  (∀ (x : List Byte) (c : CodeTable), x ≠ [] → x.length < 2 ^ 32 → (presentSymbols (countOf x)).length ≤ 2 →
    huffmanCodes (countOf x) = some c → (payloadBits c x).length = x.length)

/-- R90 to R94, R98, R186: the artifact is the entry count, the entries of the present Symbols in ascending order, the 64-bit
total and the payload; R97: with no entry, no bit and no payload it is ten zero bytes. -/
def Obligations.ArtifactHasFourParts : Prop :=
  (∀ (w : Work) (es : List TableEntry), es.Pairwise (fun d e => d.sym < e.sym) →
    (∀ b, (codeOf w.code b).present = true ↔ ∃ e ∈ es, e.sym = b) →
    (∀ e ∈ es, e.bits = (codeOf w.code e.sym).bits ∧ e.codeBytes = pack e.bits) →
    artifact w =
      u16be (BitVec.ofNat 16 w.nsym.toNat) ++ tableOnWire es ++ u64be w.tbits ++ w.pbuf) ∧
  (∀ w : Work, w.nsym = 0#9 → NoCodes w.code → w.tbits = 0#64 → w.pbuf = [] → artifact w = List.replicate 10 0#8)

/-- R71, R186, R213: an EMIT phase whose output fits OBUF writes it from index 0 on, sets OLEN and STATUS, and goes idle. Every
other byte of OBUF, the input and the other host registers stay. -/
def Obligations.EmitPhasesWriteOutput : Prop :=
  ∀ (s : State) (i : Instr) (A : List Byte),
    (i = .pEEmit ∧ A = artifact s.work) ∨ (i = .pDEmit ∧ A = s.work.dbuf) →
    fitsCap A.length s.params.obufCap = true →
    ∃ t, exec i s = .next t ∧ t.status = .done ∧ t.phase = codeIdle ∧ t.olen = BitVec.ofNat 64 A.length ∧
      (∀ j (h : j < A.length), memRead t.obuf j = some A[j]) ∧
      (∀ j, A.length ≤ j → memRead t.obuf j = memRead s.obuf j) ∧
      t.err = s.err ∧ t.stage = s.stage ∧ t.ilen = s.ilen ∧ t.ibuf = s.ibuf ∧ t.params = s.params ∧
      t.hostOps = s.hostOps ∧ t.hostReads = s.hostReads ∧ t.resets = s.resets

/-- R186, R213, R228: an EMIT phase whose output is longer than OBUF_CAP raises OutputUnwritable, with nothing written. -/
def Obligations.EmitPhasesRefuseLongOutput : Prop :=
  ∀ (s : State) (cap : Nat), s.params.obufCap = some cap →
    (cap < (artifact s.work).length → exec .pEEmit s = .next (raise .outputUnwritable .noStage s)) ∧
    (cap < s.work.dbuf.length → exec .pDEmit s = .next (raise .outputUnwritable .noStage s))

/-! ## DECODE -/

/-- R202: P_D_PARSE accepts every input that begins with a legal entry count and table, and writes exactly the table's codes,
the count and the index of what follows. -/
def Obligations.ParseAcceptsLegalTable : Prop :=
  ∀ (s : State) (es : List TableEntry) (rest : List Byte), ilenFits s = true → NoCodes s.work.code →
    HoldsTable (input s) es rest →
    ∃ c, exec .pDParse s = .next { s with
        phase := codeDUnpack,
        work := { s.work with
          code := c, nsym := BitVec.ofNat 9 es.length, ppos := BitVec.ofNat 33 (2 + (tableOnWire es).length) } } ∧
      (∀ e ∈ es, codeOf c e.sym = { present := true, bits := e.bits }) ∧
      (∀ b, (∀ e ∈ es, e.sym ≠ b) → codeOf c b = codeOf s.work.code b)

/-- R100 (a), R202: P_D_PARSE raises MalformedArtifact(TableParse) on every other input. -/
def Obligations.ParseRejectsEverythingElse : Prop :=
  ∀ s : State, ilenFits s = true → NoCodes s.work.code → (¬ ∃ es rest, HoldsTable (input s) es rest) →
    exec .pDParse s = .next (raise .malformedArtifact .tableParse s)

/-- R204: after a successful parse the table is well formed and has as many entries as its count, and Lookup gives each
present code's Symbol. -/
def Obligations.ParsedTableIsWellFormed : Prop :=
  ∀ (a : List Byte) (c0 c : CodeTable) (n p : Nat), NoCodes c0 → parseTable a c0 = some (n, c, p) →
    TableWf c ∧ entriesOf c = n ∧ (∀ b, (codeOf c b).present = true → lookup c (codeOf c b).bits = some b)

/-- R90 to R93, R202, R216: parsing the entry count and table of a well-formed code table gives that table back, whatever
follows. -/
def Obligations.SerializedTableParsesBack : Prop :=
  ∀ (c : CodeTable) (rest : List Byte), TableWf c →
    ∃ c', parseTable (u16be (BitVec.ofNat 16 (entriesOf c)) ++ tableBytes c ++ rest) noCodes =
        some (entriesOf c, c', 2 + (tableBytes c).length) ∧
      ∀ b, (codeOf c' b).present = (codeOf c b).present ∧
        ((codeOf c b).present = true → (codeOf c' b).bits = (codeOf c b).bits)

/-- R206, R208: P_D_UNPACK accepts a bit count T with exactly the bytes it needs after it, and leaves the T payload bits. -/
def Obligations.UnpackPhaseReadsPayload : Prop :=
  ∀ (s : State) (pre payload : List Byte) (T : BitVec 64), ilenFits s = true →
    input s = pre ++ u64be T ++ payload → pre.length = s.work.ppos.toNat → payload.length = (T.toNat + 7) / 8 →
    ∃ u, exec .pDUnpack s = .next { s with
        phase := if s.work.nsym = 0#9 ∧ T = 0#64 then codeDEmit else codeDMatch,
        work := { s.work with
          tbits := T, valid := BitVec.ofNat 4 (validOf T.toNat), ubits := u, ppos := s.ilen.setWidth 33 } } ∧
      u.length = T.toNat ∧ ∀ i (h : i < u.length), u[i] = bitOf payload i

/-- R206, R207: P_D_UNPACK raises MalformedArtifact(BitUnpack) when there is no room for the bit count, and when the bytes after
it are too few or too many. -/
def Obligations.UnpackPhaseRejectsWrongLength : Prop :=
  ∀ (s : State), ilenFits s = true →
    (s.ilen.toNat < s.work.ppos.toNat + 8 → exec .pDUnpack s = .next (raise .malformedArtifact .bitUnpack s)) ∧
    (∀ (pre payload : List Byte) (T : BitVec 64), input s = pre ++ u64be T ++ payload →
      pre.length = s.work.ppos.toNat → payload.length ≠ (T.toNat + 7) / 8 →
      exec .pDUnpack s = .next (raise .malformedArtifact .bitUnpack s))

/-- R212: over a well-formed table, bits that are the codes of the Symbols ys one after the other give DBUF = ys and an empty
candidate. -/
def Obligations.GreedyMatchingIsExact : Prop :=
  ∀ (s : State) (ys : List Byte), TableWf s.work.code → (∀ y ∈ ys, (codeOf s.work.code y).present = true) →
    s.work.ubits = payloadBits s.work.code ys → s.work.tbits.toNat = s.work.ubits.length →
    exec .pDMatch s = .next { s with phase := codeDEmit, work := { s.work with cand := [], dbuf := ys } }

/-- R210, R211: over a well-formed table, bits that are no concatenation of codes raise MalformedArtifact(CodeMatch). -/
def Obligations.UnmatchedBitsAreRejected : Prop :=
  ∀ s : State, TableWf s.work.code → s.work.ubits.length = s.work.tbits.toNat →
    (∀ ys : List Byte, (∀ y ∈ ys, (codeOf s.work.code y).present = true) → s.work.ubits ≠ payloadBits s.work.code ys) →
    exec .pDMatch s = .next (raise .malformedArtifact .codeMatch s)

/-! ## Errors and rules about the whole machine -/

/-- R232: what `raise` leaves, for every error and stage: ERR, STAGE, OLEN = 0, STATUS = ERROR, PHASE = P_IDLE; IBUF and ILEN
unchanged; no byte of OBUF is output (held as no specified byte, log entry 6). -/
def Obligations.RaiseEntersError : Prop :=
  ∀ (e : ErrCode) (st : Stage) (s : State),
    (raise e st s).err = e ∧ (raise e st s).stage = st ∧ (raise e st s).olen = 0#64 ∧ (raise e st s).status = .error ∧
    (raise e st s).phase = codeIdle ∧ (raise e st s).ibuf = s.ibuf ∧ (raise e st s).ilen = s.ilen ∧
    (∀ a, memRead (raise e st s).obuf a = none) ∧ (raise e st s).params = s.params ∧
    (raise e st s).hostOps = s.hostOps ∧ (raise e st s).hostReads = s.hostReads

/-- R122, R142, R143, R183, R229: the four sites of InternalTreeFault: no key in P_E_TB_INIT; a malformed tree in P_E_DERIVE; a
code over 255 bits or a Symbol that has a code already, in its walk, be it from before the walk or from an earlier leaf of the
same tree; an input byte without a code in P_E_PACK. -/
def Obligations.InternalTreeFaultSites : Prop :=
  ∀ s : State,
    ((∀ b, freqOf s.work.freq b = 0#32) → exec .pETbInit s = .next (raise .internalTreeFault .noStage s)) ∧
    (treeWellFormed s.work = false → exec .pEDerive s = .next (raise .internalTreeFault .noStage s)) ∧
    (s.work.trivial = false →
      (∃ β j, LeafPath s.work.node s.work.root.toNat β j ∧
        (255 < β.length ∨ (codeOf s.work.code (nodeAt s.work.node j).sym).present = true)) →
      exec .pEDerive s = .next (raise .internalTreeFault .noStage s)) ∧
    (s.work.trivial = false →
      (∃ β β' j j', LeafPath s.work.node s.work.root.toNat β j ∧ LeafPath s.work.node s.work.root.toNat β' j' ∧ β ≠ β' ∧
        (nodeAt s.work.node j).sym = (nodeAt s.work.node j').sym) →
      exec .pEDerive s = .next (raise .internalTreeFault .noStage s)) ∧
    (ilenFits s = true → (∃ b ∈ input s, (codeOf s.work.code b).present = false) →
      exec .pEPack s = .next (raise .internalTreeFault .noStage s))

/-- R226: which operation can raise which error, with which stage. -/
def Obligations.ErrorsAreRaisedWhereListed : Prop :=
  ∀ (i : Instr) (s t : State), exec i s = .next t → s.status ≠ .error → t.status = .error →
    (t.err = .outputUnwritable ∧ t.stage = .noStage ∧ (i = .pEEmit ∨ i = .pDEmit)) ∨
    (t.err = .malformedArtifact ∧ t.stage = .tableParse ∧ i = .pDParse) ∨
    (t.err = .malformedArtifact ∧ t.stage = .bitUnpack ∧ i = .pDUnpack) ∨
    (t.err = .malformedArtifact ∧ t.stage = .codeMatch ∧ i = .pDMatch) ∨
    (t.err = .internalTreeFault ∧ t.stage = .noStage ∧ (i = .pETbInit ∨ i = .pEDerive ∨ i = .pEPack))

/-- R31: the phase an operation leaves is one the transition table lists for it; a command ignored while BUSY leaves PHASE. -/
def Obligations.TransitionsFollowTable : Prop :=
  ∀ (i : Instr) (s t : State), exec i s = .next t → (i = .pIdle → s.phase = codeIdle) →
    t.phase ∈ successors i ∨ (s.status = .busy ∧ t = s ∧ (i = .encode ∨ i = .decode))

/-- R28, R32, R264: no operation writes ILEN, IBUF or the parameters, or touches the host's bookkeeping. -/
def Obligations.OperationsLeaveInput : Prop :=
  ∀ (i : Instr) (s t : State), exec i s = .next t →
    t.ilen = s.ilen ∧ t.ibuf = s.ibuf ∧ t.params = s.params ∧ t.hostOps = s.hostOps ∧ t.hostReads = s.hostReads ∧
    t.resets = s.resets

/-- R33, R62, R214: a byte of OBUF that is specified after an operation was so before, with that value, or was written by an
EMIT phase that succeeded; and whenever an operation ends in ERROR, OLEN is 0 and OBUF holds no specified byte (log
entry 6). -/
def Obligations.OnlyEmitWritesOutput : Prop :=
  ∀ (i : Instr) (s t : State), exec i s = .next t →
    (∀ a b, memRead t.obuf a = some b → memRead s.obuf a = some b ∨ ((i = .pEEmit ∨ i = .pDEmit) ∧ t.status = .done)) ∧
    (s.status ≠ .error → t.status = .error → t.olen = 0#64 ∧ ∀ a, memRead t.obuf a = none)

/-- The stops of the model, which are its own choice (log entries 8 and 11): the operations that can stop, and when. -/
def Obligations.OperationsStopOnlyWhereNoRuleApplies : Prop :=
  ∀ (i : Instr) (s : State) (r : Fault), exec i s = .fault r →
    (r = .inputBeyondCapacity ∧ ilenFits s = false ∧ (i = .pECount ∨ i = .pEPack ∨ i = .pDParse ∨ i = .pDUnpack)) ∨
    (r = .mergeNeedsTwo ∧ i = .pETbMerge ∧ ∀ a ∈ s.work.pq, ∀ b ∈ s.work.pq, a = b) ∨
    (r = .arenaFull ∧ i = .pETbMerge ∧ 511 ≤ s.work.nnodes.toNat) ∨
    (r = .unpackedBitsMissing ∧ i = .pDMatch ∧ s.work.ubits.length < s.work.tbits.toNat)

/-- R23 (2): no step of a machine that is not BUSY depends on the working state: two states that differ in it only take steps
that differ in it only. -/
def Obligations.WorkingStateIsHidden : Prop :=
  ∀ (s t : State) (w : Work), s.status ≠ .busy → s.phase = codeIdle → step s = .next t →
    ∃ w', step { s with work := w } = .next { t with work := w' }

/-- The state after reset meets the invariant. -/
def Obligations.ResetMeetsInvariant : Prop := Inv State.reset

/-- R25 to R33, R41, R47, R69, R84, R125, R126, R227: every step, of the sequencer or of the host, keeps the invariant. -/
def Obligations.EveryStepKeepsInvariant : Prop :=
  ∀ s t : State, Inv s → step s = .next t → Inv t

/-- R31, R69, R126, R264: in a state that meets the invariant, with the host's next operation (if any) one the rules allow, the
machine has a next step: it neither faults nor refuses. -/
def Obligations.DisciplinedMachineNeverStops : Prop :=
  ∀ s : State, Inv s → (∀ e rest, s.hostOps = e :: rest → allowed e s) → ∃ t, step s = .next t

/-! ## The two commands as functions -/

/-- R180, R187, R188, R190: ENCODE of the input x, issued and left to run, takes the steps R31 counts and ends DONE with Encode(x)
as its output; where that does not fit OBUF it ends with OutputUnwritable. The input is untouched. -/
def Obligations.EncodeCommandComputesEncode : Prop :=
  ∀ (s : State) (A : List Byte), s.hostOps = [.writeCmd 0x01#8] → isStuck s = false → s.status ≠ .busy → ilenFits s = true →
    encodeFn (input s) = some A →
    ∃ t, run (1 + encodeSteps (input s)) s = .next t ∧ t.phase = codeIdle ∧ t.ibuf = s.ibuf ∧ t.ilen = s.ilen ∧
      (fitsCap A.length s.params.obufCap = true →
        t.status = .done ∧ t.err = .noError ∧ t.stage = .noStage ∧ outputIs t A) ∧
      (fitsCap A.length s.params.obufCap = false →
        t.status = .error ∧ t.err = .outputUnwritable ∧ t.stage = .noStage ∧ t.olen = 0#64)

/-- R200, R214, R215: DECODE of the input a, issued and left to run, is over after at most four steps, with Decode(a) as its
output, or with MalformedArtifact and the stage of the first test that failed; where the output does not fit OBUF it
ends with OutputUnwritable. (P_IDLE changes nothing, so running on is waiting.) -/
def Obligations.DecodeCommandComputesDecode : Prop :=
  ∀ s : State, s.hostOps = [.writeCmd 0x02#8] → isStuck s = false → s.status ≠ .busy → ilenFits s = true →
    ∃ t, run 5 s = .next t ∧ t.phase = codeIdle ∧ t.ibuf = s.ibuf ∧ t.ilen = s.ilen ∧
      (∀ y, decodeFn (input s) = .ok y →
        (fitsCap y.length s.params.obufCap = true →
          t.status = .done ∧ t.err = .noError ∧ t.stage = .noStage ∧ outputIs t y) ∧
        (fitsCap y.length s.params.obufCap = false →
          t.status = .error ∧ t.err = .outputUnwritable ∧ t.stage = .noStage ∧ t.olen = 0#64)) ∧
      (∀ st, decodeFn (input s) = .error st →
        t.status = .error ∧ t.err = .malformedArtifact ∧ t.stage = st ∧ t.olen = 0#64)

/-- R216: Decode(Encode(x)) = x, for every byte sequence a command can take; so Encode is defined on all of them (R190). -/
def Obligations.RoundTrip : Prop :=
  ∀ x : List Byte, x.length < 2 ^ 32 → ∃ A, encodeFn x = some A ∧ decodeFn A = .ok x
end

