-- ==== Sys2Proof/Laws/Bits.lean ====
section
/-! SUPPORT. The laws of the operand forms: bits of a packed byte, of ACC and of a byte sequence, prefixes, big-endian integers. -/

namespace Sys2Proof.Machine

/-- Two bytes with the same bits, read from the most significant one down, are the same byte. -/
theorem byte_ext (a b : Byte) (h : ∀ k, k < 8 → a.getLsbD (7 - k) = b.getLsbD (7 - k)) : a = b := by
  apply BitVec.eq_of_getLsbD_eq
  intro i hi
  have := h (7 - i) (by omega)
  rwa [show 7 - (7 - i) = i by omega] at this

/-- The bits of a packed byte, high to low, are the sequence's bits in order; past its end they are 0 (R155). -/
theorem packByte_bit (β : Bits) (j k : Nat) (hk : k < 8) :
    (packByte β j).getLsbD (7 - k) = β.getD (8 * j + k) false := by
  unfold packByte
  rw [show ∀ x : BitVec 8, x.getLsbD (7 - k) = x.getMsbD k by intro x; rw [BitVec.getMsbD]; simp [hk],
    BitVec.getMsbD_ofBoolListBE]
  interval_cases k <;> rfl

/-- A packed byte that is full does not depend on the bits that follow. -/
theorem packByte_append (β γ : Bits) (j : Nat) (h : 8 * j + 8 ≤ β.length) : packByte (β ++ γ) j = packByte β j := by
  apply byte_ext
  intro k hk
  rw [packByte_bit _ _ _ hk, packByte_bit _ _ _ hk, List.getD_eq_getElem?_getD, List.getD_eq_getElem?_getD,
    List.getElem?_append_left (by omega)]

/-- Pack gives as many bytes as the bits need. -/
@[simp] theorem length_pack (β : Bits) : (pack β).length = ceil8 β.length := by simp [pack]

/-- ACC[i] <- b writes bit i and no other. -/
theorem setAccBit_bit (acc : Byte) (i k : Nat) (b : Bool) (hi : i < 8) (hk : k < 8) :
    (setAccBit acc i b).getLsbD k = if k = i then b else acc.getLsbD k := by
  unfold setAccBit
  interval_cases i <;> interval_cases k <;> cases b <;> simp

/-- A bit of the first n bytes is a bit of the whole sequence. -/
theorem bitOf_take (bs : List Byte) (n i : Nat) (h : i / 8 < n) : bitOf (bs.take n) i = bitOf bs i := by
  unfold bitOf
  rw [List.getD_eq_getElem?_getD, List.getD_eq_getElem?_getD, List.getElem?_take_of_lt h]

/-- When Unpack succeeds, and what it gives. -/
theorem unpack_some {bs : List Byte} {n : Nat} {u : Bits} :
    unpack bs n = some u ↔ (ceil8 n ≤ bs.length ∧ u.length = n ∧ ∀ i (h : i < u.length), u[i] = bitOf bs i) := by
  unfold unpack
  constructor
  · intro h
    split at h <;> simp at h
    subst h
    exact ⟨by omega, by simp, by intro i h; simp⟩
  · rintro ⟨h1, h2, h3⟩
    rw [if_neg (by omega)]
    congr 1
    exact List.ext_getElem (by simp [h2]) (by intro i g1 g2; simp; rw [h3 i g2])

/-- Eight bytes make a number below 2^64. -/
theorem be64_lt (bs : List Byte) : be64 bs < 2 ^ 64 := by
  have fold : ∀ (l : List Byte) (n : Nat), l.foldl (fun n b => n * 256 + b.toNat) n < (n + 1) * 256 ^ l.length := by
    intro l
    induction l with
    | nil => intro n; simp
    | cons b l ih =>
      intro n
      have := b.isLt
      rw [List.foldl_cons, List.length_cons, pow_succ', ← mul_assoc]
      exact lt_of_lt_of_le (ih _) (Nat.mul_le_mul_right _ (by omega))
  refine lt_of_lt_of_le (fold _ 0) ?_
  rw [zero_add, one_mul]
  exact (Nat.pow_le_pow_right (by norm_num) (by simp : (bs.take 8).length ≤ 8)).trans (by norm_num)

/-- The clash of two codes does not depend on their order. -/
theorem clash_comm (a b : Bits) : clash a b = clash b a := by simp [clash, Bool.or_comm]

/-- A code clashes with itself. -/
@[simp] theorem clash_self (a : Bits) : clash a a = true := by simp [clash, isPrefix]

end Sys2Proof.Machine
end

