-- ==== Sys2Proof/Laws/State.lean ====
section
/-! SUPPORT. One lemma per field for every update of the state and of the working state, so that no proof unfolds a record. -/

namespace Sys2Proof.Machine

@[simp] theorem releaseWork_status (s : State) : (releaseWork s).status = s.status := rfl
@[simp] theorem releaseWork_err (s : State) : (releaseWork s).err = s.err := rfl
@[simp] theorem releaseWork_stage (s : State) : (releaseWork s).stage = s.stage := rfl
@[simp] theorem releaseWork_ilen (s : State) : (releaseWork s).ilen = s.ilen := rfl
@[simp] theorem releaseWork_olen (s : State) : (releaseWork s).olen = s.olen := rfl
@[simp] theorem releaseWork_phase (s : State) : (releaseWork s).phase = s.phase := rfl
@[simp] theorem releaseWork_ibuf (s : State) : (releaseWork s).ibuf = s.ibuf := rfl
@[simp] theorem releaseWork_obuf (s : State) : (releaseWork s).obuf = s.obuf := rfl
@[simp] theorem releaseWork_work (s : State) : (releaseWork s).work = Config.freeWork s.frees := rfl
@[simp] theorem releaseWork_params (s : State) : (releaseWork s).params = s.params := rfl
@[simp] theorem releaseWork_hostOps (s : State) : (releaseWork s).hostOps = s.hostOps := rfl
@[simp] theorem releaseWork_hostReads (s : State) : (releaseWork s).hostReads = s.hostReads := rfl
@[simp] theorem releaseWork_frees (s : State) : (releaseWork s).frees = s.frees + 1 := rfl
@[simp] theorem releaseWork_resets (s : State) : (releaseWork s).resets = s.resets := rfl

@[simp] theorem raise_status (e : ErrCode) (st : Stage) (s : State) : (raise e st s).status = .error := rfl
@[simp] theorem raise_err (e : ErrCode) (st : Stage) (s : State) : (raise e st s).err = e := rfl
@[simp] theorem raise_stage (e : ErrCode) (st : Stage) (s : State) : (raise e st s).stage = st := rfl
@[simp] theorem raise_ilen (e : ErrCode) (st : Stage) (s : State) : (raise e st s).ilen = s.ilen := rfl
@[simp] theorem raise_olen (e : ErrCode) (st : Stage) (s : State) : (raise e st s).olen = 0#64 := rfl
@[simp] theorem raise_phase (e : ErrCode) (st : Stage) (s : State) : (raise e st s).phase = codeIdle := rfl
@[simp] theorem raise_ibuf (e : ErrCode) (st : Stage) (s : State) : (raise e st s).ibuf = s.ibuf := rfl
@[simp] theorem raise_obuf (e : ErrCode) (st : Stage) (s : State) : (raise e st s).obuf = [] := rfl
@[simp] theorem raise_work (e : ErrCode) (st : Stage) (s : State) : (raise e st s).work = Config.freeWork s.frees := rfl
@[simp] theorem raise_params (e : ErrCode) (st : Stage) (s : State) : (raise e st s).params = s.params := rfl
@[simp] theorem raise_hostOps (e : ErrCode) (st : Stage) (s : State) : (raise e st s).hostOps = s.hostOps := rfl
@[simp] theorem raise_hostReads (e : ErrCode) (st : Stage) (s : State) : (raise e st s).hostReads = s.hostReads := rfl
@[simp] theorem raise_frees (e : ErrCode) (st : Stage) (s : State) : (raise e st s).frees = s.frees + 1 := rfl
@[simp] theorem raise_resets (e : ErrCode) (st : Stage) (s : State) : (raise e st s).resets = s.resets := rfl

@[simp] theorem acceptClear_status (s : State) : (acceptClear s).status = s.status := rfl
@[simp] theorem acceptClear_err (s : State) : (acceptClear s).err = .noError := rfl
@[simp] theorem acceptClear_stage (s : State) : (acceptClear s).stage = .noStage := rfl
@[simp] theorem acceptClear_ilen (s : State) : (acceptClear s).ilen = s.ilen := rfl
@[simp] theorem acceptClear_olen (s : State) : (acceptClear s).olen = 0#64 := rfl
@[simp] theorem acceptClear_phase (s : State) : (acceptClear s).phase = s.phase := rfl
@[simp] theorem acceptClear_ibuf (s : State) : (acceptClear s).ibuf = s.ibuf := rfl
@[simp] theorem acceptClear_obuf (s : State) : (acceptClear s).obuf = [] := rfl
@[simp] theorem acceptClear_work (s : State) : (acceptClear s).work = clearWork s.work := rfl
@[simp] theorem acceptClear_params (s : State) : (acceptClear s).params = s.params := rfl
@[simp] theorem acceptClear_hostOps (s : State) : (acceptClear s).hostOps = s.hostOps := rfl
@[simp] theorem acceptClear_hostReads (s : State) : (acceptClear s).hostReads = s.hostReads := rfl
@[simp] theorem acceptClear_frees (s : State) : (acceptClear s).frees = s.frees := rfl
@[simp] theorem acceptClear_resets (s : State) : (acceptClear s).resets = s.resets := rfl

@[simp] theorem accept_status (c : BitVec 4) (s : State) : (accept c s).status = .busy := rfl
@[simp] theorem accept_err (c : BitVec 4) (s : State) : (accept c s).err = .noError := rfl
@[simp] theorem accept_stage (c : BitVec 4) (s : State) : (accept c s).stage = .noStage := rfl
@[simp] theorem accept_ilen (c : BitVec 4) (s : State) : (accept c s).ilen = s.ilen := rfl
@[simp] theorem accept_olen (c : BitVec 4) (s : State) : (accept c s).olen = 0#64 := rfl
@[simp] theorem accept_phase (c : BitVec 4) (s : State) : (accept c s).phase = c := rfl
@[simp] theorem accept_ibuf (c : BitVec 4) (s : State) : (accept c s).ibuf = s.ibuf := rfl
@[simp] theorem accept_obuf (c : BitVec 4) (s : State) : (accept c s).obuf = [] := rfl
@[simp] theorem accept_work (c : BitVec 4) (s : State) : (accept c s).work = clearWork s.work := rfl
@[simp] theorem accept_params (c : BitVec 4) (s : State) : (accept c s).params = s.params := rfl
@[simp] theorem accept_hostOps (c : BitVec 4) (s : State) : (accept c s).hostOps = s.hostOps := rfl
@[simp] theorem accept_hostReads (c : BitVec 4) (s : State) : (accept c s).hostReads = s.hostReads := rfl
@[simp] theorem accept_frees (c : BitVec 4) (s : State) : (accept c s).frees = s.frees := rfl
@[simp] theorem accept_resets (c : BitVec 4) (s : State) : (accept c s).resets = s.resets := rfl

@[simp] theorem finish_status (A : List Byte) (s : State) : (finish A s).status = .done := rfl
@[simp] theorem finish_err (A : List Byte) (s : State) : (finish A s).err = s.err := rfl
@[simp] theorem finish_stage (A : List Byte) (s : State) : (finish A s).stage = s.stage := rfl
@[simp] theorem finish_ilen (A : List Byte) (s : State) : (finish A s).ilen = s.ilen := rfl
@[simp] theorem finish_olen (A : List Byte) (s : State) : (finish A s).olen = BitVec.ofNat 64 A.length := rfl
@[simp] theorem finish_phase (A : List Byte) (s : State) : (finish A s).phase = codeIdle := rfl
@[simp] theorem finish_ibuf (A : List Byte) (s : State) : (finish A s).ibuf = s.ibuf := rfl
@[simp] theorem finish_obuf (A : List Byte) (s : State) : (finish A s).obuf = memStore s.obuf 0 A := rfl
@[simp] theorem finish_work (A : List Byte) (s : State) : (finish A s).work = Config.freeWork s.frees := rfl
@[simp] theorem finish_params (A : List Byte) (s : State) : (finish A s).params = s.params := rfl
@[simp] theorem finish_hostOps (A : List Byte) (s : State) : (finish A s).hostOps = s.hostOps := rfl
@[simp] theorem finish_hostReads (A : List Byte) (s : State) : (finish A s).hostReads = s.hostReads := rfl
@[simp] theorem finish_frees (A : List Byte) (s : State) : (finish A s).frees = s.frees + 1 := rfl
@[simp] theorem finish_resets (A : List Byte) (s : State) : (finish A s).resets = s.resets := rfl

@[simp] theorem goto_status (c : BitVec 4) (w : Work) (s : State) : (goto c w s).status = s.status := rfl
@[simp] theorem goto_err (c : BitVec 4) (w : Work) (s : State) : (goto c w s).err = s.err := rfl
@[simp] theorem goto_stage (c : BitVec 4) (w : Work) (s : State) : (goto c w s).stage = s.stage := rfl
@[simp] theorem goto_ilen (c : BitVec 4) (w : Work) (s : State) : (goto c w s).ilen = s.ilen := rfl
@[simp] theorem goto_olen (c : BitVec 4) (w : Work) (s : State) : (goto c w s).olen = s.olen := rfl
@[simp] theorem goto_phase (c : BitVec 4) (w : Work) (s : State) : (goto c w s).phase = c := rfl
@[simp] theorem goto_ibuf (c : BitVec 4) (w : Work) (s : State) : (goto c w s).ibuf = s.ibuf := rfl
@[simp] theorem goto_obuf (c : BitVec 4) (w : Work) (s : State) : (goto c w s).obuf = s.obuf := rfl
@[simp] theorem goto_work (c : BitVec 4) (w : Work) (s : State) : (goto c w s).work = w := rfl
@[simp] theorem goto_params (c : BitVec 4) (w : Work) (s : State) : (goto c w s).params = s.params := rfl
@[simp] theorem goto_hostOps (c : BitVec 4) (w : Work) (s : State) : (goto c w s).hostOps = s.hostOps := rfl
@[simp] theorem goto_hostReads (c : BitVec 4) (w : Work) (s : State) : (goto c w s).hostReads = s.hostReads := rfl
@[simp] theorem goto_frees (c : BitVec 4) (w : Work) (s : State) : (goto c w s).frees = s.frees := rfl
@[simp] theorem goto_resets (c : BitVec 4) (w : Work) (s : State) : (goto c w s).resets = s.resets := rfl

@[simp] theorem returnRead_status (v : BitVec 64) (s : State) : (returnRead v s).status = s.status := rfl
@[simp] theorem returnRead_err (v : BitVec 64) (s : State) : (returnRead v s).err = s.err := rfl
@[simp] theorem returnRead_stage (v : BitVec 64) (s : State) : (returnRead v s).stage = s.stage := rfl
@[simp] theorem returnRead_ilen (v : BitVec 64) (s : State) : (returnRead v s).ilen = s.ilen := rfl
@[simp] theorem returnRead_olen (v : BitVec 64) (s : State) : (returnRead v s).olen = s.olen := rfl
@[simp] theorem returnRead_phase (v : BitVec 64) (s : State) : (returnRead v s).phase = s.phase := rfl
@[simp] theorem returnRead_ibuf (v : BitVec 64) (s : State) : (returnRead v s).ibuf = s.ibuf := rfl
@[simp] theorem returnRead_obuf (v : BitVec 64) (s : State) : (returnRead v s).obuf = s.obuf := rfl
@[simp] theorem returnRead_work (v : BitVec 64) (s : State) : (returnRead v s).work = s.work := rfl
@[simp] theorem returnRead_params (v : BitVec 64) (s : State) : (returnRead v s).params = s.params := rfl
@[simp] theorem returnRead_hostOps (v : BitVec 64) (s : State) : (returnRead v s).hostOps = s.hostOps := rfl
@[simp] theorem returnRead_hostReads (v : BitVec 64) (s : State) : (returnRead v s).hostReads = v :: s.hostReads := rfl
@[simp] theorem returnRead_frees (v : BitVec 64) (s : State) : (returnRead v s).frees = s.frees := rfl
@[simp] theorem returnRead_resets (v : BitVec 64) (s : State) : (returnRead v s).resets = s.resets := rfl

@[simp] theorem resetEvent_status (s : State) : (resetEvent s).status = .idle := rfl
@[simp] theorem resetEvent_err (s : State) : (resetEvent s).err = .noError := rfl
@[simp] theorem resetEvent_stage (s : State) : (resetEvent s).stage = .noStage := rfl
@[simp] theorem resetEvent_ilen (s : State) : (resetEvent s).ilen = 0#32 := rfl
@[simp] theorem resetEvent_olen (s : State) : (resetEvent s).olen = 0#64 := rfl
@[simp] theorem resetEvent_phase (s : State) : (resetEvent s).phase = codeIdle := rfl
@[simp] theorem resetEvent_ibuf (s : State) : (resetEvent s).ibuf = [] := rfl
@[simp] theorem resetEvent_obuf (s : State) : (resetEvent s).obuf = [] := rfl
@[simp] theorem resetEvent_work (s : State) : (resetEvent s).work = Config.freeWork s.frees := rfl
@[simp] theorem resetEvent_params (s : State) : (resetEvent s).params = s.params := rfl
@[simp] theorem resetEvent_hostOps (s : State) : (resetEvent s).hostOps = s.hostOps := rfl
@[simp] theorem resetEvent_hostReads (s : State) : (resetEvent s).hostReads = s.hostReads := rfl
@[simp] theorem resetEvent_frees (s : State) : (resetEvent s).frees = s.frees + 1 := rfl
@[simp] theorem resetEvent_resets (s : State) : (resetEvent s).resets = s.resets + 1 := rfl

@[simp] theorem returnFree_status (n : Nat) (s : State) : (returnFree n s).status = s.status := rfl
@[simp] theorem returnFree_err (n : Nat) (s : State) : (returnFree n s).err = s.err := rfl
@[simp] theorem returnFree_stage (n : Nat) (s : State) : (returnFree n s).stage = s.stage := rfl
@[simp] theorem returnFree_ilen (n : Nat) (s : State) : (returnFree n s).ilen = s.ilen := rfl
@[simp] theorem returnFree_olen (n : Nat) (s : State) : (returnFree n s).olen = s.olen := rfl
@[simp] theorem returnFree_phase (n : Nat) (s : State) : (returnFree n s).phase = s.phase := rfl
@[simp] theorem returnFree_ibuf (n : Nat) (s : State) : (returnFree n s).ibuf = s.ibuf := rfl
@[simp] theorem returnFree_obuf (n : Nat) (s : State) : (returnFree n s).obuf = s.obuf := rfl
@[simp] theorem returnFree_work (n : Nat) (s : State) : (returnFree n s).work = s.work := rfl
@[simp] theorem returnFree_params (n : Nat) (s : State) : (returnFree n s).params = s.params := rfl
@[simp] theorem returnFree_hostOps (n : Nat) (s : State) : (returnFree n s).hostOps = s.hostOps := rfl
@[simp] theorem returnFree_hostReads (n : Nat) (s : State) :
    (returnFree n s).hostReads = ((Config.freeRead s.frees).setWidth n).setWidth 64 :: s.hostReads := rfl
@[simp] theorem returnFree_frees (n : Nat) (s : State) : (returnFree n s).frees = s.frees + 1 := rfl
@[simp] theorem returnFree_resets (n : Nat) (s : State) : (returnFree n s).resets = s.resets := rfl

@[simp] theorem reset_status : State.reset.status = .idle := rfl
@[simp] theorem reset_err : State.reset.err = .noError := rfl
@[simp] theorem reset_stage : State.reset.stage = .noStage := rfl
@[simp] theorem reset_ilen : State.reset.ilen = 0#32 := rfl
@[simp] theorem reset_olen : State.reset.olen = 0#64 := rfl
@[simp] theorem reset_ibuf : State.reset.ibuf = [] := rfl
@[simp] theorem reset_obuf : State.reset.obuf = [] := rfl
@[simp] theorem reset_work : State.reset.work = Work.zero := rfl
@[simp] theorem reset_params : State.reset.params = Params.unbounded := rfl
@[simp] theorem reset_hostReads : State.reset.hostReads = [] := rfl
@[simp] theorem reset_frees : State.reset.frees = 0 := rfl
@[simp] theorem reset_resets : State.reset.resets = 0 := rfl
@[simp] theorem reset_phase : State.reset.phase = codeIdle := rfl
@[simp] theorem reset_hostOps : State.reset.hostOps = [] := rfl

@[simp] theorem clearWork_freq (w : Work) : (clearWork w).freq = Vector.replicate 256 0#32 := rfl
@[simp] theorem clearWork_nsym (w : Work) : (clearWork w).nsym = 0#9 := rfl
@[simp] theorem clearWork_node (w : Work) : (clearWork w).node = w.node := rfl
@[simp] theorem clearWork_nnodes (w : Work) : (clearWork w).nnodes = 0#10 := rfl
@[simp] theorem clearWork_pq (w : Work) : (clearWork w).pq = [] := rfl
@[simp] theorem clearWork_root (w : Work) : (clearWork w).root = nil9 := rfl
@[simp] theorem clearWork_trivial (w : Work) : (clearWork w).trivial = false := rfl
@[simp] theorem clearWork_code (w : Work) : (clearWork w).code = w.code.map (fun e => { e with present := false }) := rfl
@[simp] theorem clearWork_acc (w : Work) : (clearWork w).acc = 0#8 := rfl
@[simp] theorem clearWork_nacc (w : Work) : (clearWork w).nacc = 0#3 := rfl
@[simp] theorem clearWork_tbits (w : Work) : (clearWork w).tbits = 0#64 := rfl
@[simp] theorem clearWork_valid (w : Work) : (clearWork w).valid = 0#4 := rfl
@[simp] theorem clearWork_pbuf (w : Work) : (clearWork w).pbuf = [] := rfl
@[simp] theorem clearWork_ppos (w : Work) : (clearWork w).ppos = 0#33 := rfl
@[simp] theorem clearWork_ubits (w : Work) : (clearWork w).ubits = [] := rfl
@[simp] theorem clearWork_cand (w : Work) : (clearWork w).cand = [] := rfl
@[simp] theorem clearWork_dbuf (w : Work) : (clearWork w).dbuf = [] := rfl

@[simp] theorem bpReset_freq (w : Work) : (bpReset w).freq = w.freq := rfl
@[simp] theorem bpReset_nsym (w : Work) : (bpReset w).nsym = w.nsym := rfl
@[simp] theorem bpReset_node (w : Work) : (bpReset w).node = w.node := rfl
@[simp] theorem bpReset_nnodes (w : Work) : (bpReset w).nnodes = w.nnodes := rfl
@[simp] theorem bpReset_pq (w : Work) : (bpReset w).pq = w.pq := rfl
@[simp] theorem bpReset_root (w : Work) : (bpReset w).root = w.root := rfl
@[simp] theorem bpReset_trivial (w : Work) : (bpReset w).trivial = w.trivial := rfl
@[simp] theorem bpReset_code (w : Work) : (bpReset w).code = w.code := rfl
@[simp] theorem bpReset_acc (w : Work) : (bpReset w).acc = 0#8 := rfl
@[simp] theorem bpReset_nacc (w : Work) : (bpReset w).nacc = 0#3 := rfl
@[simp] theorem bpReset_tbits (w : Work) : (bpReset w).tbits = 0#64 := rfl
@[simp] theorem bpReset_valid (w : Work) : (bpReset w).valid = 0#4 := rfl
@[simp] theorem bpReset_pbuf (w : Work) : (bpReset w).pbuf = [] := rfl
@[simp] theorem bpReset_ppos (w : Work) : (bpReset w).ppos = w.ppos := rfl
@[simp] theorem bpReset_ubits (w : Work) : (bpReset w).ubits = w.ubits := rfl
@[simp] theorem bpReset_cand (w : Work) : (bpReset w).cand = w.cand := rfl
@[simp] theorem bpReset_dbuf (w : Work) : (bpReset w).dbuf = w.dbuf := rfl

/-! BP_PUSH and BP_FLUSH leave everything but the packer's own registers alone (R157, R158). -/

@[simp] theorem bpPush_freq (w : Work) (b : Bool) : (bpPush w b).freq = w.freq := by
  unfold bpPush; dsimp only; split <;> rfl
@[simp] theorem bpPush_nsym (w : Work) (b : Bool) : (bpPush w b).nsym = w.nsym := by
  unfold bpPush; dsimp only; split <;> rfl
@[simp] theorem bpPush_node (w : Work) (b : Bool) : (bpPush w b).node = w.node := by
  unfold bpPush; dsimp only; split <;> rfl
@[simp] theorem bpPush_nnodes (w : Work) (b : Bool) : (bpPush w b).nnodes = w.nnodes := by
  unfold bpPush; dsimp only; split <;> rfl
@[simp] theorem bpPush_pq (w : Work) (b : Bool) : (bpPush w b).pq = w.pq := by
  unfold bpPush; dsimp only; split <;> rfl
@[simp] theorem bpPush_root (w : Work) (b : Bool) : (bpPush w b).root = w.root := by
  unfold bpPush; dsimp only; split <;> rfl
@[simp] theorem bpPush_trivial (w : Work) (b : Bool) : (bpPush w b).trivial = w.trivial := by
  unfold bpPush; dsimp only; split <;> rfl
@[simp] theorem bpPush_code (w : Work) (b : Bool) : (bpPush w b).code = w.code := by
  unfold bpPush; dsimp only; split <;> rfl
@[simp] theorem bpPush_ppos (w : Work) (b : Bool) : (bpPush w b).ppos = w.ppos := by
  unfold bpPush; dsimp only; split <;> rfl
@[simp] theorem bpPush_ubits (w : Work) (b : Bool) : (bpPush w b).ubits = w.ubits := by
  unfold bpPush; dsimp only; split <;> rfl
@[simp] theorem bpPush_cand (w : Work) (b : Bool) : (bpPush w b).cand = w.cand := by
  unfold bpPush; dsimp only; split <;> rfl
@[simp] theorem bpPush_dbuf (w : Work) (b : Bool) : (bpPush w b).dbuf = w.dbuf := by
  unfold bpPush; dsimp only; split <;> rfl
@[simp] theorem bpPush_valid (w : Work) (b : Bool) : (bpPush w b).valid = w.valid := by
  unfold bpPush; dsimp only; split <;> rfl
@[simp] theorem bpPush_tbits (w : Work) (b : Bool) : (bpPush w b).tbits = w.tbits + 1#64 := by
  unfold bpPush; dsimp only; split <;> rfl
@[simp] theorem bpFlush_freq (w : Work) : (bpFlush w).freq = w.freq := by
  unfold bpFlush; dsimp only; split <;> rfl
@[simp] theorem bpFlush_nsym (w : Work) : (bpFlush w).nsym = w.nsym := by
  unfold bpFlush; dsimp only; split <;> rfl
@[simp] theorem bpFlush_node (w : Work) : (bpFlush w).node = w.node := by
  unfold bpFlush; dsimp only; split <;> rfl
@[simp] theorem bpFlush_nnodes (w : Work) : (bpFlush w).nnodes = w.nnodes := by
  unfold bpFlush; dsimp only; split <;> rfl
@[simp] theorem bpFlush_pq (w : Work) : (bpFlush w).pq = w.pq := by
  unfold bpFlush; dsimp only; split <;> rfl
@[simp] theorem bpFlush_root (w : Work) : (bpFlush w).root = w.root := by
  unfold bpFlush; dsimp only; split <;> rfl
@[simp] theorem bpFlush_trivial (w : Work) : (bpFlush w).trivial = w.trivial := by
  unfold bpFlush; dsimp only; split <;> rfl
@[simp] theorem bpFlush_code (w : Work) : (bpFlush w).code = w.code := by
  unfold bpFlush; dsimp only; split <;> rfl
@[simp] theorem bpFlush_ppos (w : Work) : (bpFlush w).ppos = w.ppos := by
  unfold bpFlush; dsimp only; split <;> rfl
@[simp] theorem bpFlush_ubits (w : Work) : (bpFlush w).ubits = w.ubits := by
  unfold bpFlush; dsimp only; split <;> rfl
@[simp] theorem bpFlush_cand (w : Work) : (bpFlush w).cand = w.cand := by
  unfold bpFlush; dsimp only; split <;> rfl
@[simp] theorem bpFlush_dbuf (w : Work) : (bpFlush w).dbuf = w.dbuf := by
  unfold bpFlush; dsimp only; split <;> rfl
@[simp] theorem bpFlush_tbits (w : Work) : (bpFlush w).tbits = w.tbits := by
  unfold bpFlush; dsimp only; split <;> rfl
@[simp] theorem bpPushAll_freq (w : Work) (β : Bits) : (bpPushAll w β).freq = w.freq := by
  unfold bpPushAll; induction β generalizing w with
  | nil => rfl
  | cons b β ih => simp [ih]
@[simp] theorem bpPushAll_nsym (w : Work) (β : Bits) : (bpPushAll w β).nsym = w.nsym := by
  unfold bpPushAll; induction β generalizing w with
  | nil => rfl
  | cons b β ih => simp [ih]
@[simp] theorem bpPushAll_node (w : Work) (β : Bits) : (bpPushAll w β).node = w.node := by
  unfold bpPushAll; induction β generalizing w with
  | nil => rfl
  | cons b β ih => simp [ih]
@[simp] theorem bpPushAll_nnodes (w : Work) (β : Bits) : (bpPushAll w β).nnodes = w.nnodes := by
  unfold bpPushAll; induction β generalizing w with
  | nil => rfl
  | cons b β ih => simp [ih]
@[simp] theorem bpPushAll_pq (w : Work) (β : Bits) : (bpPushAll w β).pq = w.pq := by
  unfold bpPushAll; induction β generalizing w with
  | nil => rfl
  | cons b β ih => simp [ih]
@[simp] theorem bpPushAll_root (w : Work) (β : Bits) : (bpPushAll w β).root = w.root := by
  unfold bpPushAll; induction β generalizing w with
  | nil => rfl
  | cons b β ih => simp [ih]
@[simp] theorem bpPushAll_trivial (w : Work) (β : Bits) : (bpPushAll w β).trivial = w.trivial := by
  unfold bpPushAll; induction β generalizing w with
  | nil => rfl
  | cons b β ih => simp [ih]
@[simp] theorem bpPushAll_code (w : Work) (β : Bits) : (bpPushAll w β).code = w.code := by
  unfold bpPushAll; induction β generalizing w with
  | nil => rfl
  | cons b β ih => simp [ih]
@[simp] theorem bpPushAll_ppos (w : Work) (β : Bits) : (bpPushAll w β).ppos = w.ppos := by
  unfold bpPushAll; induction β generalizing w with
  | nil => rfl
  | cons b β ih => simp [ih]
@[simp] theorem bpPushAll_ubits (w : Work) (β : Bits) : (bpPushAll w β).ubits = w.ubits := by
  unfold bpPushAll; induction β generalizing w with
  | nil => rfl
  | cons b β ih => simp [ih]
@[simp] theorem bpPushAll_cand (w : Work) (β : Bits) : (bpPushAll w β).cand = w.cand := by
  unfold bpPushAll; induction β generalizing w with
  | nil => rfl
  | cons b β ih => simp [ih]
@[simp] theorem bpPushAll_dbuf (w : Work) (β : Bits) : (bpPushAll w β).dbuf = w.dbuf := by
  unfold bpPushAll; induction β generalizing w with
  | nil => rfl
  | cons b β ih => simp [ih]

@[simp] theorem drawHostValue_status (r : HostReg) (v : BitVec 64) (s : State) : (drawHostValue r v s).status = s.status := by
  unfold drawHostValue; split <;> rfl
@[simp] theorem drawHostValue_err (r : HostReg) (v : BitVec 64) (s : State) : (drawHostValue r v s).err = s.err := by
  unfold drawHostValue; split <;> rfl
@[simp] theorem drawHostValue_stage (r : HostReg) (v : BitVec 64) (s : State) : (drawHostValue r v s).stage = s.stage := by
  unfold drawHostValue; split <;> rfl
@[simp] theorem drawHostValue_ilen (r : HostReg) (v : BitVec 64) (s : State) : (drawHostValue r v s).ilen = s.ilen := by
  unfold drawHostValue; split <;> rfl
@[simp] theorem drawHostValue_olen (r : HostReg) (v : BitVec 64) (s : State) : (drawHostValue r v s).olen = s.olen := by
  unfold drawHostValue; split <;> rfl
@[simp] theorem drawHostValue_phase (r : HostReg) (v : BitVec 64) (s : State) : (drawHostValue r v s).phase = s.phase := by
  unfold drawHostValue; split <;> rfl
@[simp] theorem drawHostValue_ibuf (r : HostReg) (v : BitVec 64) (s : State) : (drawHostValue r v s).ibuf = s.ibuf := by
  unfold drawHostValue; split <;> rfl
@[simp] theorem drawHostValue_obuf (r : HostReg) (v : BitVec 64) (s : State) : (drawHostValue r v s).obuf = s.obuf := by
  unfold drawHostValue; split <;> rfl
@[simp] theorem drawHostValue_work (r : HostReg) (v : BitVec 64) (s : State) : (drawHostValue r v s).work = s.work := by
  unfold drawHostValue; split <;> rfl
@[simp] theorem drawHostValue_params (r : HostReg) (v : BitVec 64) (s : State) : (drawHostValue r v s).params = s.params := by
  unfold drawHostValue; split <;> rfl
@[simp] theorem drawHostValue_hostOps (r : HostReg) (v : BitVec 64) (s : State) : (drawHostValue r v s).hostOps = s.hostOps := by
  unfold drawHostValue; split <;> rfl
@[simp] theorem drawHostValue_hostReads (r : HostReg) (v : BitVec 64) (s : State) : (drawHostValue r v s).hostReads = s.hostReads := by
  unfold drawHostValue; split <;> rfl
@[simp] theorem drawHostValue_resets (r : HostReg) (v : BitVec 64) (s : State) : (drawHostValue r v s).resets = s.resets := by
  unfold drawHostValue; split <;> rfl
@[simp] theorem drawHostValue_frees (r : HostReg) (v : BitVec 64) (s : State) :
    (drawHostValue r v s).frees = if r.takes v then s.frees else s.frees + 1 := by unfold drawHostValue; split <;> rfl

end Sys2Proof.Machine
end

