-- ==== Sys2Proof/Laws/Ops.lean ====
section
/-! SUPPORT. One lemma per shared operation: everything it can answer. -/

namespace Sys2Proof.Machine

@[simp] theorem isBusy_iff (s : State) : isBusy s = true ↔ s.status = .busy := by simp [isBusy]

theorem isBusy_eq_false_iff (s : State) : isBusy s = false ↔ s.status ≠ .busy := by simp [isBusy]

/-- A command that is issued leaves the state alone (BUSY), or is accepted with its input inside IBUF. -/
theorem issue_next {a s t : State} (h : issue a s = .next t) :
    (s.status = .busy ∧ t = s) ∨ (s.status ≠ .busy ∧ ilenFits s = true ∧ t = a) := by
  unfold issue at h
  split at h
  · rename_i hb; exact .inl ⟨by simpa using hb, by injection h with h; exact h.symm⟩
  · rename_i hb
    split at h
    · rename_i hf; exact .inr ⟨by simpa using hb, hf, by injection h with h; exact h.symm⟩
    · exact absurd h (by simp)

/-- No command ends in a fault. -/
theorem issue_ne_fault (a s : State) (r : Fault) : issue a s ≠ .fault r := by
  unfold issue; split
  · simp
  · split <;> simp

/-- What an EMIT phase does with its output: all of it, or OutputUnwritable. -/
theorem emitOutput_cases (A : List Byte) (s : State) :
    (fitsCap A.length s.params.obufCap = true ∧ emitOutput A s = finish A s) ∨
    (fitsCap A.length s.params.obufCap = false ∧ emitOutput A s = raise .outputUnwritable .noStage s) := by
  unfold emitOutput
  cases h : fitsCap A.length s.params.obufCap <;> simp

/-- With host operations pending the first of them goes, and with none the sequencer. -/
theorem step_nil {s : State} (h : s.hostOps = []) : step s = sequencerStep s := by unfold step; rw [h]

theorem step_cons {s : State} {e : HostEvent} {rest : List HostEvent} (h : s.hostOps = e :: rest) :
    step s = hostStep e { s with hostOps := rest } := by unfold step; rw [h]

theorem isStuck_eq_false_iff (s : State) : isStuck s = false ↔ (decodePhase s.phase).isSome = true := by
  unfold isStuck
  cases decodePhase s.phase <;> simp

/-- The host's pending operations play no part in whether the block is stuck. -/
@[simp] theorem isStuck_hostOps (s : State) (ops : List HostEvent) : isStuck { s with hostOps := ops } = isStuck s := rfl

theorem sequencerStep_stuck {s : State} (h : isStuck s = true) : sequencerStep s = .fault .reservedPhase := by
  unfold isStuck at h
  unfold sequencerStep
  cases e : decodePhase s.phase with
  | none => rfl
  | some i => rw [e] at h; exact absurd h (by simp)

/-- A block that is not stuck takes every host event. -/
theorem hostStep_live (e : HostEvent) {s : State} (h : isStuck s = false) : hostStep e s = hostAction e s := by
  unfold hostStep; rw [h]; rfl

/-- A stuck one takes the reset event only. -/
theorem hostStep_stuck {e : HostEvent} {s : State} (h : isStuck s = true) (he : e ≠ .reset) :
    hostStep e s = .fault .reservedPhase := by
  unfold hostStep; rw [h]; simp [he]

@[simp] theorem hostStep_reset (s : State) : hostStep .reset s = .next (resetEvent s) := by
  unfold hostStep; simp [hostAction]

/-- A step with a host operation pending, in a block that is not stuck. -/
theorem step_live {s : State} {e : HostEvent} {rest : List HostEvent} (h : s.hostOps = e :: rest) (hs : isStuck s = false) :
    step s = hostAction e { s with hostOps := rest } := by
  rw [step_cons h, hostStep_live e (by simpa using hs)]

/-- A step of a stuck block, whatever is pending but the reset event. -/
theorem step_stuck {s : State} (h : isStuck s = true) (hr : ∀ rest, s.hostOps ≠ .reset :: rest) :
    step s = .fault .reservedPhase := by
  cases e : s.hostOps with
  | nil => rw [step_nil e]; exact sequencerStep_stuck h
  | cons x rest =>
    rw [step_cons e]
    exact hostStep_stuck (by simpa using h) (fun hx => hr rest (by rw [e, hx]))

/-- A host access to a register by an address is one the register takes by its name, or is refused. -/
theorem readAddressed_cases (r : Option HostReg) (s : State) :
    (∃ q, r = some q ∧ readAddressed r s = .next (readRegister q s)) ∨ (r = none ∧ readAddressed r s = .refused .noSuchRegister) := by
  cases r with
  | none => exact .inr ⟨rfl, rfl⟩
  | some q => exact .inl ⟨q, rfl, rfl⟩

theorem writeAddressed_cases (r : Option HostReg) (v : BitVec 64) (s : State) :
    (∃ q, r = some q ∧ writeAddressed r v s = writeRegister q v s) ∨
    (r = none ∧ writeAddressed r v s = .refused .noSuchRegister) := by
  cases r with
  | none => exact .inr ⟨rfl, rfl⟩
  | some q => exact .inl ⟨q, rfl, rfl⟩

/-- A value of the register's width is the one it takes, and no free value is used up. -/
theorem hostValue_takes {r : HostReg} {v : BitVec 64} (h : r.takes v = true) (s : State) :
    hostValue r v s = v ∧ drawHostValue r v s = s := by simp [hostValue, drawHostValue, h]

/-- Taking the value of an addressed write touches nothing but the fresh-value counter. -/
theorem drawHostValue_eq (r : HostReg) (v : BitVec 64) (s : State) : ∃ k, drawHostValue r v s = { s with frees := k } := by
  unfold drawHostValue
  split
  · exact ⟨s.frees, rfl⟩
  · exact ⟨_, rfl⟩

/-- What an addressed write to a register can be: some command, some length, or nothing. -/
theorem writeRegister_cases (r : HostReg) (v : BitVec 64) (s : State) :
    (∃ c k, r = .cmd ∧ writeRegister r v s = writeCommand c { s with frees := k }) ∨
    (∃ n k, r = .ilen ∧ writeRegister r v s = writeLength n { s with frees := k }) ∨ writeRegister r v s = .next s := by
  cases r with
  | cmd =>
    obtain ⟨k, h⟩ := drawHostValue_eq .cmd v s
    exact .inl ⟨_, k, rfl, by rw [writeRegister, h]⟩
  | ilen =>
    obtain ⟨k, h⟩ := drawHostValue_eq .ilen v s
    exact .inr (.inl ⟨_, k, rfl, by rw [writeRegister, h]⟩)
  | status => exact .inr (.inr rfl)
  | err => exact .inr (.inr rfl)
  | stage => exact .inr (.inr rfl)
  | olen => exact .inr (.inr rfl)

/-- The next step after withFetchWord runs the word: a command as a write to CMD, a phase as the sequencer's step. -/
theorem step_withFetchWord (s : State) (nbits w : Nat) (h : isStuck s = false) :
    step (s.withFetchWord nbits w) =
      match tableWord nbits w with
      | .cmd v => writeCommand v s
      | .phase c => sequencerStep { s with phase := c } := by
  unfold State.withFetchWord
  cases tableWord nbits w with
  | cmd v => exact step_live (s := { s with hostOps := .writeCmd v :: s.hostOps }) rfl (by simpa using h)
  | phase c =>
    rw [step_cons (s := { s with phase := c, hostOps := .sequencer :: s.hostOps }) rfl]
    cases hc : isStuck { s with phase := c, hostOps := s.hostOps } with
    | false => exact hostStep_live _ hc
    | true => rw [hostStep_stuck hc (by simp)]; exact (sequencerStep_stuck hc).symm

end Sys2Proof.Machine
end

