-- ==== Sys2Proof/Laws/Exec.lean ====
section
/-! SUPPORT. One inversion lemma per meaning (everything it can answer), one for `exec`'s faults, and the equations of a run. -/

namespace Sys2Proof.Machine

/-! Decoding. -/

theorem decode_phase_ok (c : BitVec 4) (i : Instr) : decode (.phase c) = .ok i ↔ decodePhase c = some i := by
  unfold decode; cases h : decodePhase c <;> simp [h]

theorem decode_cmd_ok (v : BitVec 8) (i : Instr) : decode (.cmd v) = .ok i ↔ decodeCmd v = some i := by
  unfold decode; cases h : decodeCmd v <;> simp [h]

/-- A byte written to CMD selects nothing, ENCODE or DECODE. -/
theorem decodeCmd_cases : ∀ v : BitVec 8,
    decodeCmd v = none ∨ decodeCmd v = some .encode ∨ decodeCmd v = some .decode := by decide +kernel

/-! Runs. -/

@[simp] theorem run_zero (s : State) : run 0 s = .next s := rfl

/-! One step of `Host.Core.run`, for each outcome. -/

theorem core_run_next {M : Host.Core} {k : Nat} {s t : M.State} (h : M.step s = .next t) :
    M.run (k + 1) s = M.run k t := by
  rw [Host.Core.run, h]

theorem core_run_fault {M : Host.Core} {k : Nat} {s : M.State} {r : M.Fault} (h : M.step s = .fault r) :
    M.run (k + 1) s = .fault r := by
  rw [Host.Core.run, h]

theorem core_run_refused {M : Host.Core} {k : Nat} {s : M.State} {r : M.Refusal} (h : M.step s = .refused r) :
    M.run (k + 1) s = .refused r := by
  rw [Host.Core.run, h]

theorem run_succ (k : Nat) (s : State) :
    run (k + 1) s = match step s with
      | .next t => run k t
      | .fault r => .fault r
      | .refused r => .refused r := by
  cases h : step s with
  | next t => exact core_run_next (M := Sys2Proof.core) h
  | fault r => exact core_run_fault (M := Sys2Proof.core) h
  | refused r => exact core_run_refused (M := Sys2Proof.core) h

theorem run_succ_next {k : Nat} {s t : State} (h : step s = .next t) : run (k + 1) s = run k t := by
  rw [run_succ, h]

theorem run_add (m n : Nat) (s : State) :
    run (m + n) s = match run m s with
      | .next t => run n t
      | .fault r => .fault r
      | .refused r => .refused r := by
  induction m generalizing s with
  | zero => rw [Nat.zero_add]; rfl
  | succ m ih =>
    rw [Nat.succ_add, run_succ, run_succ]
    cases step s with
    | next t => exact ih t
    | fault r => rfl
    | refused r => rfl

/-! The meanings. -/

theorem execPECount_next {s t : State} (h : execPECount s = .next t) :
    ilenFits s = true ∧ t = goto (if s.ilen = 0#32 then codeEEmit else codeETbInit)
      { s.work with freq := countBytes s.work.freq (input s) } s := by
  unfold execPECount at h
  split at h
  · exact ⟨‹_›, by injection h with h; exact h.symm⟩
  · exact absurd h (by simp)

theorem execPETbInit_next {s t : State} (h : execPETbInit s = .next t) :
    t = raise .internalTreeFault .noStage s ∨
    t = goto codeEDerive { initTree s.work with trivial := true, root := 0#9 } s ∨
    ((initTree s.work).nsym ≠ 0#9 ∧ (initTree s.work).nsym ≠ 1#9 ∧ t = goto codeETbMerge (initTree s.work) s) := by
  unfold execPETbInit at h
  dsimp only at h
  split at h
  · injection h with h; exact .inl h.symm
  · split at h
    · injection h with h; exact .inr (.inl h.symm)
    · injection h with h; exact .inr (.inr ⟨‹_›, ‹_›, h.symm⟩)

theorem execPETbMerge_next {s t : State} (h : execPETbMerge s = .next t) :
    ∃ w last, mergeStep s.work = .ok (w, last) ∧ t = goto (if last then codeEDerive else codeETbMerge) w s := by
  unfold execPETbMerge at h
  split at h
  · exact absurd h (by simp)
  · rename_i w last e
    injection h with h
    exact ⟨w, last, e, h.symm⟩

theorem execPEDerive_next {s t : State} (h : execPEDerive s = .next t) :
    (deriveCodes s.work = none ∧ t = raise .internalTreeFault .noStage s) ∨
    ∃ c, deriveCodes s.work = some c ∧ t = goto codeEPack { s.work with code := c } s := by
  unfold execPEDerive at h
  split at h
  · injection h with h; exact .inl ⟨‹_›, h.symm⟩
  · rename_i c e; injection h with h; exact .inr ⟨c, e, h.symm⟩

theorem execPEPack_next {s t : State} (h : execPEPack s = .next t) :
    ilenFits s = true ∧
    ((packBytes (input s) (bpReset s.work) = none ∧ t = raise .internalTreeFault .noStage s) ∨
      ∃ w, packBytes (input s) (bpReset s.work) = some w ∧ t = goto codeEEmit (bpFlush w) s) := by
  unfold execPEPack at h
  split at h
  · refine ⟨‹_›, ?_⟩
    split at h
    · injection h with h; exact .inl ⟨‹_›, h.symm⟩
    · rename_i w e; injection h with h; exact .inr ⟨w, e, h.symm⟩
  · exact absurd h (by simp)

theorem execPEEmit_next {s t : State} (h : execPEEmit s = .next t) : t = emitOutput (artifact s.work) s := by
  injection h with h; exact h.symm

theorem execPDParse_next {s t : State} (h : execPDParse s = .next t) :
    ilenFits s = true ∧
    ((parseTable (input s) s.work.code = none ∧ t = raise .malformedArtifact .tableParse s) ∨
      ∃ n c p, parseTable (input s) s.work.code = some (n, c, p) ∧
        t = goto codeDUnpack { s.work with code := c, nsym := BitVec.ofNat 9 n, ppos := BitVec.ofNat 33 p } s) := by
  unfold execPDParse at h
  split at h
  · refine ⟨‹_›, ?_⟩
    split at h
    · injection h with h; exact .inl ⟨‹_›, h.symm⟩
    · rename_i n c p e; injection h with h; exact .inr ⟨n, c, p, e, h.symm⟩
  · exact absurd h (by simp)

/-- The working state P_D_UNPACK leaves for a total T and unpacked bits u. -/
theorem execPDUnpack_next {s t : State} (h : execPDUnpack s = .next t) :
    ilenFits s = true ∧
    ((parsePayload (input s) s.work.ppos.toNat = none ∧ t = raise .malformedArtifact .bitUnpack s) ∨
      ∃ T u c, parsePayload (input s) s.work.ppos.toNat = some (T, u) ∧ (c = codeDEmit ∨ c = codeDMatch) ∧
        t = goto c { s.work with tbits := BitVec.ofNat 64 T, valid := BitVec.ofNat 4 (validOf T), ubits := u,
                                 ppos := s.ilen.setWidth 33 } s) := by
  unfold execPDUnpack at h
  split at h
  · refine ⟨‹_›, ?_⟩
    split at h
    · injection h with h; exact .inl ⟨‹_›, h.symm⟩
    · rename_i T u e
      injection h with h
      refine .inr ⟨T, u, _, e, ?_, h.symm⟩
      split
      · exact .inl rfl
      · exact .inr rfl
  · exact absurd h (by simp)

theorem execPDMatch_next {s t : State} (h : execPDMatch s = .next t) :
    s.work.tbits.toNat ≤ s.work.ubits.length ∧
    ((∃ out, matchBits s.work.code (s.work.ubits.take s.work.tbits.toNat) [] [] = ([], out) ∧
        t = goto codeDEmit { s.work with cand := [], dbuf := out } s) ∨
      ∃ b cand out, matchBits s.work.code (s.work.ubits.take s.work.tbits.toNat) [] [] = (b :: cand, out) ∧
        t = raise .malformedArtifact .codeMatch s) := by
  unfold execPDMatch at h
  split at h
  · exact absurd h (by simp)
  · refine ⟨by omega, ?_⟩
    split at h
    · rename_i out e; injection h with h; exact .inl ⟨out, e, h.symm⟩
    · rename_i b cand out e; injection h with h; exact .inr ⟨b, cand, out, e, h.symm⟩

theorem execPDEmit_next {s t : State} (h : execPDEmit s = .next t) : t = emitOutput s.work.dbuf s := by
  injection h with h; exact h.symm

/-- The phases that rely on nothing in the working state. -/
theorem workInv_of (c : BitVec 4) (w : Work) (h1 : c ≠ codeECount) (h2 : c ≠ codeETbInit) (h3 : c ≠ codeETbMerge)
    (h4 : c ≠ codeDMatch) : WorkInv c w :=
  ⟨fun h => (h.elim h1 h2).elim, fun h => (h3 h).elim, fun h => (h4 h).elim⟩

/-! What every operation does to PHASE: a command that is accepted, a phase that goes on with some working state, the end of
the command, or nothing. -/

/-- Everything `exec` can answer, by the shared operation that makes the next state. -/
theorem exec_next_cases {i : Instr} {s t : State} (h : exec i s = .next t) :
    t = s ∨ (∃ c, s.status ≠ .busy ∧ ilenFits s = true ∧ t = accept c s ∧ (c = codeECount ∨ c = codeDParse)) ∨
    (∃ c w, t = goto c w s ∧ (decodePhase c).isSome = true ∧ c ≠ codeIdle) ∨
    (∃ e st, t = raise e st s ∧ e ≠ .noError ∧ e ≠ .inputUnavailable ∧ (st ≠ .noStage ↔ e = .malformedArtifact)) ∨
    (∃ A, t = finish A s ∧ fitsCap A.length s.params.obufCap = true) := by
  have emit (A : List Byte) (e : t = emitOutput A s) :
      (∃ e st, t = raise e st s ∧ e ≠ .noError ∧ e ≠ .inputUnavailable ∧ (st ≠ .noStage ↔ e = .malformedArtifact)) ∨
      (∃ A, t = finish A s ∧ fitsCap A.length s.params.obufCap = true) := by
    rcases emitOutput_cases A s with ⟨hf, he⟩ | ⟨_, he⟩
    · exact .inr ⟨A, e.trans he, hf⟩
    · exact .inl ⟨_, _, e.trans he, by simp⟩
  cases i <;> simp only [exec] at h
  case encode =>
    rcases issue_next h with ⟨_, rfl⟩ | ⟨hb, hf, rfl⟩
    · exact .inl rfl
    · exact .inr (.inl ⟨_, hb, hf, rfl, .inl rfl⟩)
  case decode =>
    rcases issue_next h with ⟨_, rfl⟩ | ⟨hb, hf, rfl⟩
    · exact .inl rfl
    · exact .inr (.inl ⟨_, hb, hf, rfl, .inr rfl⟩)
  case pIdle => injection h with h; exact .inl h.symm
  case pECount =>
    obtain ⟨-, rfl⟩ := execPECount_next h
    exact .inr (.inr (.inl ⟨_, _, rfl, by split <;> decide, by split <;> decide⟩))
  case pETbInit =>
    rcases execPETbInit_next h with rfl | rfl | ⟨_, _, rfl⟩
    · exact .inr (.inr (.inr (.inl ⟨_, _, rfl, by simp⟩)))
    · exact .inr (.inr (.inl ⟨_, _, rfl, by decide⟩))
    · exact .inr (.inr (.inl ⟨_, _, rfl, by decide⟩))
  case pETbMerge =>
    obtain ⟨w, last, -, rfl⟩ := execPETbMerge_next h
    exact .inr (.inr (.inl ⟨_, _, rfl, by cases last <;> decide, by cases last <;> decide⟩))
  case pEDerive =>
    rcases execPEDerive_next h with ⟨-, rfl⟩ | ⟨c, -, rfl⟩
    · exact .inr (.inr (.inr (.inl ⟨_, _, rfl, by simp⟩)))
    · exact .inr (.inr (.inl ⟨_, _, rfl, by decide⟩))
  case pEPack =>
    rcases execPEPack_next h with ⟨-, ⟨-, rfl⟩ | ⟨w, -, rfl⟩⟩
    · exact .inr (.inr (.inr (.inl ⟨_, _, rfl, by simp⟩)))
    · exact .inr (.inr (.inl ⟨_, _, rfl, by decide⟩))
  case pEEmit => exact .inr (.inr (.inr (emit _ (execPEEmit_next h))))
  case pDParse =>
    rcases execPDParse_next h with ⟨-, ⟨-, rfl⟩ | ⟨n, c, p, -, rfl⟩⟩
    · exact .inr (.inr (.inr (.inl ⟨_, _, rfl, by simp⟩)))
    · exact .inr (.inr (.inl ⟨_, _, rfl, by decide⟩))
  case pDUnpack =>
    rcases execPDUnpack_next h with ⟨-, ⟨-, rfl⟩ | ⟨T, u, c, -, rfl | rfl, rfl⟩⟩
    · exact .inr (.inr (.inr (.inl ⟨_, _, rfl, by simp⟩)))
    · exact .inr (.inr (.inl ⟨_, _, rfl, by decide⟩))
    · exact .inr (.inr (.inl ⟨_, _, rfl, by decide⟩))
  case pDMatch =>
    rcases execPDMatch_next h with ⟨-, ⟨out, -, rfl⟩ | ⟨b, cand, out, -, rfl⟩⟩
    · exact .inr (.inr (.inl ⟨_, _, rfl, by decide⟩))
    · exact .inr (.inr (.inr (.inl ⟨_, _, rfl, by simp⟩)))
  case pDEmit => exact .inr (.inr (.inr (emit _ (execPDEmit_next h))))

end Sys2Proof.Machine
end

