-- ==== Sys2Proof/Laws/Memory.lean ====
section
/-! SUPPORT. The laws of the byte memories: what a read gives after a write, and that every operation keeps the canonical form. -/

namespace Sys2Proof.Machine

@[simp] theorem memRead_nil (a : Nat) : memRead [] a = none := rfl

/-- A read after a write: the value written at its index, and every other index as before. -/
theorem memRead_memWrite (m : Mem) (a : Nat) (v : Byte) (b : Nat) :
    memRead (memWrite m a v) b = if b = a then some v else memRead m b := by
  induction m with
  | nil => simp [memWrite, memRead, eq_comm]
  | cons x m ih =>
    obtain ⟨k, w⟩ := x
    rcases lt_trichotomy a k with h | rfl | h
    · rw [memWrite, if_pos h]
      simp only [memRead]
      by_cases hb : b = a
      · subst hb; simp
      · simp [hb, Ne.symm hb]
    · rw [memWrite, if_neg (lt_irrefl _), if_pos rfl]
      simp only [memRead]
      by_cases hb : b = a
      · subst hb; simp
      · simp [hb, Ne.symm hb]
    · rw [memWrite, if_neg (by omega), if_neg (by omega)]
      simp only [memRead, ih]
      by_cases hb : b = a
      · subst hb; simp [show ¬ k = b by omega]
      · simp [hb]

/-- A read after a store of a byte sequence: the byte of the sequence at an index it covers, else as before. -/
theorem memRead_memStore (m : Mem) (a : Nat) (vs : List Byte) (b : Nat) :
    memRead (memStore m a vs) b =
      if h : a ≤ b ∧ b < a + vs.length then some (vs[b - a]'(by omega)) else memRead m b := by
  induction vs generalizing m a with
  | nil => simp only [memStore, List.length_nil]; rw [dif_neg (by omega)]
  | cons v vs ih =>
    rw [memStore, ih, memRead_memWrite]
    by_cases hb : b = a
    · subst hb
      rw [dif_neg (by omega), dif_pos (by simp)]; simp
    · by_cases h : a + 1 ≤ b ∧ b < a + 1 + vs.length
      · rw [dif_pos h, dif_pos (by simp; omega)]
        rw [List.getElem_cons, dif_neg (by omega)]
        congr 1
      · rw [dif_neg h, if_neg hb, dif_neg (by simp; omega)]

/-- Every listed index of a memory is at least n. -/
theorem memWf_cons_iff (a : Nat) (v : Byte) (m : Mem) :
    memWf ((a, v) :: m) = true ↔ (∀ x ∈ m, a < x.1) ∧ memWf m = true := by
  induction m generalizing a v with
  | nil => simp [memWf]
  | cons x m ih =>
    obtain ⟨k, w⟩ := x
    rw [memWf, Bool.and_eq_true, decide_eq_true_iff, ih]
    constructor
    · rintro ⟨h, h1, h2⟩
      refine ⟨?_, h1, h2⟩
      intro y hy
      rcases List.mem_cons.1 hy with rfl | hy
      · exact h
      · exact lt_trans h (h1 y hy)
    · rintro ⟨h, h2⟩
      exact ⟨h _ List.mem_cons_self, h2⟩

/-- The cells of a memory after a write are the new one and cells it had. -/
theorem mem_memWrite (m : Mem) (a : Nat) (v : Byte) (x : Host.Cell) (h : x ∈ memWrite m a v) : x = (a, v) ∨ x ∈ m := by
  induction m with
  | nil => simpa [memWrite] using h
  | cons y m ih =>
    obtain ⟨k, w⟩ := y
    simp only [memWrite] at h
    split at h
    · simpa using h
    · split at h
      · rcases List.mem_cons.1 h with rfl | h
        · exact .inl rfl
        · exact .inr (List.mem_cons_of_mem _ h)
      · rcases List.mem_cons.1 h with rfl | h
        · exact .inr List.mem_cons_self
        · rcases ih h with h | h
          · exact .inl h
          · exact .inr (List.mem_cons_of_mem _ h)

/-- A write keeps the canonical form. -/
theorem memWf_memWrite (m : Mem) (a : Nat) (v : Byte) (h : memWf m = true) : memWf (memWrite m a v) = true := by
  induction m with
  | nil => rfl
  | cons y m ih =>
    obtain ⟨k, w⟩ := y
    obtain ⟨h1, h2⟩ := (memWf_cons_iff _ _ _).1 h
    simp only [memWrite]
    split
    · rename_i hlt
      exact (memWf_cons_iff _ _ _).2 ⟨fun x hx => by
        rcases List.mem_cons.1 hx with rfl | hx
        · exact hlt
        · exact lt_trans hlt (h1 x hx), h⟩
    · split
      · subst_vars; exact (memWf_cons_iff _ _ _).2 ⟨h1, h2⟩
      · refine (memWf_cons_iff _ _ _).2 ⟨fun x hx => ?_, ih h2⟩
        rcases mem_memWrite _ _ _ _ hx with rfl | hx
        · simp only; omega
        · exact h1 x hx

/-- A store of a byte sequence keeps the canonical form. -/
theorem memWf_memStore (m : Mem) (a : Nat) (vs : List Byte) (h : memWf m = true) : memWf (memStore m a vs) = true := by
  induction vs generalizing m a with
  | nil => exact h
  | cons v vs ih => exact ih _ _ (memWf_memWrite _ _ _ h)

/-- The cells of a memory after a store lie in the range stored to, or are cells it had. -/
theorem mem_memStore (m : Mem) (a : Nat) (vs : List Byte) (x : Host.Cell) (h : x ∈ memStore m a vs) :
    (a ≤ x.1 ∧ x.1 < a + vs.length) ∨ x ∈ m := by
  induction vs generalizing m a with
  | nil => exact .inr h
  | cons v vs ih =>
    rcases ih _ _ h with h | h
    · left; simp only [List.length_cons]; omega
    · rcases mem_memWrite _ _ _ _ h with rfl | h
      · left; simp
      · exact .inr h

/-- Reset memory is in canonical form. -/
theorem memWf_nil : memWf [] = true := rfl

end Sys2Proof.Machine
end

