-- ==== Sys2Proof/Laws/PerInstr.lean ====
section
/-! SUPPORT. Per operation: its word is well formed, and decoding its word gives it back. -/

namespace Sys2Proof.Laws.Encoding

def Statement (i : Instr) : Prop := (encode i).wellFormed = true ∧ decode (encode i) = .ok i

theorem encode : Statement .encode := ⟨rfl, rfl⟩
theorem decode : Statement .decode := ⟨rfl, rfl⟩
theorem pIdle : Statement .pIdle := ⟨rfl, rfl⟩
theorem pECount : Statement .pECount := ⟨rfl, rfl⟩
theorem pETbInit : Statement .pETbInit := ⟨rfl, rfl⟩
theorem pETbMerge : Statement .pETbMerge := ⟨rfl, rfl⟩
theorem pEDerive : Statement .pEDerive := ⟨rfl, rfl⟩
theorem pEPack : Statement .pEPack := ⟨rfl, rfl⟩
theorem pEEmit : Statement .pEEmit := ⟨rfl, rfl⟩
theorem pDParse : Statement .pDParse := ⟨rfl, rfl⟩
theorem pDUnpack : Statement .pDUnpack := ⟨rfl, rfl⟩
theorem pDMatch : Statement .pDMatch := ⟨rfl, rfl⟩
theorem pDEmit : Statement .pDEmit := ⟨rfl, rfl⟩

end Sys2Proof.Laws.Encoding
end

