-- ==== Sys2Proof/Laws/Spaces.lean ====
section
/-! SUPPORT. The laws of the address spaces: register numbers and bus addresses name the registers, indices lie below the capacities. -/

namespace Sys2Proof

@[simp] theorem mem_allRegs (r : HostReg) : r ∈ allRegs := by cases r <;> decide

/-- Each register's number finds it. -/
@[simp] theorem ofNumber_number (r : HostReg) : HostReg.ofNumber r.number = some r := by cases r <;> rfl

/-- No register has a number over 5. -/
theorem ofNumber_eq_none {n : Nat} (h : 6 ≤ n) : HostReg.ofNumber n = none := by
  unfold HostReg.ofNumber
  refine List.find?_eq_none.2 fun r _ => ?_
  cases r <;> simp [HostReg.number] <;> omega

/-- A bus address that is one register's and no other's finds it. -/
theorem find_of_unique {m : RegMap} {a : Nat} {r : HostReg} (h : ∀ q, m.addr q = a ↔ q = r) : m.find a = some r := by
  have e : allRegs.filter (fun q => m.addr q == a) = [r] := by
    have : allRegs.filter (fun q => m.addr q == a) = allRegs.filter (fun q => q == r) := by
      refine List.filter_congr fun q _ => ?_
      rw [Bool.eq_iff_iff, beq_iff_eq, beq_iff_eq]; exact h q
    rw [this]; cases r <;> rfl
  unfold RegMap.find; rw [e]

/-- A value of the register's own width is one it takes. -/
theorem takes_setWidth (r : HostReg) {n : Nat} (v : BitVec n) (h : n ≤ r.width) : r.takes (v.setWidth 64) = true := by
  have h2 : v.toNat < 2 ^ r.width := lt_of_lt_of_le v.isLt (Nat.pow_le_pow_right (by decide) h)
  simp only [HostReg.takes, decide_eq_true_eq, BitVec.toNat_setWidth]
  exact lt_of_le_of_lt (Nat.mod_le _ _) h2

theorem ibufIndex_iff (p : Params) (a : Nat) : ibufIndex p a = true ↔ a < 2 ^ 32 ∧ fitsCap (a + 1) p.ibufCap = true := by
  simp [ibufIndex]

theorem obufIndex_iff (p : Params) (a : Nat) : obufIndex p a = true ↔ a < 2 ^ 64 ∧ fitsCap (a + 1) p.obufCap = true := by
  simp [obufIndex]

/-- What is below something inside a capacity is inside it. -/
theorem fitsCap_mono {m n : Nat} (c : Option Nat) (h : m ≤ n) (hn : fitsCap n c = true) : fitsCap m c = true := by
  cases c with
  | none => rfl
  | some c => simp only [fitsCap, decide_eq_true_eq] at *; omega

end Sys2Proof
end

