-- ==== Sys2Proof/Laws/Tables.lean ====
section
/-! SUPPORT. The laws of the tables: FREQ, CODE, NODE, PQ, and the list of all Symbols. -/

namespace Sys2Proof.Machine

/-- Every Symbol is listed. -/
@[simp] theorem mem_allSymbols (s : Byte) : s ∈ allSymbols := by
  refine List.mem_map.2 ⟨s.toNat, List.mem_range.2 s.isLt, ?_⟩
  exact BitVec.eq_of_toNat_eq (by simp)

/-- The Symbols are listed in ascending order, each once. -/
theorem allSymbols_sorted : allSymbols.Pairwise (· < ·) := by
  unfold allSymbols
  rw [List.pairwise_map]
  refine List.Pairwise.imp_of_mem ?_ (List.pairwise_lt_range (n := 256))
  intro a b ha hb hab
  have ha' := List.mem_range.1 ha
  have hb' := List.mem_range.1 hb
  rw [BitVec.lt_def, BitVec.toNat_ofNat, BitVec.toNat_ofNat, Nat.mod_eq_of_lt (by omega), Nat.mod_eq_of_lt (by omega)]
  exact hab

theorem allSymbols_nodup : allSymbols.Nodup :=
  allSymbols_sorted.imp (fun h => by intro e; subst e; exact absurd h (by simp))

@[simp] theorem length_allSymbols : allSymbols.length = 256 := by simp [allSymbols]

/-- FREQ[t] after FREQ[s] has been counted up (R111). -/
theorem freqOf_countByte (f : FreqTable) (s t : Byte) :
    freqOf (countByte f s) t = if t = s then freqOf f t + 1#32 else freqOf f t := by
  unfold freqOf countByte
  rw [Vector.getElem_set]
  by_cases h : t = s
  · subst h; rw [if_pos rfl, if_pos rfl]; rfl
  · rw [if_neg h, if_neg (fun e => h (BitVec.eq_of_toNat_eq e.symm))]

@[simp] theorem freqOf_zeroFreq (t : Byte) : freqOf zeroFreq t = 0#32 := by simp [freqOf, zeroFreq]

/-- CODE[t] after CODE[s] has been written. -/
theorem codeOf_setCode (c : CodeTable) (s t : Byte) (β : Bits) :
    codeOf (setCode c s β) t = if t = s then { present := true, bits := β } else codeOf c t := by
  unfold codeOf setCode
  rw [Vector.getElem_set]
  by_cases h : t = s
  · subst h; rw [if_pos rfl, if_pos rfl]
  · rw [if_neg h, if_neg (fun e => h (BitVec.eq_of_toNat_eq e.symm))]

@[simp] theorem codeOf_cleared (c : CodeTable) (s : Byte) :
    codeOf (c.map (fun e => { e with present := false })) s = { codeOf c s with present := false } := by
  simp [codeOf]

@[simp] theorem codeOf_noCodes (s : Byte) : codeOf noCodes s = { present := false, bits := [] } := by
  simp [codeOf, noCodes]

theorem noCodes_noCodes : NoCodes noCodes := fun s => by simp

theorem clearWork_noCodes (w : Work) : NoCodes (clearWork w).code := fun s => by
  simp [clearWork]

/-- PQ ∪ (i) holds i and what PQ held. -/
@[simp] theorem mem_pqInsert (i j : Slot) (q : List Slot) : j ∈ pqInsert i q ↔ j = i ∨ j ∈ q := by
  induction q with
  | nil => simp [pqInsert]
  | cons k q ih =>
    simp only [pqInsert]
    split
    · simp
    · split
      · subst_vars; simp
      · simp only [List.mem_cons, ih]; tauto

/-- Insertion keeps PQ in rising order without repeats. -/
theorem pqInsert_sorted (i : Slot) (q : List Slot) (h : q.Pairwise (· < ·)) : (pqInsert i q).Pairwise (· < ·) := by
  induction q with
  | nil => simp [pqInsert]
  | cons k q ih =>
    obtain ⟨h1, h2⟩ := List.pairwise_cons.1 h
    simp only [pqInsert]
    split
    · rename_i hlt
      exact List.pairwise_cons.2 ⟨fun x hx => by
        rcases List.mem_cons.1 hx with rfl | hx
        · exact hlt
        · exact lt_trans hlt (h1 x hx), h⟩
    · split
      · subst_vars; exact h
      · refine List.pairwise_cons.2 ⟨fun x hx => ?_, ih h2⟩
        rcases (mem_pqInsert _ _ _).1 hx with rfl | hx
        · exact lt_of_le_of_ne (le_of_not_gt ‹_›) (Ne.symm ‹_›)
        · exact h1 x hx

/-- Insertion of a new index makes PQ longer by one. -/
theorem length_pqInsert (i : Slot) (q : List Slot) (h : i ∉ q) : (pqInsert i q).length = q.length + 1 := by
  induction q with
  | nil => rfl
  | cons k q ih =>
    simp only [List.mem_cons, not_or] at h
    simp only [pqInsert]
    split
    · rfl
    · split
      · exact absurd ‹_› h.1
      · simp [ih h.2]

/-! The arena, and the order of ExtractMin. -/

/-- NODE[k] inside the arena is the slot. -/
theorem nodeAt_eq (nd : Arena) (k : Nat) : nodeAt nd k = if h : k < 511 then nd[k] else Node.zero := by
  unfold nodeAt Vector.getD Array.getD
  simp only [Vector.size_toArray]
  rfl

/-- NODE[k] after NODE[i] has been written. -/
theorem nodeAt_set (nd : Arena) (i k : Nat) (n : Node) (h : i < 511) :
    nodeAt (nd.set i n h) k = if k = i then n else nodeAt nd k := by
  rw [nodeAt_eq, nodeAt_eq]
  by_cases hk : k < 511
  · rw [dif_pos hk, dif_pos hk, Vector.getElem_set]
    by_cases e : k = i
    · rw [if_pos e.symm, if_pos e]
    · rw [if_neg (Ne.symm e), if_neg e]
  · rw [dif_neg hk, dif_neg hk, if_neg (by omega)]

/-- The comparison ExtractMin makes is the order of R123. -/
theorem before_iff (nd : Arena) (i j : Slot) : before nd i j = true ↔ lighter nd i j := by
  simp only [before, lighter, BitVec.lt_def, ← BitVec.toNat_inj, Bool.or_eq_true, Bool.and_eq_true, decide_eq_true_eq,
    beq_iff_eq]
  exact Iff.rfl

theorem lighter_trans {nd : Arena} {i j k : Slot} (h1 : lighter nd i j) (h2 : lighter nd j k) : lighter nd i k := by
  unfold lighter at *; omega

theorem lighter_total {nd : Arena} {i j : Slot} (h : i ≠ j) : lighter nd i j ∨ lighter nd j i := by
  have : i.val ≠ j.val := fun e => h (Fin.ext e)
  unfold lighter; omega

/-- PQ without one of its elements is shorter by one. -/
theorem length_filter_ne {q : List Slot} {m : Slot} (hs : q.Pairwise (· < ·)) (hm : m ∈ q) :
    (q.filter (· != m)).length + 1 = q.length := by
  have hn : q.Nodup := hs.imp (fun h => ne_of_lt h)
  rw [← hn.erase_eq_filter m, List.length_erase_of_mem hm]
  have := List.length_pos_of_mem hm
  omega

/-- The keys of the FrequencyTable are the Symbols with a positive count. -/
@[simp] theorem mem_presentSymbols (f : FreqTable) (s : Byte) : s ∈ presentSymbols f ↔ 0#32 < freqOf f s := by
  simp [presentSymbols]

theorem presentSymbols_sorted (f : FreqTable) : (presentSymbols f).Pairwise (· < ·) := allSymbols_sorted.filter _

theorem length_presentSymbols_le (f : FreqTable) : (presentSymbols f).length ≤ 256 :=
  (List.length_filter_le _ _).trans (by simp)

/-- Lookup gives a Symbol that is present with that code. -/
theorem lookup_some (c : CodeTable) (β : Bits) (s : Byte) (h : lookup c β = some s) :
    (codeOf c s).present = true ∧ (codeOf c s).bits = β := by
  have := List.find?_some h
  simpa using this

/-- Lookup gives none exactly when no present Symbol has that code. -/
theorem lookup_none (c : CodeTable) (β : Bits) :
    lookup c β = none ↔ ∀ s, (codeOf c s).present = true → (codeOf c s).bits ≠ β := by
  unfold lookup
  rw [List.find?_eq_none]
  simp

end Sys2Proof.Machine
end

