-- ==== Sys2Proof/Tests/Slice0.lean ====
section
/-! SUPPORT. The model's own tests: ill-formed terms, words written out from the encoding tables, one step of each operation with
the results that spec/95_test_vectors.md gives (its ids stand in the comments), and witnesses for the statements' hypotheses. -/

namespace Sys2Proof.Tests

open Sys2Proof.Machine

-- The tests run one after another, so that no more than one waits for the kernel at a time.
set_option Elab.async false

/-! ## Ill-formed terms are refused (R82, R84, R262) -/

theorem test_wf_reserved_commands :
    (OpWord.cmd 0x00#8).wellFormed = false ∧ (OpWord.cmd 0x03#8).wellFormed = false ∧
    (OpWord.cmd 0xFF#8).wellFormed = false := by decide

theorem test_wf_reserved_phases :
    (OpWord.phase 0x7#4).wellFormed = false ∧ (OpWord.phase 0xC#4).wellFormed = false ∧
    (OpWord.phase 0xD#4).wellFormed = false ∧ (OpWord.phase 0xE#4).wellFormed = false ∧
    (OpWord.phase 0xF#4).wellFormed = false := by decide

theorem test_wf_legal_words :
    (OpWord.cmd 0x01#8).wellFormed = true ∧ (OpWord.cmd 0x02#8).wellFormed = true ∧
    (OpWord.phase 0x0#4).wellFormed = true ∧ (OpWord.phase 0xB#4).wellFormed = true := by decide

/-- The parameters of an implementation that has set its capacities. -/
def caps (i o : Nat) : Params := { Params.unbounded with ibufCap := some i, obufCap := some o }

theorem test_wf_host_indices :
    (HostEvent.writeIbuf 4 0#8).wellFormed (caps 4 8) = false ∧ (HostEvent.writeIbuf 3 0#8).wellFormed (caps 4 8) = true ∧
    (HostEvent.readIbuf 4).wellFormed (caps 4 8) = false ∧ (HostEvent.readObuf 8).wellFormed (caps 4 8) = false ∧
    (HostEvent.readObuf 7).wellFormed (caps 4 8) = true := by decide

/-- R60: an index of IBUF has at most 32 bits, one of OBUF at most 64, also where the capacity is unbounded. -/
theorem test_wf_wide_indices :
    (HostEvent.readIbuf 0xFFFFFFFF).wellFormed Params.unbounded = true ∧
    (HostEvent.readIbuf 0x100000000).wellFormed Params.unbounded = false ∧
    (HostEvent.writeIbuf 0x100000000 0#8).wellFormed Params.unbounded = false ∧
    (HostEvent.readObuf 0x10000000000000000).wellFormed Params.unbounded = false := by decide

/-- R21, R60: six register numbers. -/
theorem test_wf_registers :
    (HostEvent.readRegAt 5).wellFormed Params.unbounded = true ∧ (HostEvent.readRegAt 6).wellFormed Params.unbounded = false ∧
    (HostEvent.writeRegAt 0 0xFF#64).wellFormed Params.unbounded = true ∧
    (HostEvent.writeRegAt 6 0#64).wellFormed Params.unbounded = false ∧
    (HostEvent.readBus 6).wellFormed Params.unbounded = false ∧
    (HostEvent.writeBus 6 0#64).wellFormed Params.unbounded = false := by decide

/-- Two registers at one bus address: an access there selects neither (log entry 20). -/
theorem test_wf_bus_clash :
    (HostEvent.readBus 1).wellFormed { Params.unbounded with regMap := { RegMap.byNumber with err := 1 } } = false := by decide

/-! ## Decoding: every word of R80 and R83 written out, and reserved words refused -/

theorem test_decode_commands :
    decode (.cmd 0b00000001#8) = .ok .encode ∧ decode (.cmd 0b00000010#8) = .ok .decode := by decide

theorem test_decode_encode_phases :
    decode (.phase 0b0000#4) = .ok .pIdle ∧ decode (.phase 0b0001#4) = .ok .pECount ∧
    decode (.phase 0b0010#4) = .ok .pETbInit ∧ decode (.phase 0b0011#4) = .ok .pETbMerge ∧
    decode (.phase 0b0100#4) = .ok .pEDerive ∧ decode (.phase 0b0101#4) = .ok .pEPack ∧
    decode (.phase 0b0110#4) = .ok .pEEmit := by decide

theorem test_decode_decode_phases :
    decode (.phase 0b1000#4) = .ok .pDParse ∧ decode (.phase 0b1001#4) = .ok .pDUnpack ∧
    decode (.phase 0b1010#4) = .ok .pDMatch ∧ decode (.phase 0b1011#4) = .ok .pDEmit := by decide

theorem test_decode_reserved :
    decode (.cmd 0x00#8) = .error (.reservedCommand 0x00#8) ∧ decode (.cmd 0x03#8) = .error (.reservedCommand 0x03#8) ∧
    decode (.cmd 0xFF#8) = .error (.reservedCommand 0xFF#8) ∧ decode (.phase 0x7#4) = .error (.reservedPhase 0x7#4) ∧
    decode (.phase 0xC#4) = .error (.reservedPhase 0xC#4) ∧ decode (.phase 0xF#4) = .error (.reservedPhase 0xF#4) := by
  decide

/-- No word matches two rows of its table (R80, R83). -/
theorem test_rows_disjoint :
    (∀ v : BitVec 8, (cmdRows.filter (fun r => v &&& r.mask == r.pattern)).length ≤ 1) ∧
    (∀ c : BitVec 4, (phaseRows.filter (fun r => c &&& r.mask == r.pattern)).length ≤ 1) := by decide +kernel

/-- The words of spec/opcode_table.json in its own numbering, a 4-bit code given in 4 bits or in a whole byte. -/
theorem test_table_words :
    decodeTableWord 8 0x01 = some .encode ∧ decodeTableWord 8 0x02 = some .decode ∧ decodeTableWord 4 0x1 = some .pECount ∧
    decodeTableWord 4 0x2 = some .pETbInit ∧ decodeTableWord 8 0x0 = some .pIdle ∧ decodeTableWord 8 0x3 = some .pETbMerge ∧
    decodeTableWord 8 0xB = some .pDEmit ∧ decodeTableWord 8 0x7 = none ∧ decodeTableWord 8 0xFF = none := by decide

/-! ## Small states -/

/-- What a next state is asked. -/
def after (o : Host.Outcome State Fault Refusal) (p : State → Bool) : Bool :=
  match o with
  | .next t => p t
  | .fault _ => false
  | .refused _ => false

/-- The block idle after the host has loaded x. -/
def idleWith (x : List Byte) : State :=
  { State.reset with ibuf := memStore [] 0 x, ilen := BitVec.ofNat 32 x.length }

/-- The same with host operations pending. -/
def pending (ops : List HostEvent) (s : State) : State := { s with hostOps := ops }

/-- A command running, in a phase and with a working state, on the input x. -/
def busyIn (c : BitVec 4) (w : Work) (x : List Byte) : State := { idleWith x with status := .busy, phase := c, work := w }

/-- The capacities of an implementation that has set them. -/
def capped (i o : Nat) (s : State) : State := { s with params := caps i o }

/-- "AABBC" -/
def aabbc : List Byte := [0x41#8, 0x41#8, 0x42#8, 0x42#8, 0x43#8]

/-- A leaf and an internal node as V-T writes them. -/
def L (s : Byte) (w : BitVec 32) : Node := { kind := .leaf, sym := s, weight := w, left := 511#9, right := 511#9 }

def N (a b : BitVec 9) (w : BitVec 32) : Node := { kind := .internal, sym := 0#8, weight := w, left := a, right := b }

/-- An arena whose first slots are given. -/
def arena (ns : List Node) : Arena := (ns.foldl (fun x n => (x.1.setIfInBounds x.2 n, x.2 + 1)) (Work.zero.node, 0)).1

/-- FREQ of "AABBC" (V-C3). -/
def freqAabbc : FreqTable :=
  ((zeroFreq.set 0x41 2#32).set 0x42 2#32).set 0x43 1#32

/-- FREQ and CODE on the Symbols of the tests. -/
def freqs (f : FreqTable) : List (BitVec 32) := [0x40#8, 0x41#8, 0x42#8, 0x43#8, 0x44#8].map (freqOf f)

def codes (c : CodeTable) : List (Option Bits) :=
  [0x40#8, 0x41#8, 0x42#8, 0x43#8, 0x44#8].map (fun s => if (codeOf c s).present then some (codeOf c s).bits else none)

/-- The first five slots of an arena. -/
def slots (nd : Arena) : List Node := [0, 1, 2, 3, 4].map (nodeAt nd)

/-- The tree of "AABBC" after P_E_TB_INIT and after its two merges (V-T5). -/
def workLeaves : Work :=
  { clearWork Work.zero with
    freq := freqAabbc, nsym := 3#9, nnodes := 3#10, pq := [0, 1, 2],
    node := arena [L 0x41#8 2#32, L 0x42#8 2#32, L 0x43#8 1#32] }

def workTree : Work :=
  { workLeaves with
    nnodes := 5#10, pq := [4], root := 4#9,
    node := arena [L 0x41#8 2#32, L 0x42#8 2#32, L 0x43#8 1#32, N 2#9 0#9 3#32, N 1#9 3#9 5#32] }

/-- The one-leaf tree of "AAAA". -/
def workTrivial : Work :=
  { clearWork Work.zero with
    nsym := 1#9, nnodes := 1#10, pq := [0], root := 0#9, trivial := true, node := arena [L 0x41#8 4#32] }

/-- The codes of "AABBC" (V-K5), and a table of two codes (V-K2). -/
def codesAabbc : CodeTable :=
  setCode (setCode (setCode noCodes 0x41#8 [true, true]) 0x42#8 [false]) 0x43#8 [true, false]

def codesAb : CodeTable := setCode (setCode noCodes 0x41#8 [false]) 0x42#8 [true]

def withCodes (c : CodeTable) : Work := { clearWork Work.zero with code := c, nsym := 3#9 }

/-- The artifact of "AABBC" (S4, V-E9). -/
def artAabbc : List Byte :=
  [0x00#8, 0x03#8, 0x41#8, 0x02#8, 0xC0#8, 0x42#8, 0x01#8, 0x00#8, 0x43#8, 0x02#8, 0x80#8,
   0x00#8, 0x00#8, 0x00#8, 0x00#8, 0x00#8, 0x00#8, 0x00#8, 0x08#8, 0xF2#8]

/-! ## One step of each operation -/

theorem test_encode_accepted :
    after (exec .encode (idleWith aabbc)) (fun t => t.status == .busy && t.phase == 0x1#4) = true := by decide +kernel

theorem test_decode_accepted :
    after (exec .decode (idleWith artAabbc)) (fun t => t.status == .busy && t.phase == 0x8#4) = true := by decide +kernel

/-- R263: no effect while BUSY. -/
theorem test_encode_while_busy :
    exec .encode (busyIn 0x4#4 workTree aabbc) = .next (busyIn 0x4#4 workTree aabbc) := rfl

/-- R262: a command with ILEN over IBUF_CAP is refused. -/
theorem test_decode_beyond_capacity :
    (match exec .decode (capped 19 0 (idleWith artAabbc)) with
      | .refused .commandBeyondCapacity => true
      | _ => false) = true := by decide +kernel

theorem test_idle : exec .pIdle (idleWith aabbc) = .next (idleWith aabbc) := rfl

/-- V-C3 -/
theorem test_count :
    after (exec .pECount (busyIn 0x1#4 (clearWork Work.zero) aabbc))
      (fun t => freqs t.work.freq == [0#32, 2#32, 2#32, 1#32, 0#32] && t.phase == 0x2#4) = true := by decide +kernel

/-- V-C1 -/
theorem test_count_empty :
    after (exec .pECount (busyIn 0x1#4 (clearWork Work.zero) []))
      (fun t => freqs t.work.freq == [0#32, 0#32, 0#32, 0#32, 0#32] && t.phase == 0x6#4) = true := by decide +kernel

/-- V-T5, the leaves -/
theorem test_tb_init :
    after (exec .pETbInit (busyIn 0x2#4 { clearWork Work.zero with freq := freqAabbc } aabbc))
      (fun t => slots t.work.node == [L 0x41#8 2#32, L 0x42#8 2#32, L 0x43#8 1#32, Node.zero, Node.zero]
        && t.work.nsym == 3#9 && t.work.nnodes == 3#10 && t.work.pq == [0, 1, 2] && t.work.root == 511#9
        && !t.work.trivial && t.phase == 0x3#4) = true := by decide +kernel

/-- V-T1: one key -/
theorem test_tb_init_one :
    after (exec .pETbInit (busyIn 0x2#4 { clearWork Work.zero with freq := zeroFreq.set 0x41 4#32 } []))
      (fun t => nodeAt t.work.node 0 == L 0x41#8 4#32 && t.work.trivial && t.work.root == 0#9 && t.work.nnodes == 1#10
        && t.phase == 0x4#4) = true := by decide +kernel

/-- V-T5, the first merge: of the two leaves of weight 2 the smaller index is taken. -/
theorem test_tb_merge :
    after (exec .pETbMerge (busyIn 0x3#4 workLeaves aabbc))
      (fun t => nodeAt t.work.node 3 == N 2#9 0#9 3#32 && t.work.pq == [1, 3] && t.work.nnodes == 4#10
        && t.work.root == 511#9 && t.phase == 0x3#4) = true := by decide +kernel

/-- V-T10, the second merge: leaf 2 (weight 2) goes before the internal node 3 (weight 2). -/
theorem test_tb_merge_tie :
    after (exec .pETbMerge (busyIn 0x3#4
        { workLeaves with
          nnodes := 4#10, pq := [2, 3],
          node := arena [L 0x61#8 1#32, L 0x62#8 1#32, L 0x63#8 2#32, N 0#9 1#9 2#32] }
        aabbc))
      (fun t => nodeAt t.work.node 4 == N 2#9 3#9 4#32 && t.work.root == 4#9 && t.phase == 0x4#4) = true := by
  decide +kernel

/-- V-K5 -/
theorem test_derive :
    after (exec .pEDerive (busyIn 0x4#4 workTree aabbc)) 
      (fun t => codes t.work.code == [none, some [true, true], some [false], some [true, false], none]
        && t.phase == 0x5#4) = true := by decide +kernel

/-- V-K1 -/
theorem test_derive_trivial :
    after (exec .pEDerive (busyIn 0x4#4 workTrivial []))
      (fun t => codes t.work.code == [none, some [false], none, none, none] && t.phase == 0x5#4) = true := by decide +kernel

/-- V-E9: the payload F2 of eight bits -/
theorem test_pack :
    after (exec .pEPack (busyIn 0x5#4 (withCodes codesAabbc) aabbc))
      (fun t => t.work.pbuf == [0xF2#8] && t.work.tbits == 8#64 && t.work.valid == 8#4 && t.phase == 0x6#4) = true := by
  decide +kernel

/-- R183: an input byte without a code -/
theorem test_pack_no_code :
    after (exec .pEPack (busyIn 0x5#4 (withCodes codesAb) aabbc))
      (fun t => t.status == .error && t.err == .internalTreeFault && t.stage == .noStage && t.phase == 0x0#4) = true := by
  decide +kernel

/-- V-E9 -/
def workPacked : Work := { withCodes codesAabbc with tbits := 8#64, valid := 8#4, pbuf := [0xF2#8] }

theorem artifact_packed : artifact workPacked = artAabbc := by decide +kernel

theorem test_e_emit :
    after (exec .pEEmit (busyIn 0x6#4 workPacked aabbc))
      (fun t => t.obuf == memStore [] 0 artAabbc && t.olen == 20#64 && t.status == .done && t.phase == 0x0#4) = true := by
  have e : exec .pEEmit (busyIn 0x6#4 workPacked aabbc) =
      .next (emitOutput (artifact workPacked) (busyIn 0x6#4 workPacked aabbc)) := rfl
  rw [e, artifact_packed]
  rfl

/-- R186: an artifact of 20 bytes does not fit 19. -/
theorem test_e_emit_too_long :
    after (exec .pEEmit (capped 64 19 (busyIn 0x6#4 workPacked aabbc)))
      (fun t => t.obuf == [] && t.olen == 0#64 && t.status == .error && t.err == .outputUnwritable) = true := by
  have e : exec .pEEmit (capped 64 19 (busyIn 0x6#4 workPacked aabbc)) =
      .next (emitOutput (artifact workPacked) (capped 64 19 (busyIn 0x6#4 workPacked aabbc))) := rfl
  rw [e, artifact_packed]
  rfl

/-- A 9-bit code in two bytes (as in V-E16), with padding that is not zero -/
theorem test_parse :
    after (exec .pDParse (busyIn 0x8#4 (withCodes noCodes) [0x00#8, 0x01#8, 0x41#8, 0x09#8, 0xFF#8, 0x7F#8, 0#8]))
      (fun t => codes t.work.code ==
          [none, some [true, true, true, true, true, true, true, true, false], none, none, none]
        && t.work.nsym == 1#9 && t.work.ppos == 6#33 && t.phase == 0x9#4) = true := by decide +kernel

/-- V-D15: "0" is a prefix of "01". -/
theorem test_parse_clash :
    after (exec .pDParse (busyIn 0x8#4 (withCodes noCodes)
        [0x00#8, 0x02#8, 0x41#8, 0x01#8, 0x00#8, 0x42#8, 0x02#8, 0x40#8, 0#8, 0#8, 0#8, 0#8, 0#8, 0#8, 0#8, 0#8]))
      (fun t => t.status == .error && t.err == .malformedArtifact && t.stage == .tableParse && t.olen == 0#64) = true := by
  decide +kernel

/-- V-E9: T = 8 and the bits of F2 -/
theorem test_unpack :
    after (exec .pDUnpack (busyIn 0x9#4 { withCodes codesAabbc with ppos := 11#33 } artAabbc))
      (fun t => t.work.ubits == [true, true, true, true, false, false, true, false] && t.work.tbits == 8#64
        && t.work.valid == 8#4 && t.work.ppos == 20#33 && t.phase == 0xA#4) = true := by decide +kernel

/-- V-D4: one byte too many -/
theorem test_unpack_too_long :
    after (exec .pDUnpack (busyIn 0x9#4 { withCodes codesAabbc with ppos := 11#33 } (artAabbc ++ [0x00#8])))
      (fun t => t.status == .error && t.err == .malformedArtifact && t.stage == .bitUnpack) = true := by decide +kernel

/-- V-A5: bits "110" over the codes "11" and "0" -/
theorem test_match :
    after (exec .pDMatch (busyIn 0xA#4
        { withCodes (setCode (setCode noCodes 0x41#8 [true, true]) 0x42#8 [false]) with
          ubits := [true, true, false], tbits := 3#64 } []))
      (fun t => t.work.dbuf == [0x41#8, 0x42#8] && t.work.cand == [] && t.phase == 0xB#4) = true := by decide +kernel

/-- V-D2: the candidate "1" is left. -/
theorem test_match_leftover :
    after (exec .pDMatch (busyIn 0xA#4
        { withCodes codesAabbc with ubits := [true, true, true, true, false, false, true], tbits := 7#64 } []))
      (fun t => t.status == .error && t.err == .malformedArtifact && t.stage == .codeMatch) = true := by decide +kernel

theorem test_d_emit :
    after (exec .pDEmit (busyIn 0xB#4 { clearWork Work.zero with dbuf := aabbc } artAabbc))
      (fun t => t.obuf == memStore [] 0 aabbc && t.olen == 5#64 && t.status == .done && t.phase == 0x0#4) = true := by
  decide +kernel

/-- R213: five bytes do not fit four. -/
theorem test_d_emit_too_long :
    after (exec .pDEmit (capped 64 4 (busyIn 0xB#4 { clearWork Work.zero with dbuf := aabbc } artAabbc)))
      (fun t => t.olen == 0#64 && t.status == .error && t.err == .outputUnwritable && t.stage == .noStage) = true := by
  decide +kernel

/-! ## The word of a row of the table, run as the next step -/

theorem test_fetch_command : step (State.reset.withFetchWord 8 0x02) = exec .decode State.reset := rfl

theorem test_fetch_phase :
    step (State.reset.withFetchWord 8 0x4) = exec .pEDerive { State.reset with phase := codeEDerive } := rfl

/-! ## The host's accesses -/

/-- R21: number 2 is ERR, number 1 STATUS; V-H5's start state reads 3 and 3. -/
theorem test_read_by_number :
    after (step { State.reset with status := .error, err := .malformedArtifact, stage := .bitUnpack, hostOps := [.readRegAt 2] })
      (fun t => t.hostReads == [3#64]) = true ∧
    after (step { State.reset with status := .error, err := .malformedArtifact, stage := .bitUnpack, hostOps := [.readRegAt 3] })
      (fun t => t.hostReads == [2#64]) = true := by decide +kernel

/-- A command written to register number 0, by number and at the bus address REG_MAP gives CMD. -/
theorem test_command_by_address :
    step (pending [.writeRegAt 0 0x01#64] (idleWith aabbc)) = exec .encode (idleWith aabbc) ∧
    step (pending [.writeBus 0x40 0x01#64]
        { idleWith aabbc with params := { Params.unbounded with regMap := { RegMap.byNumber with cmd := 0x40 } } }) =
      exec .encode { idleWith aabbc with params := { Params.unbounded with regMap := { RegMap.byNumber with cmd := 0x40 } } } :=
  ⟨rfl, rfl⟩

/-- A value wider than the register still is a write: ILEN takes some value, and all else is as the rules say. -/
theorem test_wide_value :
    after (step (pending [.writeRegAt 4 0x100000000#64, .wait] (idleWith aabbc)))
      (fun t => t.status == .idle && t.phase == 0x0#4 && t.hostOps == [.wait] && t.frees == 1) = true ∧
    step (pending [.writeRegAt 1 0x4#64] (idleWith aabbc)) = .next (idleWith aabbc) := ⟨by decide +kernel, rfl⟩

/-- R84: a state with a reserved PHASE takes no command. -/
theorem test_stuck_command :
    step (pending [.writeCmd 0x01#8] { State.reset with phase := 0x7#4 }) = .fault .reservedPhase := rfl

/-! ## Units and whole functions -/

/-- R162: the streaming check of section 2.4 -/
theorem test_streaming :
    (let w := bpPush (bpPush (bpPush (bpReset Work.zero) true) false) true
     w.acc = 0xA0#8 ∧ w.nacc = 3#3 ∧ w.tbits = 3#64 ∧ w.pbuf = [] ∧ (bpFlush w).pbuf = [0xA0#8] ∧ (bpFlush w).valid = 3#4) := by
  decide +kernel

/-- Section 2.5: thirteen bits of 75 A0; one byte is too few. -/
theorem test_unpack_bits :
    unpack [0x75#8, 0xA0#8] 13 =
      some [false, true, true, true, false, true, false, true, true, false, true, false, false] ∧
    unpack [0x75#8] 13 = none := by decide +kernel

/-- V-A4: the one code is "1". -/
def artBbb : List Byte := [0x00#8, 0x01#8, 0x42#8, 0x01#8, 0x80#8, 0#8, 0#8, 0#8, 0#8, 0#8, 0#8, 0#8, 0x03#8, 0xE0#8]

theorem test_decode_function :
    (match decodeFn artBbb with
      | .ok y => y == [0x42#8, 0x42#8, 0x42#8]
      | .error _ => false) = true := by decide +kernel

/-! ## Witnesses: a state and operands that meet a statement's hypotheses, for each of its clauses -/

/-- A running state of the tests: the host waits for a command in the phase given. -/
abbrev running : State := busyIn codeEDerive workTree aabbc

theorem running_live : isStuck running = false := by decide

theorem aabbc_live : isStuck (idleWith aabbc) = false := by decide

theorem wit_ResetEventAbandonsCommand :
    (pending [.reset, .wait] running).hostOps = [.reset, .wait] ∧ running.status = .busy := ⟨rfl, rfl⟩

theorem wit_StepRunsDecodedOperation :
    (running.hostOps = [] ∧ decode (.phase running.phase) = .ok .pEDerive) ∧
    ((pending [.sequencer] running).hostOps = [.sequencer] ∧
      decode (.phase (pending [.sequencer] running).phase) = .ok .pEDerive) ∧
    ((pending [.wait] running).hostOps = [.wait] ∧ (pending [.wait] running).status = .busy) ∧
    ((pending [.writeCmd 0x02#8] running).hostOps = [.writeCmd 0x02#8] ∧ isStuck (pending [.writeCmd 0x02#8] running) = false ∧
      decode (.cmd 0x02#8) = .ok .decode) :=
  ⟨⟨rfl, rfl⟩, ⟨rfl, rfl⟩, ⟨rfl, rfl⟩, ⟨rfl, rfl, rfl⟩⟩

/-- Each reserved code, with the sequencer or the host to move. -/
theorem wit_ReservedPhaseIsStuck :
    (∀ c ∈ [0x7#4, 0xC#4, 0xD#4, 0xE#4, 0xF#4],
      (busyIn c workTree []).phase = c ∧ (busyIn c workTree []).hostOps = [] ∧
      (pending [.writeCmd 0x01#8] { State.reset with phase := c }).hostOps = [.writeCmd 0x01#8] ∧
      (pending [.writeCmd 0x01#8] { State.reset with phase := c }).status ≠ .busy) ∧
    (decodePhase (busyIn codeECount Work.zero []).phase).isSome = true ∧
    ∃ t, step (busyIn codeECount Work.zero []) = .next t :=
  ⟨fun _ _ => ⟨rfl, rfl, rfl, nofun⟩, by decide, _, rfl⟩

/-- The input fills IBUF exactly. -/
theorem wit_CommandAcceptanceClears :
    (capped 5 0 (idleWith aabbc)).status ≠ .busy ∧ ilenFits (capped 5 0 (idleWith aabbc)) = true := by decide

theorem wit_ReservedCommandIsIllegal :
    ∀ v ∈ [0x00#8, 0x03#8, 0xFF#8], v ≠ 0x01#8 ∧ v ≠ 0x02#8 ∧
      (pending [.writeCmd v] (idleWith aabbc)).hostOps = [.writeCmd v] ∧
      isStuck (pending [.writeCmd v] (idleWith aabbc)) = false ∧
      (pending [.writeCmd v] (idleWith aabbc)).status ≠ .busy ∧
      ilenFits (pending [.writeCmd v] (idleWith aabbc)) = true := by decide

theorem wit_CommandWhileBusyIgnored :
    ∀ v ∈ [0x00#8, 0x01#8, 0x02#8], (pending [.writeCmd v] running).hostOps = [.writeCmd v] ∧
      isStuck (pending [.writeCmd v] running) = false ∧ (pending [.writeCmd v] running).status = .busy :=
  fun _ _ => ⟨rfl, running_live, rfl⟩

/-- One byte more than IBUF holds; the first index past either buffer, and the first that is too wide; the first number past
the registers. -/
theorem wit_OutOfRangeIsRefused :
    (∀ e : HostEvent, (capped 4 8 (pending [e] (idleWith aabbc))).hostOps = [e]) ∧
    (∀ e : HostEvent, isStuck (capped 4 8 (pending [e] (idleWith aabbc))) = false) ∧
    ((capped 4 8 (pending [.writeCmd 0x01#8] (idleWith aabbc))).status ≠ .busy ∧
      (capped 4 8 (pending [.writeCmd 0x01#8] (idleWith aabbc))).params.ibufCap = some 4 ∧
      4 < (capped 4 8 (pending [.writeCmd 0x01#8] (idleWith aabbc))).ilen.toNat) ∧
    ((capped 4 8 (idleWith [])).params.ibufCap = some 4 ∧ (4 ≤ 4 ∧ 2 ^ 32 ≤ 0x100000000)) ∧
    ((capped 4 8 (idleWith [])).params.obufCap = some 8 ∧ (8 ≤ 8 ∧ 2 ^ 64 ≤ 0x10000000000000000)) ∧ 6 ≤ 6 :=
  ⟨fun _ => rfl, fun _ => aabbc_live, by decide, by decide, by decide, by decide⟩

/-- A running state that meets the invariant, with its input filling IBUF. -/
theorem running_inv_nil : Inv (capped 5 8 running) where
  ibufWf := by decide
  obufWf := by decide
  phaseLegal := by decide
  busyIff := by decide
  errIff := by decide
  stageIff := by decide
  noInputUnavailable := by decide
  olenZero := fun _ => ⟨rfl, rfl⟩
  outputThere := fun a h => by simp [capped, busyIn, idleWith, State.reset] at h
  ibufFits := by decide
  obufFits := by decide
  inputFits := by decide
  workInv := workInv_of _ _ (by decide) (by decide) (by decide) (by decide)

theorem running_inv (ops : List HostEvent) : Inv (capped 5 8 (pending ops running)) :=
  have h := running_inv_nil
  ⟨h.ibufWf, h.obufWf, h.phaseLegal, h.busyIff, h.errIff, h.stageIff, h.noInputUnavailable, h.olenZero, h.outputThere,
    h.ibufFits, h.obufFits, h.inputFits, h.workInv⟩

theorem wit_HostAccessWhileBusy :
    isStuck (capped 5 8 running) = false ∧ running.status = .busy ∧ ibufIndex (capped 5 8 running).params 4 = true ∧
    obufIndex (capped 5 8 running).params 7 = true ∧
    (∀ e : HostEvent, (pending [e] (capped 5 8 running)).hostOps = [e]) ∧
    Inv (capped 5 8 (pending [.readReg .err] running)) ∧ Inv (capped 5 8 (pending [.readReg .stage] running)) :=
  ⟨rfl, rfl, by decide, by decide, fun _ => rfl, running_inv _, running_inv _⟩

/-- The block after a command whose output was "AABBC" (five bytes, the last at index 4). -/
def doneAabbc : State :=
  { capped 5 8 (idleWith aabbc) with status := .done, obuf := memStore [] 0 aabbc, olen := 5#64 }

/-- The last index of the input and of the output, and the first past each; every register number. -/
theorem wit_HostReadsReturnRegisters :
    isStuck doneAabbc = false ∧ doneAabbc.status ≠ .busy ∧ (∀ e : HostEvent, (pending [e] doneAabbc).hostOps = [e]) ∧
    (ibufIndex doneAabbc.params 4 = true ∧ 4 < doneAabbc.ilen.toNat ∧ memRead doneAabbc.ibuf 4 = some 0x43#8) ∧
    (ibufIndex (capped 6 8 doneAabbc).params 5 = true ∧ (capped 6 8 doneAabbc).ilen.toNat ≤ 5) ∧
    (obufIndex doneAabbc.params 4 = true ∧ 4 < doneAabbc.olen.toNat ∧ memRead doneAabbc.obuf 4 = some 0x43#8) ∧
    (obufIndex doneAabbc.params 5 = true ∧ doneAabbc.olen.toNat ≤ 5) ∧
    (∀ r : HostReg, (r.number, r) ∈
      [(0, HostReg.cmd), (1, .status), (2, .err), (3, .stage), (4, .ilen), (5, .olen)]) ∧
    doneAabbc.status = .done ∧ doneAabbc.err = .noError ∧ doneAabbc.stage = .noStage :=
  ⟨by decide, by decide, fun _ => rfl, by decide, by decide, by decide, by decide, fun r => by cases r <;> decide, rfl, rfl, rfl⟩

/-- A busy and an idle block, with each write pending; a bus address that is one register's; the least values too wide. -/
theorem wit_HostWritesToRegisters :
    isStuck running = false ∧ isStuck doneAabbc = false ∧ doneAabbc.status ≠ .busy ∧
    (∀ e : HostEvent, (pending [e] running).hostOps = [e] ∧ (pending [e] doneAabbc).hostOps = [e]) ∧
    (∀ q, doneAabbc.params.regMap.addr q = 5 ↔ q = .olen) ∧
    2 ^ 32 ≤ (0x100000000#64).toNat ∧ 2 ^ 8 ≤ (0x100#64).toNat :=
  ⟨by decide, by decide, by decide, fun _ => ⟨rfl, rfl⟩, fun q => by cases q <;> decide, by decide, by decide⟩

/-- Five bytes into an IBUF of five, and no byte at all. -/
theorem wit_HostLoadSetsInput :
    ((capped 5 0 (pending (hostLoad aabbc) (idleWith []))).hostOps = hostLoad aabbc ++ [] ∧
      isStuck (capped 5 0 (pending (hostLoad aabbc) (idleWith []))) = false ∧
      (capped 5 0 (pending (hostLoad aabbc) (idleWith []))).status ≠ .busy ∧ aabbc.length < 2 ^ 32 ∧
      fitsCap aabbc.length (capped 5 0 (pending (hostLoad aabbc) (idleWith []))).params.ibufCap = true) ∧
    (pending (hostLoad []) (idleWith aabbc)).hostOps = hostLoad [] ++ [] := by decide

theorem wit_CountPhaseCountsInput :
    ilenFits (capped 5 0 (busyIn codeECount Work.zero aabbc)) = true ∧
    ilenFits (capped 0 0 (busyIn codeECount Work.zero [])) = true := by decide

theorem wit_CountsSumToLength :
    ilenFits (busyIn codeECount (clearWork Work.zero) aabbc) = true ∧
    ∀ b, freqOf (busyIn codeECount (clearWork Work.zero) aabbc).work.freq b = 0#32 :=
  ⟨by decide, fun b => freqOf_zeroFreq b⟩

theorem wit_FrequencyTableIsImmutable :
    ∃ t, exec .pEPack (busyIn codeEPack (withCodes codesAb) []) = .next t ∧ t.phase ≠ codeIdle :=
  ⟨_, rfl, by decide⟩

/-- FREQ of "AB", and of "A". -/
def freqAb : FreqTable := countByte (countByte zeroFreq 0x41#8) 0x42#8

theorem freqAb_pos (b : Byte) : 0#32 < freqOf freqAb b ↔ b = 0x41#8 ∨ b = 0x42#8 := by
  unfold freqAb
  rw [freqOf_countByte, freqOf_countByte, freqOf_zeroFreq]
  by_cases h1 : b = 0x41#8
  · subst h1; decide
  · by_cases h2 : b = 0x42#8
    · subst h2; decide
    · simp [h1, h2]

theorem wit_TreeInitCreatesLeaves :
    ([0x41#8, 0x42#8] : List Byte).Pairwise (· < ·) ∧ (∀ b, b ∈ [0x41#8, 0x42#8] ↔ 0#32 < freqOf freqAb b) ∧
    (∀ b, b ∈ [0x41#8] ↔ 0#32 < freqOf (countByte zeroFreq 0x41#8) b) ∧ Work.zero.pq.Pairwise (· < ·) := by
  refine ⟨by decide, fun b => by rw [freqAb_pos]; simp, fun b => ?_, List.Pairwise.nil⟩
  rw [freqOf_countByte, freqOf_zeroFreq]
  by_cases h : b = 0x41#8 <;> simp [h]

theorem wit_ExtractMinTakesLeast : ([0, 1] : List Slot) ≠ [] ∧ ([0, 1] : List Slot).Pairwise (· < ·) := by decide

/-- The first merge of "AABBC", and a merge that fills the last slot. -/
theorem wit_MergeJoinsTwoLeast :
    (workLeaves.pq.Pairwise (· < ·) ∧ 2 ≤ workLeaves.pq.length ∧ workLeaves.nnodes.toNat < 511) ∧
    ({ workLeaves with nnodes := 510#10, pq := [508, 509] }.pq.Pairwise (· < ·) ∧
      { workLeaves with nnodes := 510#10, pq := [508, 509] }.nnodes.toNat < 511) := by decide

theorem wit_TreeBuilderBuildsFullTree :
    1 ≤ (presentSymbols freqAb).length ∧ totalCount freqAb < 2 ^ 32 := by
  refine ⟨List.length_pos_of_mem ((mem_presentSymbols _ 0x41#8).2 ((freqAb_pos _).2 (.inl rfl))), ?_⟩
  have h : ∀ n ∈ allSymbols.map (fun s => (freqOf freqAb s).toNat), n ≤ 2 := by
    intro n hn
    obtain ⟨b, -, rfl⟩ := List.mem_map.1 hn
    unfold freqAb
    rw [freqOf_countByte, freqOf_countByte, freqOf_zeroFreq]
    by_cases h1 : b = 0x41#8 <;> by_cases h2 : b = 0x42#8 <;> simp_all
  have := List.sum_le_card_nsmul _ 2 h
  simp only [List.length_map, length_allSymbols] at this
  exact lt_of_le_of_lt this (by norm_num)

theorem wit_TreeWellFormedTest :
    workTree.nnodes.toNat ≤ 511 ∧ { workTree with nnodes := 511#10 }.nnodes.toNat ≤ 511 ∧
    { workTree with nnodes := 0#10 }.nnodes.toNat ≤ 511 := by decide

theorem wit_DeriveTrivialCode : treeWellFormed workTrivial = true ∧ workTrivial.trivial = true := by decide +kernel

/-- The tree of "AB" (V-T2). -/
def workAb : Work :=
  { clearWork Work.zero with
    nsym := 2#9, nnodes := 3#10, pq := [2], root := 2#9, node := arena [L 0x41#8 1#32, L 0x42#8 1#32, N 0#9 1#9 2#32] }

/-- A path from a leaf is empty. -/
theorem leafPath_leaf {nd : Arena} {i j : Nat} {β : Bits} (h : (nodeAt nd i).kind = .leaf) (p : LeafPath nd i β j) :
    β = [] ∧ j = i := by
  cases p with
  | leaf => exact ⟨rfl, rfl⟩
  | left _ _ _ h' _ => rw [h] at h'; exact absurd h' (by decide)
  | right _ _ _ h' _ => rw [h] at h'; exact absurd h' (by decide)

/-- The two paths of the tree of "AB". -/
theorem leafPath_ab {β : Bits} {j : Nat} (p : LeafPath workAb.node 2 β j) : (β = [false] ∧ j = 0) ∨ (β = [true] ∧ j = 1) := by
  cases p with
  | leaf _ h => exact absurd h (by decide +kernel)
  | left _ γ _ _ p =>
    have e : (nodeAt workAb.node 2).left.toNat = 0 := by decide +kernel
    rw [e] at p
    obtain ⟨rfl, rfl⟩ := leafPath_leaf (by decide +kernel) p
    exact .inl ⟨rfl, rfl⟩
  | right _ γ _ _ p =>
    have e : (nodeAt workAb.node 2).right.toNat = 1 := by decide +kernel
    rw [e] at p
    obtain ⟨rfl, rfl⟩ := leafPath_leaf (by decide +kernel) p
    exact .inr ⟨rfl, rfl⟩

theorem wit_DeriveGivesPathsAsCodes :
    treeWellFormed workAb = true ∧ workAb.trivial = false ∧
    (∀ β j, LeafPath workAb.node workAb.root.toNat β j →
      β.length ≤ 255 ∧ (codeOf workAb.code (nodeAt workAb.node j).sym).present = false) ∧
    (∀ β β' j j', LeafPath workAb.node workAb.root.toNat β j → LeafPath workAb.node workAb.root.toNat β' j' →
      (nodeAt workAb.node j).sym = (nodeAt workAb.node j').sym → β = β') := by
  refine ⟨by decide +kernel, rfl, ?_, ?_⟩
  · intro β j p
    rcases leafPath_ab p with ⟨rfl, rfl⟩ | ⟨rfl, rfl⟩
    · exact ⟨by decide, clearWork_noCodes _ _⟩
    · exact ⟨by decide, clearWork_noCodes _ _⟩
  · intro β β' j j' p p' h
    rcases leafPath_ab p with ⟨rfl, rfl⟩ | ⟨rfl, rfl⟩ <;> rcases leafPath_ab p' with ⟨rfl, rfl⟩ | ⟨rfl, rfl⟩
    · rfl
    · exact absurd h (by decide +kernel)
    · exact absurd h (by decide +kernel)
    · rfl

theorem wit_DerivedCodesArePrefixFree : presentSymbols freqAb ≠ [] :=
  List.ne_nil_of_mem ((mem_presentSymbols _ 0x41#8).2 ((freqAb_pos _).2 (.inl rfl)))

/-- "AB" for the two statements about its codes -/
theorem wit_DerivedCodesAreFull :
    (presentSymbols (countOf [0x41#8, 0x42#8])).length = 2 ∧ (huffmanCodes (countOf [0x41#8, 0x42#8])).isSome = true := by
  decide +kernel

theorem wit_PayloadBitCount :
    ([0x41#8, 0x42#8] : List Byte) ≠ [] ∧ ([0x41#8, 0x42#8] : List Byte).length < 2 ^ 32 ∧
    (presentSymbols (countOf [0x41#8, 0x42#8])).length ≤ 2 ∧ ∃ c, huffmanCodes (countOf [0x41#8, 0x42#8]) = some c :=
  ⟨by decide, by decide, by rw [wit_DerivedCodesAreFull.1], Option.isSome_iff_exists.1 wit_DerivedCodesAreFull.2⟩

/-- An empty packer, one bit before a byte is full, and two bits before. -/
theorem wit_PushKeepsPackerInvariant :
    (PackerInv (bpReset Work.zero) ∧ (bpReset Work.zero).tbits.toNat + 1 < 2 ^ 64 ∧ (bpReset Work.zero).nacc.toNat < 7) ∧
    (PackerInv { bpReset Work.zero with nacc := 7#3, tbits := 7#64, acc := 0xFE#8 } ∧
      { bpReset Work.zero with nacc := 7#3, tbits := 7#64, acc := 0xFE#8 }.nacc.toNat = 7) ∧
    (PackerInv { bpReset Work.zero with nacc := 6#3, tbits := 6#64, acc := 0xFC#8 } ∧
      { bpReset Work.zero with nacc := 6#3, tbits := 6#64, acc := 0xFC#8 }.nacc.toNat < 7) := by
  simp only [PackerInv]
  decide

theorem wit_StreamingPackerIsPack : ([] : Bits).length < 2 ^ 64 ∧ [true, false].length < 2 ^ 64 := by decide

theorem wit_PackPhasePacksPayload :
    ilenFits (busyIn codeEPack (withCodes codesAb) [0x41#8, 0x42#8]) = true ∧
    (∀ b ∈ input (busyIn codeEPack (withCodes codesAb) [0x41#8, 0x42#8]), (codeOf (withCodes codesAb).code b).present = true) ∧
    (payloadBits (withCodes codesAb).code (input (busyIn codeEPack (withCodes codesAb) [0x41#8, 0x42#8]))).length < 2 ^ 64 := by
  decide +kernel

theorem codesAb_of (b : Byte) : codeOf codesAb b =
    if b = 0x42#8 then { present := true, bits := [true] }
    else if b = 0x41#8 then { present := true, bits := [false] } else { present := false, bits := [] } := by
  unfold codesAb
  rw [codeOf_setCode, codeOf_setCode, codeOf_noCodes]

theorem wit_ArtifactHasFourParts :
    (([⟨0x41#8, [false], [0x00#8]⟩, ⟨0x42#8, [true], [0x80#8]⟩] : List TableEntry).Pairwise (fun d e => d.sym < e.sym) ∧
      (∀ b, (codeOf codesAb b).present = true ↔
        ∃ e ∈ ([⟨0x41#8, [false], [0x00#8]⟩, ⟨0x42#8, [true], [0x80#8]⟩] : List TableEntry), e.sym = b) ∧
      (∀ e ∈ ([⟨0x41#8, [false], [0x00#8]⟩, ⟨0x42#8, [true], [0x80#8]⟩] : List TableEntry),
        e.bits = (codeOf codesAb e.sym).bits ∧ e.codeBytes = pack e.bits)) ∧
    ((clearWork Work.zero).nsym = 0#9 ∧ NoCodes (clearWork Work.zero).code ∧ (clearWork Work.zero).tbits = 0#64 ∧
      (clearWork Work.zero).pbuf = []) := by
  refine ⟨⟨by decide, fun b => ?_, by decide +kernel⟩, rfl, clearWork_noCodes _, rfl, rfl⟩
  rw [codesAb_of]
  by_cases h2 : b = 0x42#8
  · subst h2; simp
  · by_cases h1 : b = 0x41#8
    · subst h1; simp
    · simp [h1, h2, Ne.symm h1, Ne.symm h2]

/-- Twenty bytes into an OBUF of twenty, five into one of five. -/
theorem wit_EmitPhasesWriteOutput :
    fitsCap (artifact (capped 0 20 (busyIn codeEEmit workPacked [])).work).length
      (capped 0 20 (busyIn codeEEmit workPacked [])).params.obufCap = true ∧
    fitsCap (capped 0 5 (busyIn codeDEmit { Work.zero with dbuf := aabbc } [])).work.dbuf.length
      (capped 0 5 (busyIn codeDEmit { Work.zero with dbuf := aabbc } [])).params.obufCap = true := by
  have e : (capped 0 20 (busyIn codeEEmit workPacked [])).work = workPacked := rfl
  rw [e, artifact_packed]
  decide

theorem wit_EmitPhasesRefuseLongOutput :
    ((capped 0 19 (busyIn codeEEmit workPacked [])).params.obufCap = some 19 ∧
      19 < (artifact (capped 0 19 (busyIn codeEEmit workPacked [])).work).length) ∧
    ((capped 0 4 (busyIn codeDEmit { Work.zero with dbuf := aabbc } [])).params.obufCap = some 4 ∧
      4 < (capped 0 4 (busyIn codeDEmit { Work.zero with dbuf := aabbc } [])).work.dbuf.length) := by
  have e : (capped 0 19 (busyIn codeEEmit workPacked [])).work = workPacked := rfl
  rw [e, artifact_packed]
  decide

/-- One entry, with padding that is not zero, and bytes after the table; and no entry at all. -/
theorem wit_ParseAcceptsLegalTable :
    NoCodes (withCodes noCodes).code ∧
    HoldsTable (input (busyIn codeDParse (withCodes noCodes) [0#8, 1#8, 0x41#8, 1#8, 0x7F#8, 9#8]))
      [⟨0x41#8, [false], [0x7F#8]⟩] [9#8] ∧
    HoldsTable (input (busyIn codeDParse (withCodes noCodes) [0#8, 0#8])) [] [] := by
  refine ⟨noCodes_noCodes, ⟨by decide +kernel, by decide, ?_, by simp⟩, ⟨by decide +kernel, by decide, by simp, by simp⟩⟩
  intro e he
  rw [List.mem_singleton.1 he]
  exact ⟨by decide, by decide, by decide, by decide⟩

theorem wit_ParseRejectsEverythingElse :
    ilenFits (busyIn codeDParse (withCodes noCodes) [0#8]) = true ∧
    ¬ ∃ es rest, HoldsTable (input (busyIn codeDParse (withCodes noCodes) [0#8])) es rest := by
  refine ⟨by decide, ?_⟩
  rintro ⟨es, rest, h, -⟩
  have := congrArg List.length h
  simp [input, busyIn, idleWith, u16be] at this

theorem wit_ParsedTableIsWellFormed :
    NoCodes noCodes ∧ (∃ n c p, parseTable artBbb noCodes = some (n, c, p)) ∧
    ∃ n c p, parseTable [0#8, 0#8] noCodes = some (n, c, p) := by
  refine ⟨noCodes_noCodes, ?_, 0, noCodes, 2, by simp [parseTable, entryCount, byteAt, be16, parseEntries]⟩
  cases h : parseTable artBbb noCodes with
  | none =>
    have d := test_decode_function
    unfold decodeFn at d
    rw [h] at d
    exact absurd d (by decide)
  | some x => exact ⟨x.1, x.2.1, x.2.2, rfl⟩

theorem codesAb_wf : TableWf codesAb := by
  refine ⟨fun s h => ?_, fun s t hst hs ht => ?_⟩
  · rw [codesAb_of] at *
    by_cases h1 : s = 0x42#8 <;> by_cases h2 : s = 0x41#8 <;> simp_all
  · rw [codesAb_of] at hs ht
    rw [codesAb_of, codesAb_of]
    by_cases h1 : s = 0x42#8 <;> by_cases h2 : s = 0x41#8 <;> by_cases h3 : t = 0x42#8 <;> by_cases h4 : t = 0x41#8 <;>
      simp_all <;> decide

theorem wit_SerializedTableParsesBack : TableWf codesAb := codesAb_wf

/-- No bit in no byte, and nine bits in two. -/
theorem wit_UnpackPhaseReadsPayload :
    (input (busyIn codeDUnpack { withCodes noCodes with ppos := 2#33 } ([0#8, 0#8] ++ u64be 0#64)) = [0#8, 0#8] ++ u64be 0#64 ++ [] ∧
      ([] : List Byte).length = ((0#64).toNat + 7) / 8) ∧
    (input (busyIn codeDUnpack { withCodes codesAb with ppos := 2#33 } ([0#8, 0#8] ++ u64be 9#64 ++ [0xFF#8, 0x80#8])) =
        [0#8, 0#8] ++ u64be 9#64 ++ [0xFF#8, 0x80#8] ∧
      [0xFF#8, 0x80#8].length = ((9#64).toNat + 7) / 8) := by decide +kernel

/-- Seven bytes where eight are needed; one byte too few and one too many. -/
theorem wit_UnpackPhaseRejectsWrongLength :
    ((busyIn codeDUnpack { withCodes codesAb with ppos := 2#33 } [0#8, 0#8, 0#8, 0#8, 0#8, 0#8, 0#8, 0#8, 0#8]).ilen.toNat < 2 + 8) ∧
    (input (busyIn codeDUnpack { withCodes codesAb with ppos := 2#33 } ([0#8, 0#8] ++ u64be 9#64 ++ [0xFF#8])) =
        [0#8, 0#8] ++ u64be 9#64 ++ [0xFF#8] ∧ [0xFF#8].length ≠ ((9#64).toNat + 7) / 8) ∧
    (input (busyIn codeDUnpack { withCodes codesAb with ppos := 2#33 } ([0#8, 0#8] ++ u64be 8#64 ++ [0xFF#8, 0#8])) =
        [0#8, 0#8] ++ u64be 8#64 ++ [0xFF#8, 0#8] ∧ [0xFF#8, 0#8].length ≠ ((8#64).toNat + 7) / 8) := by decide +kernel

theorem wit_GreedyMatchingIsExact :
    TableWf codesAb ∧ (∀ y ∈ [0x42#8, 0x41#8], (codeOf codesAb y).present = true) ∧
    [true, false] = payloadBits codesAb [0x42#8, 0x41#8] ∧ (2#64).toNat = [true, false].length :=
  ⟨codesAb_wf, by decide +kernel, by decide +kernel, by decide⟩

/-- A table of one code "0" and the bit 1. -/
theorem wit_UnmatchedBitsAreRejected :
    TableWf (setCode noCodes 0x41#8 [false]) ∧
    ∀ ys : List Byte, (∀ y ∈ ys, (codeOf (setCode noCodes 0x41#8 [false]) y).present = true) →
      [true] ≠ payloadBits (setCode noCodes 0x41#8 [false]) ys := by
  refine ⟨⟨fun s h => ?_, fun s t hst hs ht => ?_⟩, fun ys h e => ?_⟩
  · rw [codeOf_setCode] at *
    split at h <;> simp_all
  · rw [codeOf_setCode] at hs ht
    by_cases h1 : s = 0x41#8 <;> by_cases h2 : t = 0x41#8 <;> simp_all
  · cases ys with
    | nil => simp [payloadBits] at e
    | cons y ys =>
      have hy := h y (by simp)
      rw [codeOf_setCode] at hy
      by_cases h1 : y = 0x41#8
      · subst h1
        simp [payloadBits, codeOf_setCode] at e
      · simp [h1] at hy

/-- A tree of two leaves with the same Symbol. -/
def workTwice : Work :=
  { clearWork Work.zero with
    nsym := 2#9, nnodes := 3#10, pq := [2], root := 2#9, node := arena [L 0x41#8 1#32, L 0x41#8 1#32, N 0#9 1#9 2#32] }

/-- The two leaves below the root of an arena. -/
theorem leafPath_children {nd : Arena} {i j k : Nat} (hi : (nodeAt nd i).kind = .internal)
    (hj : (nodeAt nd i).left.toNat = j) (hk : (nodeAt nd i).right.toNat = k) (kj : (nodeAt nd j).kind = .leaf)
    (kk : (nodeAt nd k).kind = .leaf) : LeafPath nd i [false] j ∧ LeafPath nd i [true] k :=
  ⟨.left i [] j hi (hj ▸ .leaf j kj), .right i [] k hi (hk ▸ .leaf k kk)⟩

/-- The sites: no key; NNODES = 0; a leaf whose Symbol has a code already; two leaves with one Symbol; an input byte without
a code. -/
theorem wit_InternalTreeFaultSites :
    (∀ b, freqOf (clearWork Work.zero).freq b = 0#32) ∧ treeWellFormed (clearWork Work.zero) = false ∧
    ((workAb.trivial = false ∧ ∃ β j, LeafPath workAb.node workAb.root.toNat β j ∧
      (codeOf codesAb (nodeAt workAb.node j).sym).present = true)) ∧
    (treeWellFormed workTwice = true ∧ workTwice.trivial = false ∧
      ∃ β β' j j', LeafPath workTwice.node workTwice.root.toNat β j ∧ LeafPath workTwice.node workTwice.root.toNat β' j' ∧
        β ≠ β' ∧ (nodeAt workTwice.node j).sym = (nodeAt workTwice.node j').sym) ∧
    (ilenFits (busyIn codeEPack (withCodes noCodes) aabbc) = true ∧
      ∃ b ∈ input (busyIn codeEPack (withCodes noCodes) aabbc), (codeOf noCodes b).present = false) := by
  have h : LeafPath workAb.node 2 [false] 0 ∧ LeafPath workAb.node 2 [true] 1 :=
    leafPath_children (by decide +kernel) (by decide +kernel) (by decide +kernel) (by decide +kernel) (by decide +kernel)
  have h2 : LeafPath workTwice.node 2 [false] 0 ∧ LeafPath workTwice.node 2 [true] 1 :=
    leafPath_children (by decide +kernel) (by decide +kernel) (by decide +kernel) (by decide +kernel) (by decide +kernel)
  exact ⟨fun b => freqOf_zeroFreq b, by decide, ⟨rfl, [false], 0, h.1, by decide +kernel⟩,
    ⟨by decide +kernel, rfl, [false], [true], 0, 1, h2.1, h2.2, by decide, by decide +kernel⟩,
    by decide, 0x41#8, by decide +kernel, noCodes_noCodes _⟩

theorem wit_ErrorsAreRaisedWhereListed :
    (∃ t, exec .pDParse (busyIn codeDParse (withCodes noCodes) [0#8]) = .next t ∧ t.status = .error) ∧
    (∃ t, exec .pDUnpack (busyIn codeDUnpack (withCodes noCodes) [0#8]) = .next t ∧ t.status = .error) ∧
    (∃ t, exec .pDEmit (capped 0 4 (busyIn codeDEmit { Work.zero with dbuf := aabbc } [])) = .next t ∧ t.status = .error) ∧
    (∃ t, exec .pEDerive (busyIn codeEDerive Work.zero []) = .next t ∧ t.status = .error) :=
  ⟨⟨_, rfl, rfl⟩, ⟨_, rfl, rfl⟩, ⟨_, rfl, rfl⟩, ⟨_, rfl, rfl⟩⟩

theorem wit_TransitionsFollowTable :
    (∃ t, exec .pEPack (busyIn codeEPack (withCodes noCodes) []) = .next t) ∧
    (∃ t, exec .pIdle (idleWith []) = .next t) ∧ (idleWith []).phase = codeIdle ∧ (∃ t, exec .encode running = .next t) :=
  ⟨⟨_, rfl⟩, ⟨_, rfl⟩, rfl, ⟨_, rfl⟩⟩

theorem wit_OperationsLeaveInput : ∃ t, exec .encode (idleWith aabbc) = .next t := ⟨_, rfl⟩

theorem wit_OnlyEmitWritesOutput :
    (∃ t, exec .pDEmit (busyIn codeDEmit { Work.zero with dbuf := aabbc } []) = .next t ∧ t.status = .done ∧
      memRead t.obuf 4 = some 0x43#8) ∧
    (∃ t, exec .pDParse (busyIn codeDParse Work.zero [0#8]) = .next t ∧
      (busyIn codeDParse Work.zero [0#8]).status ≠ .error ∧ t.status = .error) :=
  ⟨⟨_, rfl, rfl, rfl⟩, ⟨_, rfl, by decide, rfl⟩⟩

/-- Each of the four stops: five bytes in an IBUF of four, one element in PQ, a full arena, one bit missing. -/
theorem wit_OperationsStopOnlyWhereNoRuleApplies :
    exec .pECount (capped 4 0 (busyIn codeECount Work.zero aabbc)) = .fault .inputBeyondCapacity ∧
    exec .pETbMerge (busyIn codeETbMerge { workLeaves with pq := [0] } []) = .fault .mergeNeedsTwo ∧
    (match exec .pETbMerge (busyIn codeETbMerge { workLeaves with nnodes := 511#10 } []) with
      | .fault .arenaFull => true
      | _ => false) = true ∧
    exec .pDMatch (busyIn codeDMatch { Work.zero with tbits := 1#64 } []) = .fault .unpackedBitsMissing :=
  ⟨rfl, rfl, by decide +kernel, rfl⟩

theorem wit_WorkingStateIsHidden :
    (pending [.writeCmd 0x01#8] (idleWith aabbc)).status ≠ .busy ∧
    (pending [.writeCmd 0x01#8] (idleWith aabbc)).phase = codeIdle ∧
    ∃ t, step (pending [.writeCmd 0x01#8] (idleWith aabbc)) = .next t := ⟨by decide, rfl, _, rfl⟩

theorem wit_EveryStepKeepsInvariant :
    (∃ t, step (capped 5 8 (pending [.readReg .err] running)) = .next t) ∧ Inv (capped 5 8 (pending [.readReg .err] running)) :=
  ⟨⟨_, rfl⟩, running_inv _⟩

/-- No operation pending; a command while BUSY; a read at the last index of IBUF. -/
theorem wit_DisciplinedMachineNeverStops :
    (Inv (capped 5 8 (pending [] running)) ∧ ∀ e rest, (capped 5 8 (pending [] running)).hostOps = e :: rest → False) ∧
    (Inv (capped 5 8 (pending [.writeCmd 0x01#8] running)) ∧ allowed (.writeCmd 0x01#8) (capped 5 8 (pending [.writeCmd 0x01#8] running))) ∧
    (Inv (capped 5 8 (pending [.readIbuf 4] running)) ∧ allowed (.readIbuf 4) (capped 5 8 (pending [.readIbuf 4] running))) ∧
    (Inv (capped 5 8 (pending [.writeRegAt 0 0#64] running)) ∧
      allowed (.writeRegAt 0 0#64) (capped 5 8 (pending [.writeRegAt 0 0#64] running))) :=
  ⟨⟨running_inv _, by intro e rest h; cases h⟩, ⟨running_inv _, rfl, .inl rfl⟩, ⟨running_inv _, rfl, True.intro⟩,
    ⟨running_inv _, rfl, fun r h => by cases h; exact .inl rfl⟩⟩

/-- The empty input, whose ten bytes fit an OBUF of ten and not one of nine. -/
theorem wit_EncodeCommandComputesEncode :
    isStuck (capped 0 10 (pending [.writeCmd 0x01#8] (idleWith []))) = false ∧
    (pending [.writeCmd 0x01#8] (idleWith [])).status ≠ .busy ∧ ilenFits (capped 0 10 (pending [.writeCmd 0x01#8] (idleWith []))) = true ∧
    encodeFn (input (capped 0 10 (pending [.writeCmd 0x01#8] (idleWith [])))) = some (List.replicate 10 0#8) ∧
    fitsCap (List.replicate 10 0#8).length (some 10) = true ∧ fitsCap (List.replicate 10 0#8).length (some 9) = false := by
  decide +kernel

/-- An artifact of three bytes "BBB" (V-A4), with room for three and for two; and an input that is no artifact. -/
theorem wit_DecodeCommandComputesDecode :
    (∀ i o, (capped i o (pending [.writeCmd 0x02#8] (idleWith artBbb))).hostOps = [.writeCmd 0x02#8]) ∧
    isStuck (capped 14 3 (pending [.writeCmd 0x02#8] (idleWith artBbb))) = false ∧
    (capped 14 3 (pending [.writeCmd 0x02#8] (idleWith artBbb))).status ≠ .busy ∧
    ilenFits (capped 14 3 (pending [.writeCmd 0x02#8] (idleWith artBbb))) = true ∧
    input (capped 14 3 (pending [.writeCmd 0x02#8] (idleWith artBbb))) = artBbb ∧
    fitsCap [0x42#8, 0x42#8, 0x42#8].length (some 3) = true ∧ fitsCap [0x42#8, 0x42#8, 0x42#8].length (some 2) = false ∧
    (match decodeFn (input (pending [.writeCmd 0x02#8] (idleWith [0#8]))) with | .ok _ => false | .error st => st == .tableParse) = true :=
  ⟨fun _ _ => rfl, by decide, by decide, by decide, by decide +kernel, by decide, by decide, by decide +kernel⟩

theorem wit_RoundTrip : ([] : List Byte).length < 2 ^ 32 ∧ aabbc.length < 2 ^ 32 := by decide

end Sys2Proof.Tests
end

section
/-! Proofs of the statements of 00_scope.md: the big-endian integers of an artifact, and the host's writes to the registers. -/

namespace Sys2Proof.Machine

/-! The big-endian integers (R17, R65). -/

/-- Byte number k of a word, counted from the least significant one. -/
theorem toNat_extractLsb'_byte {n : Nat} (v : BitVec n) (k : Nat) :
    (v.extractLsb' (8 * k) 8).toNat = v.toNat / 256 ^ k % 256 := by
  rw [BitVec.extractLsb'_toNat, Nat.shiftRight_eq_div_pow, Nat.pow_mul]

theorem u16be_eq (v : BitVec 16) : u16be v = [v.extractLsb' (8 * 1) 8, v.extractLsb' (8 * 0) 8] := rfl

@[simp] theorem length_u64be (v : BitVec 64) : (u64be v).length = 8 := rfl

theorem getElem_u64be (v : BitVec 64) {k : Nat} (h : k < (u64be v).length) :
    (u64be v)[k] = v.extractLsb' (8 * (7 - k)) 8 := by
  have hk : k < 8 := h
  interval_cases k <;> rfl

theorem toNat_getElem_u64be (v : BitVec 64) {k : Nat} (h : k < (u64be v).length) :
    (u64be v)[k].toNat = v.toNat / 256 ^ (7 - k) % 256 := by
  rw [getElem_u64be, toNat_extractLsb'_byte]

/-- be64 looks at no byte past the eighth. -/
theorem be64_append {bs : List Byte} (h : bs.length = 8) (rest : List Byte) : be64 (bs ++ rest) = be64 bs := by
  rw [be64, be64, List.take_left' h, List.take_of_length_le h.le]

/-- The weights of the eight bytes: Horner's rule multiplied out. -/
theorem be64_eq_sum (b0 b1 b2 b3 b4 b5 b6 b7 : Byte) :
    be64 [b0, b1, b2, b3, b4, b5, b6, b7] =
      b0.toNat * 256 ^ 7 + b1.toNat * 256 ^ 6 + b2.toNat * 256 ^ 5 + b3.toNat * 256 ^ 4 + b4.toNat * 256 ^ 3 +
        b5.toNat * 256 ^ 2 + b6.toNat * 256 + b7.toNat := by
  simp only [be64, List.take, List.foldl]
  ring

/-- A number is the sum of its digits to the base 256 by their weights. -/
theorem be64_u64be (v : BitVec 64) : be64 (u64be v) = v.toNat := by
  have hlt : v.toNat < 256 ^ 8 := v.isLt
  have digit (k : Nat) := toNat_extractLsb'_byte v k
  rw [u64be, be64_eq_sum, digit 7, digit 6, digit 5, digit 4, digit 3, digit 2, digit 1, digit 0]
  omega

/-! A step with a host's access pending, in a block that is not stuck. -/

section
variable {s : State} {rest : List HostEvent}

theorem step_cons_live (e : HostEvent) (rest : List HostEvent) (hs : isStuck s = false) :
    step { s with hostOps := e :: rest } = hostAction e { s with hostOps := rest } :=
  step_live (s := { s with hostOps := e :: rest }) rfl hs

theorem step_writeRegAt {r : HostReg} {v : BitVec 64} (h : s.hostOps = .writeRegAt r.number v :: rest)
    (hs : isStuck s = false) : step s = writeRegister r v { s with hostOps := rest } := by
  rw [step_live h hs, hostAction, ofNumber_number, writeAddressed]

/-- A read at a bus address that REG_MAP gives to one register is the read of that register. -/
theorem step_readBus {r : HostReg} {a : Nat} (hr : ∀ q, s.params.regMap.addr q = a ↔ q = r)
    (h : s.hostOps = .readBus a :: rest) (hs : isStuck s = false) :
    step s = step { s with hostOps := .readReg r :: rest } := by
  rw [step_live h hs, hostAction, find_of_unique hr, readAddressed, step_cons_live _ _ hs, hostAction]

/-- A write at such an address is the write to that register's number. -/
theorem step_writeBus {r : HostReg} {a : Nat} {v : BitVec 64} (hr : ∀ q, s.params.regMap.addr q = a ↔ q = r)
    (h : s.hostOps = .writeBus a v :: rest) (hs : isStuck s = false) :
    step s = step { s with hostOps := .writeRegAt r.number v :: rest } := by
  rw [step_live h hs, hostAction, find_of_unique hr, step_cons_live _ _ hs, hostAction, ofNumber_number]

end

/-! What an addressed write does with its value: of the register's width it is the value written, else some value (log entry 20). -/

theorem writeLength_idle {s : State} (h : s.status ≠ .busy) (n : BitVec 32) : writeLength n s = .next { s with ilen := n } := by
  rw [writeLength, (isBusy_eq_false_iff s).2 h]
  rfl

theorem writeRegister_cmd_setWidth (c : BitVec 8) (s : State) : writeRegister .cmd (c.setWidth 64) s = writeCommand c s := by
  obtain ⟨hv, hd⟩ := hostValue_takes (takes_setWidth .cmd c (by decide)) s
  rw [writeRegister, hv, hd, BitVec.setWidth_setWidth_of_le c (by decide), BitVec.setWidth_eq]

theorem writeRegister_ilen_setWidth (n : BitVec 32) (s : State) : writeRegister .ilen (n.setWidth 64) s = writeLength n s := by
  obtain ⟨hv, hd⟩ := hostValue_takes (takes_setWidth .ilen n (by decide)) s
  rw [writeRegister, hv, hd, BitVec.setWidth_setWidth_of_le n (by decide), BitVec.setWidth_eq]

theorem exists_writeRegister_cmd (v : BitVec 64) (s : State) :
    ∃ d k, writeRegister .cmd v s = writeCommand d { s with frees := k } := by
  obtain ⟨k, hk⟩ := drawHostValue_eq .cmd v s
  exact ⟨_, k, by rw [writeRegister, hk]⟩

theorem exists_writeRegister_ilen (v : BitVec 64) (s : State) :
    ∃ n k, writeRegister .ilen v s = writeLength n { s with frees := k } := by
  obtain ⟨k, hk⟩ := drawHostValue_eq .ilen v s
  exact ⟨_, k, by rw [writeRegister, hk]⟩

/-- Settles O33: each byte is a digit to the base 256, and a number is the sum of its digits by their weights. -/
theorem integersRoundTrip : Obligations.IntegersRoundTrip := by
  refine ⟨fun v => ⟨_, _, u16be_eq v, ?_⟩, fun v rest => ⟨length_u64be v, fun k h => toNat_getElem_u64be v h, ?_⟩,
    fun _ _ => rfl, be64_eq_sum⟩
  · have hlt : v.toNat < 256 ^ 2 := v.isLt
    rw [be16, toNat_extractLsb'_byte, toNat_extractLsb'_byte]
    omega
  · rw [be64_append (length_u64be v), be64_u64be]

/-- Settles O13, clause by clause: read-only registers, ILEN and CMD with a value of their width and with a wider one, the bus. -/
theorem hostWritesToRegisters : Obligations.HostWritesToRegisters := by
  intro s rest v w e l n c hs
  refine ⟨?named, ?numbered, ?length, fun h => ?command, fun h _ hb => ?wideLength, fun h _ => ?wideCommand,
    fun r a hr => ⟨fun h => step_readBus hr h hs, fun h => step_writeBus hr h hs⟩⟩
  case named => rintro (h | h | h | h) <;> exact step_live h hs
  case numbered =>
    rintro (h | h | h | h)
    · exact step_writeRegAt (r := .status) h hs
    · exact step_writeRegAt (r := .err) h hs
    · exact step_writeRegAt (r := .stage) h hs
    · exact step_writeRegAt (r := .olen) h hs
  case length =>
    rintro (h | h) hb
    · rw [step_live h hs, hostAction, writeLength_idle]; exact hb
    · rw [step_writeRegAt (r := .ilen) h hs, writeRegister_ilen_setWidth, writeLength_idle]; exact hb
  case command =>
    rw [step_writeRegAt (r := .cmd) h hs, writeRegister_cmd_setWidth, step_cons_live _ _ hs, hostAction]
  case wideLength =>
    obtain ⟨m, k, hm⟩ := exists_writeRegister_ilen l { s with hostOps := rest }
    exact ⟨m, k, by rw [step_writeRegAt (r := .ilen) h hs, hm, writeLength_idle]; exact hb⟩
  case wideCommand =>
    obtain ⟨d, k, hd⟩ := exists_writeRegister_cmd l { s with hostOps := rest }
    have hc := step_cons_live (s := { s with frees := k }) (.writeCmd d) rest hs
    exact ⟨d, k, by rw [step_writeRegAt (r := .cmd) h hs, hd]; exact hc.symm⟩

end Sys2Proof.Machine
end

section
/-! Proofs of the statements of 10_state.md: what an operation answers (10_state.md R31, R28, R33). -/

namespace Sys2Proof.Machine

/-- The next states an operation can answer, by the shared operation that makes them and with the phases R31 lists for it:
`exec_answer` says that there are no others. -/
inductive Answer (i : Instr) (s : State) : State → Prop
  | unchanged (h : i = .pIdle ∨ s.status = .busy ∧ (i = .encode ∨ i = .decode)) : Answer i s s
  | accepted (c : BitVec 4) (h : c ∈ successors i) : Answer i s (accept c s)
  | goesOn (c : BitVec 4) (w : Work) (h : c ∈ successors i) : Answer i s (goto c w s)
  | raised (e : ErrCode) (st : Stage) (h : codeIdle ∈ successors i) : Answer i s (raise e st s)
  | finished (A : List Byte) (h : i = .pEEmit ∨ i = .pDEmit) : Answer i s (finish A s)

theorem emitOutput_answer {i : Instr} (h : i = .pEEmit ∨ i = .pDEmit) (A : List Byte) (s : State) :
    Answer i s (emitOutput A s) := by
  rcases emitOutput_cases A s with ⟨-, e⟩ | ⟨-, e⟩ <;> rw [e]
  · exact .finished A h
  · exact .raised _ _ (by rcases h with rfl | rfl <;> decide)

theorem exec_answer {i : Instr} {s t : State} (h : exec i s = .next t) : Answer i s t := by
  cases i <;> simp only [exec] at h
  case encode =>
    rcases issue_next h with ⟨hb, rfl⟩ | ⟨-, -, rfl⟩
    · exact .unchanged (.inr ⟨hb, .inl rfl⟩)
    · exact .accepted _ (by decide)
  case decode =>
    rcases issue_next h with ⟨hb, rfl⟩ | ⟨-, -, rfl⟩
    · exact .unchanged (.inr ⟨hb, .inr rfl⟩)
    · exact .accepted _ (by decide)
  case pIdle => injection h with h; exact h ▸ .unchanged (.inl rfl)
  case pECount =>
    obtain ⟨-, rfl⟩ := execPECount_next h
    exact .goesOn _ _ (by split <;> decide)
  case pETbInit =>
    rcases execPETbInit_next h with rfl | rfl | ⟨-, -, rfl⟩
    · exact .raised _ _ (by decide)
    · exact .goesOn _ _ (by decide)
    · exact .goesOn _ _ (by decide)
  case pETbMerge =>
    obtain ⟨w, last, -, rfl⟩ := execPETbMerge_next h
    exact .goesOn _ _ (by cases last <;> decide)
  case pEDerive =>
    rcases execPEDerive_next h with ⟨-, rfl⟩ | ⟨c, -, rfl⟩
    · exact .raised _ _ (by decide)
    · exact .goesOn _ _ (by decide)
  case pEPack =>
    rcases execPEPack_next h with ⟨-, ⟨-, rfl⟩ | ⟨w, -, rfl⟩⟩
    · exact .raised _ _ (by decide)
    · exact .goesOn _ _ (by decide)
  case pEEmit => exact execPEEmit_next h ▸ emitOutput_answer (.inl rfl) _ s
  case pDParse =>
    rcases execPDParse_next h with ⟨-, ⟨-, rfl⟩ | ⟨n, c, p, -, rfl⟩⟩
    · exact .raised _ _ (by decide)
    · exact .goesOn _ _ (by decide)
  case pDUnpack =>
    rcases execPDUnpack_next h with ⟨-, ⟨-, rfl⟩ | ⟨T, u, c, -, hc, rfl⟩⟩
    · exact .raised _ _ (by decide)
    · exact .goesOn _ _ (by rcases hc with rfl | rfl <;> decide)
  case pDMatch =>
    rcases execPDMatch_next h with ⟨-, ⟨out, -, rfl⟩ | ⟨b, cand, out, -, rfl⟩⟩
    · exact .goesOn _ _ (by decide)
    · exact .raised _ _ (by decide)
  case pDEmit => exact execPDEmit_next h ▸ emitOutput_answer (.inr rfl) _ s

/-- Settles O50: the answer's kind decides PHASE. -/
theorem transitionsFollowTable : Obligations.TransitionsFollowTable := by
  intro i s t h hidle
  cases exec_answer h with
  | unchanged hi =>
    rcases hi with rfl | ⟨hb, hi⟩
    · exact .inl (by rw [hidle rfl]; decide)
    · exact .inr ⟨hb, rfl, hi⟩
  | accepted c hc => exact .inl hc
  | goesOn c w hc => exact .inl hc
  | raised e st hc => exact .inl hc
  | finished A hi => exact .inl (by rw [finish_phase]; rcases hi with rfl | rfl <;> decide)

/-- Settles O51: no shared operation that makes a next state writes the input or the host's bookkeeping. -/
theorem operationsLeaveInput : Obligations.OperationsLeaveInput := by
  intro i s t h
  cases exec_answer h <;> exact ⟨rfl, rfl, rfl, rfl, rfl, rfl⟩

/-- Settles O52: only `finish` stores into OBUF, at the end of an EMIT phase; `raise` empties it. -/
theorem onlyEmitWritesOutput : Obligations.OnlyEmitWritesOutput := by
  intro i s t h
  cases exec_answer h with
  | unchanged => exact ⟨fun _ _ hr => .inl hr, fun hs ht => absurd ht hs⟩
  | accepted => exact ⟨fun _ _ hr => by simp at hr, fun _ ht => by simp at ht⟩
  | goesOn => exact ⟨fun _ _ hr => .inl hr, fun hs ht => absurd ht hs⟩
  | raised => exact ⟨fun _ _ hr => by simp at hr, fun _ _ => ⟨rfl, fun _ => rfl⟩⟩
  | finished A hi => exact ⟨fun _ _ _ => .inr ⟨hi, rfl⟩, fun _ ht => by simp at ht⟩

end Sys2Proof.Machine
end

section
/-! Proofs of the statements of 10_state.md: the tree builder's steps, which the invariant and ENCODE rest on (41_tree_builder.md). -/

namespace Sys2Proof.Machine

/-! The leaves P_E_TB_INIT places (R122). -/

theorem nodeAt_setIfInBounds (nd : Arena) {i : Nat} (h : i < 511) (n : Node) (k : Nat) :
    nodeAt (nd.setIfInBounds i n) k = if k = i then n else nodeAt nd k := by
  have e : nd.setIfInBounds i n = nd.set i n h := by ext; simp [Vector.getElem_setIfInBounds, Vector.getElem_set]
  rw [e, nodeAt_set]

/-- The leaf loop writes NODE and PQ only. -/
theorem placeLeaves_eq (f : FreqTable) (ss : List Byte) (k : Nat) (w : Work) :
    placeLeaves f ss k w = { w with node := (placeLeaves f ss k w).node, pq := (placeLeaves f ss k w).pq } := by
  induction ss generalizing k w with
  | nil => rfl
  | cons s ss ih => rw [placeLeaves, ih]

theorem nodeAt_placeLeaves (f : FreqTable) (ss : List Byte) (k : Nat) (w : Work) (hk : k + ss.length ≤ 511) (j : Nat) :
    nodeAt (placeLeaves f ss k w).node j =
      if h : k ≤ j ∧ j < k + ss.length then leafNode (ss[j - k]'(by omega)) (freqOf f (ss[j - k]'(by omega)))
      else nodeAt w.node j := by
  induction ss generalizing k w with
  | nil => rw [dif_neg (by simp)]; rfl
  | cons s ss ih =>
    rw [List.length_cons] at hk
    rw [placeLeaves, ih (k + 1) _ (by omega), nodeAt_setIfInBounds _ (by omega)]
    rcases lt_trichotomy j k with h | rfl | h
    · rw [dif_neg (by omega), if_neg (by omega), dif_neg (by omega)]
    · rw [dif_neg (by omega), if_pos rfl, dif_pos (by simp)]
      simp
    · by_cases hj : j < k + 1 + ss.length
      · have e : j - k = (j - (k + 1)) + 1 := by omega
        rw [dif_pos (by omega), dif_pos (by simp; omega)]
        simp [e]
      · rw [dif_neg (by omega), if_neg (by omega), dif_neg (by simp; omega)]

/-- PQ after the leaf loop, from a PQ below the first new index: in order, longer by the leaves, and below the next index. -/
theorem placeLeaves_pq (f : FreqTable) (ss : List Byte) (k : Nat) (w : Work) (hk : k + ss.length ≤ 511)
    (hs : w.pq.Pairwise (· < ·)) (hb : ∀ i ∈ w.pq, i.val < k) :
    (placeLeaves f ss k w).pq.Pairwise (· < ·) ∧ (placeLeaves f ss k w).pq.length = w.pq.length + ss.length ∧
    ∀ i : Slot, i ∈ (placeLeaves f ss k w).pq ↔ i ∈ w.pq ∨ k ≤ i.val ∧ i.val < k + ss.length := by
  induction ss generalizing k w with
  | nil => exact ⟨hs, rfl, fun i => by simp [placeLeaves]⟩
  | cons s ss ih =>
    rw [List.length_cons] at hk
    have hv : (Fin.ofNat 511 k).val = k := Nat.mod_eq_of_lt (by omega)
    have hnew : Fin.ofNat 511 k ∉ w.pq := fun h => by have := hb _ h; omega
    have heq (i : Slot) : i = Fin.ofNat 511 k ↔ i.val = k := by rw [Fin.ext_iff, hv]
    obtain ⟨h1, h2, h3⟩ := ih (k + 1)
      { w with node := w.node.setIfInBounds k (leafNode s (freqOf f s)), pq := pqInsert (Fin.ofNat 511 k) w.pq } (by omega)
      (pqInsert_sorted _ _ hs) (fun i hi => by
        rcases (mem_pqInsert _ _ _).1 hi with rfl | hi
        · omega
        · have := hb i hi; omega)
    rw [length_pqInsert _ _ hnew] at h2
    refine ⟨h1, by rw [placeLeaves, h2, List.length_cons]; omega, fun i => ?_⟩
    rw [placeLeaves, h3, mem_pqInsert, heq, List.length_cons]
    by_cases hi : i ∈ w.pq
    · simp [hi]
    · simp [hi]; omega

@[simp] theorem initTree_nsym (w : Work) : (initTree w).nsym = BitVec.ofNat 9 (presentSymbols w.freq).length := rfl
@[simp] theorem initTree_nnodes (w : Work) : (initTree w).nnodes = BitVec.ofNat 10 (presentSymbols w.freq).length := rfl
theorem initTree_node (w : Work) : (initTree w).node = (placeLeaves w.freq (presentSymbols w.freq) 0 w).node := rfl
theorem initTree_pq (w : Work) : (initTree w).pq = (placeLeaves w.freq (presentSymbols w.freq) 0 w).pq := rfl

/-- P_E_TB_INIT writes NODE, PQ, NSYM and NNODES only. -/
theorem initTree_eq (w : Work) : initTree w =
    { w with node := (initTree w).node, pq := (initTree w).pq, nsym := (initTree w).nsym, nnodes := (initTree w).nnodes } := by
  unfold initTree
  dsimp only
  rw [placeLeaves_eq]

theorem toNat_initTree_nsym (w : Work) : (initTree w).nsym.toNat = (presentSymbols w.freq).length := by
  have := length_presentSymbols_le w.freq
  rw [initTree_nsym, BitVec.toNat_ofNat, Nat.mod_eq_of_lt (by omega)]

theorem toNat_initTree_nnodes (w : Work) : (initTree w).nnodes.toNat = (presentSymbols w.freq).length := by
  have := length_presentSymbols_le w.freq
  rw [initTree_nnodes, BitVec.toNat_ofNat, Nat.mod_eq_of_lt (by omega)]

theorem nodeAt_initTree (w : Work) (k : Nat) : nodeAt (initTree w).node k =
    if h : k < (presentSymbols w.freq).length then leafNode (presentSymbols w.freq)[k] (freqOf w.freq (presentSymbols w.freq)[k])
    else nodeAt w.node k := by
  have := length_presentSymbols_le w.freq
  rw [initTree_node, nodeAt_placeLeaves _ _ _ _ (by omega)]
  simp

/-- PQ after P_E_TB_INIT holds the leaves (R122). -/
theorem initTree_pq_of_nil {w : Work} (h : w.pq = []) :
    (initTree w).pq.Pairwise (· < ·) ∧ (initTree w).pq.length = (presentSymbols w.freq).length ∧
    ∀ i : Slot, i ∈ (initTree w).pq ↔ i.val < (presentSymbols w.freq).length := by
  have := length_presentSymbols_le w.freq
  have h3 := placeLeaves_pq w.freq (presentSymbols w.freq) 0 w (by omega) (by simp [h]) (by simp [h])
  rw [initTree_pq]
  simpa [h] using h3

/-! One merge (R123, R125). -/

theorem minSlot_mem (nd : Arena) (m : Slot) (q : List Slot) : minSlot nd m q ∈ m :: q := by
  induction q generalizing m with
  | nil => simp [minSlot]
  | cons j q ih =>
    rw [minSlot]
    rcases List.mem_cons.1 (ih (if before nd j m then j else m)) with h | h
    · rw [h]; split <;> simp
    · simp [h]

/-- ExtractMin takes an element of PQ out of it. -/
theorem extractMin_some {nd : Arena} {q q' : List Slot} {m : Slot} (h : extractMin nd q = some (m, q')) :
    m ∈ q ∧ q' = q.filter (· != m) := by
  cases q with
  | nil => simp [extractMin] at h
  | cons i q =>
    simp only [extractMin, Option.some.injEq, Prod.mk.injEq] at h
    obtain ⟨rfl, rfl⟩ := h
    exact ⟨minSlot_mem nd i q, rfl⟩

theorem exists_extractMin (nd : Arena) {q : List Slot} (h : q ≠ []) : ∃ m q', extractMin nd q = some (m, q') := by
  cases q with
  | nil => exact absurd rfl h
  | cons i q => exact ⟨_, _, rfl⟩

/-- PQ after a merge of a and b into the node n. -/
def mergedPq (q : List Slot) (a b n : Slot) : List Slot := pqInsert n ((q.filter (· != a)).filter (· != b))

theorem mem_mergedPq (q : List Slot) (a b n i : Slot) : i ∈ mergedPq q a b n ↔ i = n ∨ i ∈ q ∧ i ≠ a ∧ i ≠ b := by
  simp [mergedPq, and_assoc, and_comm]

/-- The working state after a merge of a and b into slot n (R125). -/
def mergedWork (w : Work) (a b n : Slot) : Work :=
  { w with
    node := w.node.set n.val (mergeNode w.node a b) n.isLt, pq := mergedPq w.pq a b n, nnodes := w.nnodes + 1#10,
    root := if (mergedPq w.pq a b n).length = 1 then slotBits n else w.root }

/-- A merge of the two nodes ExtractMin takes into a free slot. -/
theorem mergeStep_eq {w : Work} {a b : Slot} {q1 q2 : List Slot} (ha : extractMin w.node w.pq = some (a, q1))
    (hb : extractMin w.node q1 = some (b, q2)) (hn : w.nnodes.toNat < 511) :
    mergeStep w = .ok (mergedWork w a b ⟨_, hn⟩, decide ((mergedPq w.pq a b ⟨_, hn⟩).length = 1)) := by
  obtain ⟨-, rfl⟩ := extractMin_some ha
  obtain ⟨-, rfl⟩ := extractMin_some hb
  simp only [mergeStep, ha, hb, hn, dite_true, mergedWork, mergedPq]
  split <;> simp only [*, decide_true, decide_false, if_true, if_false]

/-- Everything a merge can answer but a fault. -/
theorem mergeStep_ok {w w' : Work} {last : Bool} (h : mergeStep w = .ok (w', last)) :
    ∃ a b q1 q2 hn, extractMin w.node w.pq = some (a, q1) ∧ extractMin w.node q1 = some (b, q2) ∧
      w' = mergedWork w a b ⟨w.nnodes.toNat, hn⟩ ∧ last = decide (w'.pq.length = 1) := by
  rcases ha : extractMin w.node w.pq with _ | ⟨a, q1⟩
  · simp [mergeStep, ha] at h
  rcases hb : extractMin w.node q1 with _ | ⟨b, q2⟩
  · simp [mergeStep, ha, hb] at h
  by_cases hn : w.nnodes.toNat < 511
  · rw [mergeStep_eq ha hb hn] at h
    cases h
    exact ⟨a, b, q1, q2, hn, rfl, hb, rfl, rfl⟩
  · simp [mergeStep, ha, hb, hn] at h

/-- The nodes a merge joins are two different elements of PQ. -/
theorem extractMin_twice {nd : Arena} {q q1 q2 : List Slot} {a b : Slot} (ha : extractMin nd q = some (a, q1))
    (hb : extractMin nd q1 = some (b, q2)) : a ∈ q ∧ b ∈ q ∧ b ≠ a := by
  obtain ⟨hma, rfl⟩ := extractMin_some ha
  obtain ⟨hmb, -⟩ := extractMin_some hb
  simpa [hma] using hmb

/-- A merge of two nodes into a free slot has an answer. -/
theorem exists_mergeStep {w : Work} (hs : w.pq.Pairwise (· < ·)) (h2 : 2 ≤ w.pq.length) (hn : w.nnodes.toNat < 511) :
    ∃ w' last, mergeStep w = .ok (w', last) := by
  obtain ⟨a, q1, ha⟩ := exists_extractMin w.node (q := w.pq) (by rintro e; simp [e] at h2)
  obtain ⟨hma, hq1⟩ := extractMin_some ha
  have hlen := length_filter_ne hs hma
  obtain ⟨b, q2, hb⟩ := exists_extractMin w.node (q := q1) (by rintro e; rw [← hq1, e, List.length_nil] at hlen; omega)
  exact ⟨_, _, mergeStep_eq ha hb hn⟩

/-- PQ as the tree builder keeps it between P_E_TB_INIT and the last merge: in order, and of arena indices in use (R38). -/
structure PqWf (w : Work) : Prop where
  sorted : w.pq.Pairwise (· < ·)
  used : ∀ i ∈ w.pq, i.val < w.nnodes.toNat

theorem initTree_pqWf {w : Work} (h : w.pq = []) : PqWf (initTree w) := by
  obtain ⟨hs, -, hm⟩ := initTree_pq_of_nil h
  exact ⟨hs, fun i hi => by rw [toNat_initTree_nnodes]; exact (hm i).1 hi⟩

/-- A merge keeps PQ so, uses one slot more and leaves PQ one element shorter. -/
theorem mergeStep_pqWf {w w' : Work} {last : Bool} (hw : PqWf w) (h : mergeStep w = .ok (w', last)) :
    PqWf w' ∧ w'.pq.length + 1 = w.pq.length ∧ w'.nnodes.toNat = w.nnodes.toNat + 1 := by
  obtain ⟨a, b, q1, q2, hn, ea, eb, rfl, -⟩ := mergeStep_ok h
  obtain ⟨ha, hb, hne⟩ := extractMin_twice ea eb
  generalize hv : (⟨w.nnodes.toNat, hn⟩ : Slot) = n
  have hnv : n.val = w.nnodes.toNat := hv ▸ rfl
  have hnn : (mergedWork w a b n).nnodes.toNat = w.nnodes.toNat + 1 := by
    rw [mergedWork, BitVec.toNat_add, BitVec.toNat_ofNat]
    omega
  have hq1 := length_filter_ne hw.sorted ha
  have hs1 := hw.sorted.filter (· != a)
  have hq2 := length_filter_ne hs1 (List.mem_filter.2 ⟨hb, by simpa using hne⟩)
  have hfree : n ∉ (w.pq.filter (· != a)).filter (· != b) := fun hmem => by
    have := hw.used n (List.mem_filter.1 (List.mem_filter.1 hmem).1).1
    omega
  have hlen := length_pqInsert n _ hfree
  refine ⟨⟨pqInsert_sorted _ _ (hs1.filter _), fun i hi => ?_⟩, ?_, hnn⟩
  · rw [hnn]
    rcases (mem_mergedPq _ _ _ _ _).1 hi with rfl | ⟨hi, -⟩
    · omega
    · have := hw.used i hi; omega
  · change (pqInsert n _).length + 1 = _
    omega

end Sys2Proof.Machine
end

section
/-! Proofs of the statements of 10_state.md: every step keeps the invariant. -/

namespace Sys2Proof.Machine

/-! What a step can be: the sequencer's phase, a command, or one of the host's other accesses. -/

/-- A read of a register changes the host's bookkeeping only. -/
theorem readRegister_eq (r : HostReg) (s : State) : ∃ reads k, readRegister r s = { s with hostReads := reads, frees := k } := by
  cases r
  case cmd => exact ⟨_, _, rfl⟩
  case status => exact ⟨_, s.frees, rfl⟩
  case err => exact ⟨_, s.frees, rfl⟩
  case stage => exact ⟨_, s.frees, rfl⟩
  case ilen =>
    rw [readRegister]
    split
    · exact ⟨_, _, rfl⟩
    · exact ⟨_, s.frees, rfl⟩
  case olen =>
    rw [readRegister]
    split
    · exact ⟨_, _, rfl⟩
    · exact ⟨_, s.frees, rfl⟩

/-- So does a read of IBUF, at an index inside it. -/
theorem readInput_eq {a : Nat} {s : State} (ha : ibufIndex s.params a = true) :
    ∃ reads k, readInput a s = .next { s with hostReads := reads, frees := k } := by
  unfold readInput
  rw [ha, if_neg (by simp)]
  split
  · exact ⟨_, _, rfl⟩
  · exact ⟨_, s.frees, rfl⟩

/-- And a read of OBUF. -/
theorem readOutput_eq {a : Nat} {s : State} (ha : obufIndex s.params a = true) :
    ∃ reads k, readOutput a s = .next { s with hostReads := reads, frees := k } := by
  unfold readOutput
  rw [ha, if_neg (by simp)]
  split
  · exact ⟨_, _, rfl⟩
  · split
    · exact ⟨_, s.frees, rfl⟩
    · exact ⟨_, _, rfl⟩

/-- The next states of a step: `step_effect` says that there are no others. -/
inductive StepEffect (s : State) : State → Prop
  /-- the phase PHASE names -/
  | phase (ops : List HostEvent) (i : Instr) (t : State) (hi : decodePhase s.phase = some i)
      (h : exec i { s with hostOps := ops } = .next t) : StepEffect s t
  /-- a byte written to CMD -/
  | command (ops : List HostEvent) (k : Nat) (v : BitVec 8) (t : State)
      (h : writeCommand v { s with hostOps := ops, frees := k } = .next t) : StepEffect s t
  /-- an access that changes the host's bookkeeping only -/
  | access (ops : List HostEvent) (reads : List (BitVec 64)) (k : Nat) :
      StepEffect s { s with hostOps := ops, hostReads := reads, frees := k }
  /-- a byte written to IBUF -/
  | inputByte (ops : List HostEvent) (a : Nat) (b : Byte) (ha : ibufIndex s.params a = true) (hb : s.status ≠ .busy) :
      StepEffect s { s with hostOps := ops, ibuf := memWrite s.ibuf a b }
  /-- a write to ILEN -/
  | inputLength (ops : List HostEvent) (k : Nat) (n : BitVec 32) (hb : s.status ≠ .busy) :
      StepEffect s { s with hostOps := ops, ilen := n, frees := k }
  /-- the reset event -/
  | reset (ops : List HostEvent) : StepEffect s (resetEvent { s with hostOps := ops })

theorem sequencerStep_effect {s t : State} {ops : List HostEvent} (h : sequencerStep { s with hostOps := ops } = .next t) :
    StepEffect s t := by
  cases hi : decodePhase s.phase with
  | none =>
    rw [sequencerStep_stuck (by unfold isStuck; rw [hi]; rfl)] at h
    cases h
  | some i =>
    rw [sequencerStep, hi] at h
    exact .phase ops i t hi h

theorem writeLength_effect {s t : State} {ops : List HostEvent} {k : Nat} {n : BitVec 32}
    (h : writeLength n { s with hostOps := ops, frees := k } = .next t) : StepEffect s t := by
  unfold writeLength at h
  split at h
  · cases h
  · cases h
    exact .inputLength ops k n (by simpa using ‹¬ isBusy _ = true›)

theorem readAddressed_effect {s t : State} {ops : List HostEvent} {r : Option HostReg}
    (h : readAddressed r { s with hostOps := ops } = .next t) : StepEffect s t := by
  rcases readAddressed_cases r { s with hostOps := ops } with ⟨q, -, e⟩ | ⟨-, e⟩ <;> rw [e] at h <;> cases h
  obtain ⟨reads, k, e⟩ := readRegister_eq q { s with hostOps := ops }
  exact e ▸ .access ops reads k

theorem writeAddressed_effect {s t : State} {ops : List HostEvent} {r : Option HostReg} {v : BitVec 64}
    (h : writeAddressed r v { s with hostOps := ops } = .next t) : StepEffect s t := by
  rcases writeAddressed_cases r v { s with hostOps := ops } with ⟨q, -, e⟩ | ⟨-, e⟩ <;> rw [e] at h
  · rcases writeRegister_cases q v { s with hostOps := ops } with ⟨c, k, -, e⟩ | ⟨n, k, -, e⟩ | e <;> rw [e] at h
    · exact .command ops k c t h
    · exact writeLength_effect h
    · cases h; exact .access ops _ _
  · cases h

theorem hostAction_effect {e : HostEvent} {s t : State} {ops : List HostEvent}
    (h : hostAction e { s with hostOps := ops } = .next t) : StepEffect s t := by
  cases e <;> simp only [hostAction] at h
  case writeCmd v => exact .command ops s.frees v t h
  case writeStatus => cases h; exact .access ops _ _
  case writeErr => cases h; exact .access ops _ _
  case writeStage => cases h; exact .access ops _ _
  case writeOlen => cases h; exact .access ops _ _
  case writeIlen v => exact writeLength_effect (k := s.frees) h
  case readReg r => exact readAddressed_effect (r := some r) h
  case readRegAt n => exact readAddressed_effect h
  case readBus a => exact readAddressed_effect h
  case writeRegAt n v => exact writeAddressed_effect h
  case writeBus a v => exact writeAddressed_effect h
  case writeIbuf a b =>
    unfold writeInput at h
    split at h
    · cases h
    · split at h
      · cases h
      · cases h
        exact .inputByte ops a b (by simpa using ‹¬ (!ibufIndex _ a) = true›) (by simpa using ‹¬ isBusy _ = true›)
  case readIbuf a =>
    cases ha : ibufIndex s.params a with
    | false => simp [readInput, ha] at h
    | true =>
      obtain ⟨reads, k, e⟩ := readInput_eq (s := { s with hostOps := ops }) ha
      rw [e] at h; cases h; exact .access ops reads k
  case readObuf a =>
    cases ha : obufIndex s.params a with
    | false => simp [readOutput, ha] at h
    | true =>
      obtain ⟨reads, k, e⟩ := readOutput_eq (s := { s with hostOps := ops }) ha
      rw [e] at h; cases h; exact .access ops reads k
  case wait =>
    unfold waitStep at h
    split at h
    · exact sequencerStep_effect h
    · exact readAddressed_effect (r := some .status) h
  case sequencer => exact sequencerStep_effect h
  case reset => cases h; exact .reset ops

theorem step_effect {s t : State} (h : step s = .next t) : StepEffect s t := by
  cases e : s.hostOps with
  | nil => rw [step_nil e] at h; exact sequencerStep_effect h
  | cons x ops =>
    rw [step_cons e] at h
    unfold hostStep at h
    split at h
    · cases h
    · exact hostAction_effect h

/-! The invariant, for each shared operation that makes a next state. -/

/-- The invariant does not speak of the host's bookkeeping. -/
theorem Inv.access {s : State} (h : Inv s) (ops : List HostEvent) (reads : List (BitVec 64)) (k : Nat) :
    Inv { s with hostOps := ops, hostReads := reads, frees := k } :=
  ⟨h.ibufWf, h.obufWf, h.phaseLegal, h.busyIff, h.errIff, h.stageIff, h.noInputUnavailable, h.olenZero, h.outputThere,
    h.ibufFits, h.obufFits, h.inputFits, h.workInv⟩

theorem isSome_decodePhase_idle : (decodePhase codeIdle).isSome = true := by decide

/-! The working state the running phase relies on, phase by phase. -/

theorem workInv_free (c : BitVec 4) (w : Work) (h : c ∉ [codeECount, codeETbInit, codeETbMerge, codeDMatch]) : WorkInv c w := by
  simp only [List.mem_cons, not_or] at h
  exact workInv_of c w h.1 h.2.1 h.2.2.1 h.2.2.2.1

theorem workInv_idle (w : Work) : WorkInv codeIdle w := workInv_free _ w (by decide)

theorem workInv_beforeTree {c : BitVec 4} {w : Work} (hc : c = codeECount ∨ c = codeETbInit) (h : w.pq = []) : WorkInv c w :=
  ⟨fun _ => h, by rcases hc with rfl | rfl <;> exact fun h => absurd h (by decide),
    by rcases hc with rfl | rfl <;> exact fun h => absurd h (by decide)⟩

theorem workInv_merge {w : Work} (hw : PqWf w) (h2 : 2 ≤ w.pq.length) (hn : w.nnodes.toNat + w.pq.length ≤ 512) :
    WorkInv codeETbMerge w :=
  ⟨fun h => absurd h (by decide), fun _ => ⟨hw.sorted, h2, hw.used, hn⟩, fun h => absurd h (by decide)⟩

theorem workInv_match {w : Work} (h : w.ubits.length = w.tbits.toNat) : WorkInv codeDMatch w :=
  ⟨fun h => absurd h (by decide), fun h => absurd h (by decide), fun _ => h⟩

/-- What P_E_TB_MERGE relies on. -/
theorem pqWf_of_workInv {w : Work} (h : WorkInv codeETbMerge w) :
    PqWf w ∧ 2 ≤ w.pq.length ∧ w.nnodes.toNat + w.pq.length ≤ 512 := by
  obtain ⟨-, hm, -⟩ := h
  obtain ⟨hs, h2, hu, hn⟩ := hm rfl
  exact ⟨⟨hs, hu⟩, h2, hn⟩

/-! The invariant after each of the shared operations. -/

section
variable {s : State}

/-- An idle machine without output, as reset and every error leave it. -/
theorem inv_atRest (hwf : memWf s.ibuf = true) (hfits : ∀ x ∈ s.ibuf, ibufIndex s.params x.1 = true) (hp : s.phase = codeIdle)
    (hb : s.status ≠ .busy) (herr : s.err ≠ .noError ↔ s.status = .error)
    (hst : s.stage ≠ .noStage ↔ s.err = .malformedArtifact) (hu : s.err ≠ .inputUnavailable) (hlen : s.olen = 0#64)
    (hout : s.obuf = []) : Inv s where
  ibufWf := hwf
  obufWf := hout ▸ rfl
  phaseLegal := hp ▸ isSome_decodePhase_idle
  busyIff := by simp [hp, hb]
  errIff := herr
  stageIff := hst
  noInputUnavailable := hu
  olenZero := fun _ => ⟨hlen, hout⟩
  outputThere := fun a h => by simp [hlen] at h
  ibufFits := hfits
  obufFits := fun x h => by simp [hout] at h
  inputFits := fun h => absurd h hb
  workInv := hp ▸ workInv_idle _

/-- After `raise` only IBUF is as it was. -/
theorem inv_raise (hwf : memWf s.ibuf = true) (hfits : ∀ x ∈ s.ibuf, ibufIndex s.params x.1 = true) {e : ErrCode} {st : Stage}
    (he : e ≠ .noError) (hu : e ≠ .inputUnavailable) (hst : st ≠ .noStage ↔ e = .malformedArtifact) : Inv (raise e st s) :=
  inv_atRest hwf hfits rfl (by simp) (by simpa using he) hst hu rfl rfl

theorem inv_resetEvent (s : State) : Inv (resetEvent s) :=
  inv_atRest rfl (by simp) rfl (by simp) (by simp) (by simp) (by simp) rfl rfl

theorem inv_accept (h : Inv s) (hin : ilenFits s = true) {c : BitVec 4} (hc : c = codeECount ∨ c = codeDParse) :
    Inv (accept c s) where
  ibufWf := h.ibufWf
  obufWf := rfl
  phaseLegal := by rw [accept_phase]; rcases hc with rfl | rfl <;> decide
  busyIff := by rw [accept_phase]; rcases hc with rfl | rfl <;> simp [codeIdle, codeECount, codeDParse]
  errIff := by simp
  stageIff := by simp
  noInputUnavailable := by simp
  olenZero := fun _ => ⟨rfl, rfl⟩
  outputThere := fun a h => by simp at h
  ibufFits := h.ibufFits
  obufFits := fun x h => by simp at h
  inputFits := fun _ => hin
  workInv := by
    rcases hc with rfl | rfl
    · exact workInv_beforeTree (.inl rfl) rfl
    · exact workInv_free codeDParse _ (by decide)

theorem Inv.err_of_busy (h : Inv s) (hb : s.status = .busy) : s.err = .noError := by
  by_contra he
  exact absurd (hb.symm.trans (h.errIff.1 he)) (by decide)

theorem Inv.stage_of_busy (h : Inv s) (hb : s.status = .busy) : s.stage = .noStage := by
  by_contra hst
  exact absurd ((h.err_of_busy hb).symm.trans (h.stageIff.1 hst)) (by decide)

theorem inv_goto (h : Inv s) (hb : s.status = .busy) {c : BitVec 4} {w : Work} (hc : (decodePhase c).isSome = true)
    (hi : c ≠ codeIdle) (hw : WorkInv c w) : Inv (goto c w s) where
  ibufWf := h.ibufWf
  obufWf := h.obufWf
  phaseLegal := hc
  busyIff := by simp [hb, hi]
  errIff := h.errIff
  stageIff := h.stageIff
  noInputUnavailable := h.noInputUnavailable
  olenZero := h.olenZero
  outputThere := h.outputThere
  ibufFits := h.ibufFits
  obufFits := h.obufFits
  inputFits := h.inputFits
  workInv := hw

/-- A running command has no output yet, so that all of OBUF is the output it ends with. -/
theorem inv_finish (h : Inv s) (hb : s.status = .busy) {A : List Byte} (hA : fitsCap A.length s.params.obufCap = true) :
    Inv (finish A s) where
  ibufWf := h.ibufWf
  obufWf := memWf_memStore _ _ _ h.obufWf
  phaseLegal := isSome_decodePhase_idle
  busyIff := by simp
  errIff := by simp [h.err_of_busy hb]
  stageIff := by simp [h.err_of_busy hb, h.stage_of_busy hb]
  noInputUnavailable := h.noInputUnavailable
  olenZero := fun hd => absurd rfl hd
  outputThere := fun a ha => by
    have hlt : a < A.length := lt_of_lt_of_le ha (Nat.mod_le _ _)
    rw [finish_obuf, memRead_memStore, dif_pos ⟨Nat.zero_le _, by omega⟩]
    rfl
  ibufFits := h.ibufFits
  obufFits := fun x hx => by
    obtain ⟨-, ho⟩ := h.olenZero (by simp [hb])
    rw [finish_obuf, ho] at hx
    rcases mem_memStore _ _ _ _ hx with ⟨-, hlt⟩ | hx
    · exact fitsCap_mono _ (by omega) hA
    · cases hx
  inputFits := fun hd => by simp at hd
  workInv := workInv_idle _

end

/-! What the running phase relies on. -/

/-- The phase a code selects has that code (R83). -/
theorem encode_of_decodePhase {c : BitVec 4} {i : Instr} (h : decodePhase c = some i) : encode i = .phase c := by
  revert c
  cases i <;> decide

theorem parsePayload_some {a : List Byte} {p T : Nat} {u : Bits} (h : parsePayload a p = some (T, u)) :
    u.length = T ∧ T < 2 ^ 64 := by
  unfold parsePayload at h
  split at h
  · cases h
  · dsimp only at h
    split at h
    · cases h
    · split at h
      · cases h
      · split at h
        · cases h
        · rename_i v hu
          cases h
          exact ⟨(unpack_some.1 hu).2.1, be64_lt _⟩

/-- P_E_TB_INIT leaves the leaves in PQ, and as many slots free as there are merges to come. -/
theorem workInv_initTree {w : Work} (hq : w.pq = []) (h0 : (initTree w).nsym ≠ 0#9) (h1 : (initTree w).nsym ≠ 1#9) :
    WorkInv codeETbMerge (initTree w) := by
  obtain ⟨-, hlen, -⟩ := initTree_pq_of_nil hq
  have hn := toNat_initTree_nnodes w
  have hle := length_presentSymbols_le w.freq
  have h0' : (presentSymbols w.freq).length ≠ 0 := fun e => h0 (BitVec.eq_of_toNat_eq (by rw [toNat_initTree_nsym, e]; rfl))
  have h1' : (presentSymbols w.freq).length ≠ 1 := fun e => h1 (BitVec.eq_of_toNat_eq (by rw [toNat_initTree_nsym, e]; rfl))
  exact workInv_merge (initTree_pqWf hq) (by omega) (by omega)

/-- A merge that is not the last one leaves at least two nodes in PQ, and a slot more in use for the one PQ is shorter by. -/
theorem workInv_mergeStep {w w' : Work} (hw : WorkInv codeETbMerge w) (h : mergeStep w = .ok (w', false)) :
    WorkInv codeETbMerge w' := by
  obtain ⟨hq, h2, hfree⟩ := pqWf_of_workInv hw
  obtain ⟨hq', hlen, hn⟩ := mergeStep_pqWf hq h
  obtain ⟨-, -, -, -, -, -, -, -, hlast⟩ := mergeStep_ok h
  have h1 : w'.pq.length ≠ 1 := by simpa using hlast
  exact workInv_merge hq' (by omega) (by omega)

/-- A phase leaves the working state its successor relies on. -/
theorem exec_workInv {s t : State} {i : Instr} (hs : Inv s) (hi : decodePhase s.phase = some i) (h : exec i s = .next t) :
    WorkInv t.phase t.work := by
  have hw := hs.workInv
  have hword := encode_of_decodePhase hi
  -- most phases lead only to phases that rely on nothing
  have free (hsucc : ∀ c ∈ successors i, c ∉ [codeECount, codeETbInit, codeETbMerge, codeDMatch]) :
      WorkInv t.phase t.work := by
    rcases transitionsFollowTable i s t h (by rintro rfl; exact (OpWord.phase.inj hword).symm) with hc | ⟨-, rfl, -⟩
    · exact workInv_free _ _ (hsucc _ hc)
    · exact hw
  cases i
  case encode => cases hword
  case pIdle => exact free (by decide)
  case pEDerive => exact free (by decide)
  case pEPack => exact free (by decide)
  case pEEmit => exact free (by decide)
  case pDParse => exact free (by decide)
  case pDMatch => exact free (by decide)
  case pDEmit => exact free (by decide)
  case decode => exact free (by decide)
  case pECount =>
    obtain ⟨-, rfl⟩ := execPECount_next h
    injection hword with hc
    have hq := hw.1 (.inl hc.symm)
    split
    · exact workInv_free codeEEmit _ (by decide)
    · exact workInv_beforeTree (.inr rfl) hq
  case pETbInit =>
    injection hword with hc
    have hq := hw.1 (.inr hc.symm)
    rcases execPETbInit_next h with rfl | rfl | ⟨h0, h1, rfl⟩
    · exact workInv_idle _
    · exact workInv_free codeEDerive _ (by decide)
    · exact workInv_initTree hq h0 h1
  case pETbMerge =>
    injection hword with hc
    obtain ⟨w, last, hm, rfl⟩ := execPETbMerge_next h
    rw [← hc] at hw
    cases last with
    | true => exact workInv_free codeEDerive _ (by decide)
    | false => exact workInv_mergeStep hw hm
  case pDUnpack =>
    rcases execPDUnpack_next h with ⟨-, ⟨-, rfl⟩ | ⟨T, u, c, hp, hc, rfl⟩⟩
    · exact workInv_idle _
    · obtain ⟨hu, hT⟩ := parsePayload_some hp
      have hlen : u.length = (BitVec.ofNat 64 T).toNat := by rw [hu, BitVec.toNat_ofNat, Nat.mod_eq_of_lt hT]
      rcases hc with rfl | rfl
      · exact workInv_free codeDEmit _ (by decide)
      · exact workInv_match hlen

/-- A phase keeps the invariant. -/
theorem inv_phase {s t : State} {i : Instr} (hs : Inv s) (hi : decodePhase s.phase = some i) (h : exec i s = .next t) : Inv t := by
  have hw := exec_workInv hs hi h
  by_cases hidle : i = .pIdle
  · subst hidle; cases h; exact hs
  have hb : s.status = .busy := hs.busyIff.2 (fun e => hidle (by rw [e] at hi; exact (Option.some.inj hi).symm))
  rcases exec_next_cases h with rfl | ⟨c, hnb, -⟩ | ⟨c, w, rfl, hc, hci⟩ | ⟨e, st, rfl, he, hu, hst⟩ | ⟨A, rfl, hA⟩
  · exact hs
  · exact absurd hb hnb
  · exact inv_goto hs hb hc hci hw
  · exact inv_raise hs.ibufWf hs.ibufFits he hu hst
  · exact inv_finish hs hb hA

/-- Everything a write to CMD can answer: nothing while BUSY, an accepted command, or IllegalCommand. -/
theorem writeCommand_next {v : BitVec 8} {s t : State} (h : writeCommand v s = .next t) :
    (s.status = .busy ∧ t = s) ∨
    (s.status ≠ .busy ∧ ilenFits s = true ∧
      ((∃ c, t = accept c s ∧ (c = codeECount ∨ c = codeDParse)) ∨ t = raise .illegalCommand .noStage (acceptClear s))) := by
  unfold writeCommand at h
  rcases decodeCmd_cases v with e | e | e <;> rw [e] at h
  · rcases issue_next h with h | ⟨hb, hf, rfl⟩
    · exact .inl h
    · exact .inr ⟨hb, hf, .inr rfl⟩
  · rcases issue_next h with h | ⟨hb, hf, rfl⟩
    · exact .inl h
    · exact .inr ⟨hb, hf, .inl ⟨_, rfl, .inl rfl⟩⟩
  · rcases issue_next h with h | ⟨hb, hf, rfl⟩
    · exact .inl h
    · exact .inr ⟨hb, hf, .inl ⟨_, rfl, .inr rfl⟩⟩

theorem inv_writeCommand {s t : State} {v : BitVec 8} (hs : Inv s) (h : writeCommand v s = .next t) : Inv t := by
  rcases writeCommand_next h with ⟨-, rfl⟩ | ⟨-, hf, ⟨c, rfl, hc⟩ | rfl⟩
  · exact hs
  · exact inv_accept hs hf hc
  · exact inv_raise hs.ibufWf hs.ibufFits (by simp) (by simp) (by simp)

/-- Settles O56: the phases, the commands and the host's other accesses each keep the invariant. -/
theorem everyStepKeepsInvariant : Obligations.EveryStepKeepsInvariant := by
  intro s t hs h
  cases step_effect h with
  | phase ops i t hi h => exact inv_phase (hs.access ops _ _) hi h
  | command ops k v t h => exact inv_writeCommand (hs.access ops _ k) h
  | access ops reads k => exact hs.access ops reads k
  | inputByte ops a b ha hb =>
    exact { hs.access ops s.hostReads s.frees with
      ibufWf := memWf_memWrite _ _ _ hs.ibufWf
      ibufFits := fun x hx => (mem_memWrite _ _ _ _ hx).elim (fun e => e ▸ ha) (hs.ibufFits x)
      inputFits := fun h => absurd h hb }
  | inputLength ops k n hb => exact { hs.access ops s.hostReads k with inputFits := fun h => absurd h hb }
  | reset ops => exact inv_resetEvent _

end Sys2Proof.Machine
end

section
/-! Proofs of the statements of 10_state.md: an idle machine does not depend on its working state, and a disciplined one never stops. -/

namespace Sys2Proof.Machine

/-! A phase of a state that meets the invariant has an answer (R31, R69, R126). -/

/-- The four phases that read IBUF stop only where ILEN is over IBUF_CAP. -/
theorem exec_reading_total {s : State} (h : ilenFits s = true) {i : Instr}
    (hi : i = .pECount ∨ i = .pEPack ∨ i = .pDParse ∨ i = .pDUnpack) : ∃ t, exec i s = .next t := by
  rcases hi with rfl | rfl | rfl | rfl
  · exact ⟨_, by rw [exec, execPECount, if_pos h]⟩
  · rw [exec, execPEPack, if_pos h]
    split <;> exact ⟨_, rfl⟩
  · rw [exec, execPDParse, if_pos h]
    split <;> exact ⟨_, rfl⟩
  · rw [exec, execPDUnpack, if_pos h]
    split <;> exact ⟨_, rfl⟩

theorem execPETbMerge_total {s : State} (h : WorkInv codeETbMerge s.work) : ∃ t, execPETbMerge s = .next t := by
  obtain ⟨hq, h2, hn⟩ := pqWf_of_workInv h
  obtain ⟨w, last, e⟩ := exists_mergeStep hq.sorted h2 (by omega)
  exact ⟨_, by rw [execPETbMerge, e]⟩

theorem execPDMatch_total {s : State} (h : WorkInv codeDMatch s.work) : ∃ t, execPDMatch s = .next t := by
  obtain ⟨-, -, hm⟩ := h
  rw [execPDMatch, if_neg (by rw [hm rfl]; omega)]
  split <;> exact ⟨_, rfl⟩

theorem exec_phase_total {s : State} (hs : Inv s) {i : Instr} (hi : decodePhase s.phase = some i) : ∃ t, exec i s = .next t := by
  have hw := hs.workInv
  have hword := encode_of_decodePhase hi
  by_cases hidle : i = .pIdle
  · subst hidle; exact ⟨s, rfl⟩
  have hb : s.status = .busy := hs.busyIff.2 (fun e => hidle (by rw [e] at hi; exact (Option.some.inj hi).symm))
  have hin := hs.inputFits hb
  cases i
  case encode => cases hword
  case decode => cases hword
  case pIdle => exact absurd rfl hidle
  case pECount => exact exec_reading_total hin (by simp)
  case pEPack => exact exec_reading_total hin (by simp)
  case pDParse => exact exec_reading_total hin (by simp)
  case pDUnpack => exact exec_reading_total hin (by simp)
  case pETbMerge => exact execPETbMerge_total (OpWord.phase.inj hword ▸ hw)
  case pDMatch => exact execPDMatch_total (OpWord.phase.inj hword ▸ hw)
  case pEEmit => exact ⟨_, rfl⟩
  case pDEmit => exact ⟨_, rfl⟩
  case pETbInit =>
    rw [exec, execPETbInit]
    split
    · exact ⟨_, rfl⟩
    · split <;> exact ⟨_, rfl⟩
  case pEDerive =>
    rw [exec, execPEDerive]
    split <;> exact ⟨_, rfl⟩

theorem sequencerStep_total {s : State} (hs : Inv s) : ∃ t, sequencerStep s = .next t := by
  obtain ⟨i, hi⟩ := Option.isSome_iff_exists.1 hs.phaseLegal
  obtain ⟨t, ht⟩ := exec_phase_total hs hi
  exact ⟨t, by rw [sequencerStep, hi]; exact ht⟩

/-! So has a host operation the rules allow (R258, R262, R264). -/

theorem issue_total {a s : State} (h : writeAllowed .cmd s) : ∃ t, issue a s = .next t := by
  unfold issue
  split
  · exact ⟨_, rfl⟩
  · rename_i hb
    rw [if_pos (h.resolve_left (by simpa using hb))]
    exact ⟨_, rfl⟩

theorem writeCommand_total {s : State} (h : writeAllowed .cmd s) (v : BitVec 8) : ∃ t, writeCommand v s = .next t := by
  unfold writeCommand
  rcases decodeCmd_cases v with e | e | e <;> rw [e] <;> exact issue_total h

theorem writeLength_total {s : State} (h : writeAllowed .ilen s) (n : BitVec 32) : ∃ t, writeLength n s = .next t :=
  ⟨_, writeLength_idle h n⟩

/-- An addressed write to a register, of any value. -/
theorem writeAddressed_total {s : State} {o : Option HostReg} (ho : o.isSome = true) (h : ∀ r, o = some r → writeAllowed r s)
    (v : BitVec 64) : ∃ t, writeAddressed o v s = .next t := by
  rcases writeAddressed_cases o v s with ⟨q, rfl, e⟩ | ⟨rfl, -⟩
  · rw [e]
    rcases writeRegister_cases q v s with ⟨c, k, rfl, e⟩ | ⟨n, k, rfl, e⟩ | e <;> rw [e]
    · exact writeCommand_total (s := { s with frees := k }) (h _ rfl) c
    · exact writeLength_total (s := { s with frees := k }) (h _ rfl) n
    · exact ⟨s, rfl⟩
  · cases ho

theorem readAddressed_total {s : State} {o : Option HostReg} (ho : o.isSome = true) : ∃ t, readAddressed o s = .next t := by
  rcases readAddressed_cases o s with ⟨q, -, e⟩ | ⟨rfl, -⟩
  · exact ⟨_, e⟩
  · cases ho

theorem hostAction_total {s : State} (hs : Inv s) {e : HostEvent} (he : allowed e s) : ∃ t, hostAction e s = .next t := by
  obtain ⟨hwf, h⟩ := he
  cases e <;> rw [hostAction]
  case writeCmd v => exact writeCommand_total h v
  case writeIlen n => exact writeLength_total h n
  case readRegAt n => exact readAddressed_total hwf
  case readBus a => exact readAddressed_total hwf
  case writeRegAt n v => exact writeAddressed_total hwf h v
  case writeBus a v => exact writeAddressed_total hwf h v
  case writeIbuf a b =>
    have hb : isBusy s = false := (isBusy_eq_false_iff s).2 h
    exact ⟨_, by rw [writeInput, show ibufIndex s.params a = true from hwf, hb]; rfl⟩
  case readIbuf a =>
    obtain ⟨reads, k, e⟩ := readInput_eq hwf
    exact ⟨_, e⟩
  case readObuf a =>
    obtain ⟨reads, k, e⟩ := readOutput_eq hwf
    exact ⟨_, e⟩
  case wait =>
    unfold waitStep
    split
    · exact sequencerStep_total (hs.access _ s.hostReads s.frees)
    · exact ⟨_, rfl⟩
  case sequencer => exact sequencerStep_total hs
  case writeStatus => exact ⟨_, rfl⟩
  case writeErr => exact ⟨_, rfl⟩
  case writeStage => exact ⟨_, rfl⟩
  case writeOlen => exact ⟨_, rfl⟩
  case readReg => exact ⟨_, rfl⟩
  case reset => exact ⟨_, rfl⟩

/-- Settles O57: the sequencer's phase finds what it relies on in the invariant, and the host's operation in the discipline. -/
theorem disciplinedMachineNeverStops : Obligations.DisciplinedMachineNeverStops := by
  intro s hs h
  cases e : s.hostOps with
  | nil =>
    rw [step_nil e]
    exact sequencerStep_total hs
  | cons x rest =>
    rw [step_live e ((isStuck_eq_false_iff s).2 hs.phaseLegal)]
    exact hostAction_total (hs.access rest s.hostReads s.frees) (h x rest e)

/-! Changing the working state of an idle machine (R23 (2)). -/

/-- The state with another working state. -/
def setWork (w : Work) (s : State) : State := { s with work := w }

@[simp] theorem isBusy_setWork (w : Work) (s : State) : isBusy (setWork w s) = isBusy s := rfl

/-- Where the first answers a next state, the second answers it too, but for the working state. -/
def SameButWork (o o' : Host.Outcome State Fault Refusal) : Prop := ∀ t, o = .next t → ∃ w, o' = .next (setWork w t)

theorem sameButWork_next {t t' : State} (h : ∃ w, t' = setWork w t) : SameButWork (.next t) (.next t') := by
  rintro t ⟨⟩
  exact h.imp fun w e => by rw [e]

theorem sameButWork_refused (r : Refusal) (o : Host.Outcome State Fault Refusal) : SameButWork (.refused r) o := fun _ h => by cases h

theorem sameButWork_ite {c : Prop} [Decidable c] {o o' p p' : Host.Outcome State Fault Refusal} (h : SameButWork o o')
    (h' : SameButWork p p') : SameButWork (if c then o else p) (if c then o' else p') := by
  split
  · exact h
  · exact h'

section
variable (w : Work) (s : State)

theorem issue_setWork {a a' : State} (h : ∃ w', a' = setWork w' a) : SameButWork (issue a s) (issue a' (setWork w s)) :=
  sameButWork_ite (sameButWork_next ⟨w, rfl⟩) (sameButWork_ite (sameButWork_next h) (sameButWork_refused _ _))

theorem writeCommand_setWork (v : BitVec 8) : SameButWork (writeCommand v s) (writeCommand v (setWork w s)) := by
  unfold writeCommand
  rcases decodeCmd_cases v with e | e | e <;> rw [e]
  · exact issue_setWork w s ⟨_, rfl⟩
  · exact issue_setWork w s ⟨_, rfl⟩
  · exact issue_setWork w s ⟨_, rfl⟩

theorem writeLength_setWork (n : BitVec 32) : SameButWork (writeLength n s) (writeLength n (setWork w s)) :=
  sameButWork_ite (sameButWork_refused _ _) (sameButWork_next ⟨w, rfl⟩)

theorem readRegister_setWork (r : HostReg) : readRegister r (setWork w s) = setWork w (readRegister r s) := by
  cases r <;> simp only [readRegister, isBusy_setWork]
  case ilen =>
    by_cases hb : isBusy s = true
    · simp only [hb, if_true]; rfl
    · simp only [hb]; rfl
  case olen =>
    by_cases hb : isBusy s = true
    · simp only [hb, if_true]; rfl
    · simp only [hb]; rfl
  all_goals rfl

theorem readAddressed_setWork (o : Option HostReg) : SameButWork (readAddressed o s) (readAddressed o (setWork w s)) := by
  cases o with
  | none => exact sameButWork_refused _ _
  | some r => exact sameButWork_next ⟨w, readRegister_setWork w s r⟩

theorem drawHostValue_setWork (r : HostReg) (v : BitVec 64) : drawHostValue r v (setWork w s) = setWork w (drawHostValue r v s) := by
  unfold drawHostValue
  split <;> rfl

theorem writeAddressed_setWork (o : Option HostReg) (v : BitVec 64) :
    SameButWork (writeAddressed o v s) (writeAddressed o v (setWork w s)) := by
  cases o with
  | none => exact sameButWork_refused _ _
  | some r =>
    simp only [writeAddressed]
    cases r <;> simp only [writeRegister, drawHostValue_setWork]
    case cmd => exact writeCommand_setWork w _ _
    case ilen => exact writeLength_setWork w _ _
    all_goals exact sameButWork_next ⟨w, rfl⟩

theorem readInput_setWork (a : Nat) : SameButWork (readInput a s) (readInput a (setWork w s)) := by
  unfold readInput
  exact sameButWork_ite (sameButWork_refused _ _)
    (sameButWork_ite (sameButWork_next ⟨w, rfl⟩) (sameButWork_next ⟨w, rfl⟩))

theorem readOutput_setWork (a : Nat) : SameButWork (readOutput a s) (readOutput a (setWork w s)) := by
  refine sameButWork_ite (sameButWork_refused _ _) (sameButWork_ite (sameButWork_next ⟨w, rfl⟩) ?_)
  rw [show (setWork w s).obuf = s.obuf from rfl]
  cases memRead s.obuf a <;> exact sameButWork_next ⟨w, rfl⟩

/-- The sequencer of an idle machine runs P_IDLE, which changes nothing (R271). -/
theorem sequencerStep_idle {s : State} (h : s.phase = codeIdle) : sequencerStep s = .next s := by
  rw [sequencerStep, h]
  rfl

theorem sequencerStep_setWork (h : s.phase = codeIdle) : SameButWork (sequencerStep s) (sequencerStep (setWork w s)) := by
  rw [sequencerStep_idle h, sequencerStep_idle (s := setWork w s) h]
  exact sameButWork_next ⟨w, rfl⟩

theorem hostAction_setWork (e : HostEvent) (h : s.phase = codeIdle) : SameButWork (hostAction e s) (hostAction e (setWork w s)) := by
  cases e <;> simp only [hostAction]
  case writeCmd v => exact writeCommand_setWork w s v
  case writeIlen n => exact writeLength_setWork w s n
  case readReg r => exact readAddressed_setWork w s (some r)
  case readRegAt n => exact readAddressed_setWork w s _
  case readBus a => exact readAddressed_setWork w s _
  case writeRegAt n v => exact writeAddressed_setWork w s _ v
  case writeBus a v => exact writeAddressed_setWork w s _ v
  case readIbuf a => exact readInput_setWork w s a
  case readObuf a => exact readOutput_setWork w s a
  case writeIbuf a b =>
    exact sameButWork_ite (sameButWork_refused _ _) (sameButWork_ite (sameButWork_refused _ _) (sameButWork_next ⟨w, rfl⟩))
  case wait =>
    exact sameButWork_ite (sequencerStep_setWork w { s with hostOps := .wait :: s.hostOps } h)
      (readAddressed_setWork w s (some .status))
  case sequencer => exact sequencerStep_setWork w s h
  case reset => exact sameButWork_next ⟨Config.freeWork s.frees, rfl⟩
  all_goals exact sameButWork_next ⟨w, rfl⟩

end

/-- Settles O54: no host operation reads the working state, and P_IDLE does not either. -/
theorem workingStateIsHidden : Obligations.WorkingStateIsHidden := by
  intro s t w _ hp h
  have hlive : isStuck s = false := by rw [isStuck, hp]; rfl
  have step_setWork : SameButWork (step s) (step (setWork w s)) := by
    cases e : s.hostOps with
    | nil =>
      rw [step_nil e, step_nil (s := setWork w s) e]
      exact sequencerStep_setWork w s hp
    | cons x rest =>
      rw [step_live e hlive, step_live (s := setWork w s) e hlive]
      exact hostAction_setWork w { s with hostOps := rest } x hp
  exact step_setWork t h

end Sys2Proof.Machine
end

section
/-! Proofs of the statements of 10_state.md: reset, the host's accesses, the input. -/

namespace Sys2Proof.Machine

/-! ## Reset -/

/-- Settles O1: the fields of `State.reset`. -/
theorem resetValues : Obligations.ResetValues :=
  ⟨rfl, rfl, rfl, rfl, rfl, rfl, fun _ => rfl, fun _ => rfl⟩

/-- Settles O2: the reset event is taken in every state, a stuck one too. -/
theorem resetEventAbandonsCommand : Obligations.ResetEventAbandonsCommand := by
  intro s rest h
  rw [step_cons h, hostStep_reset]
  exact ⟨_, rfl, rfl, rfl, rfl, rfl, rfl, rfl, fun _ => rfl, fun _ => rfl, rfl, rfl, rfl⟩

/-- Settles O55: the machine is idle, with nothing in its buffers. -/
theorem resetMeetsInvariant : Obligations.ResetMeetsInvariant :=
  inv_atRest rfl (by simp) rfl (by simp) (by simp) (by simp) (by simp) rfl rfl

/-! ## A step runs one operation -/

/-- Settles O15. -/
theorem idleChangesNothing : Obligations.IdleChangesNothing := fun _ => rfl

theorem sequencerStep_decoded {s : State} {i : Instr} (h : decode (.phase s.phase) = .ok i) : sequencerStep s = exec i s := by
  rw [sequencerStep, (decode_phase_ok _ _).1 h]

theorem isStuck_decoded {s : State} {i : Instr} (h : decode (.phase s.phase) = .ok i) : isStuck s = false := by
  rw [isStuck, (decode_phase_ok _ _).1 h]
  rfl

/-- Settles O3: with the sequencer to move, by its turn or by a wait, and with the host writing CMD. -/
theorem stepRunsDecodedOperation : Obligations.StepRunsDecodedOperation := by
  intro s i v rest
  refine ⟨fun h hi => ?sequencer, fun h hi => ?turn, fun h hb hi => ?wait, fun h hs hi => ?command⟩
  case sequencer => rw [step_nil h, sequencerStep_decoded hi]
  case turn =>
    rw [step_live h (isStuck_decoded hi), hostAction]
    exact sequencerStep_decoded hi
  case wait =>
    have hbusy : isBusy { s with hostOps := rest } = true := (isBusy_iff _).2 hb
    rw [step_live h (isStuck_decoded hi), hostAction, waitStep, if_pos hbusy, ← h]
    exact sequencerStep_decoded hi
  case command => rw [step_live h hs, hostAction, writeCommand, (decode_cmd_ok _ _).1 hi]

/-- A command issued while not BUSY, with its input inside IBUF, is accepted. -/
theorem issue_accepted {s : State} (hb : s.status ≠ .busy) (hf : ilenFits s = true) (a : State) : issue a s = .next a := by
  rw [issue, if_neg (by simpa using hb), if_pos hf]

/-- Settles O7: acceptance is `accept`, whose fields are the clauses. -/
theorem commandAcceptanceClears : Obligations.CommandAcceptanceClears := by
  intro s i hi hb hf
  have hexec : exec i s = .next (accept (if i = .encode then codeECount else codeDParse) s) := by
    rcases hi with rfl | rfl
    · exact issue_accepted hb hf _
    · exact issue_accepted hb hf _
  refine ⟨_, hexec, rfl, rfl, rfl, rfl, rfl, fun _ => rfl, fun b => freqOf_zeroFreq b, rfl, rfl, rfl, rfl, rfl, fun b => ?_,
    rfl, rfl, rfl, rfl, rfl, rfl, rfl, rfl, rfl, rfl, fun b => ?_, rfl, rfl, rfl, rfl, rfl, rfl, rfl⟩
  · rw [accept_work, clearWork_code, codeOf_cleared]
  · rw [accept_work, clearWork_code, codeOf_cleared]

/-! ## The host's reads -/

section
variable {s : State} {rest : List HostEvent}

theorem step_readReg {r : HostReg} (h : s.hostOps = .readReg r :: rest) (hs : isStuck s = false) :
    step s = .next (readRegister r { s with hostOps := rest }) := by
  rw [step_live h hs, hostAction]

/-- A register read by its number is the register read by its name. -/
theorem step_readRegAt {r : HostReg} (h : s.hostOps = .readRegAt r.number :: rest) (hs : isStuck s = false) :
    step s = step { s with hostOps := .readReg r :: rest } := by
  rw [step_live h hs, step_cons_live _ _ hs, hostAction, hostAction, ofNumber_number, readAddressed]

end

theorem readRegister_ilen_idle {s : State} (h : s.status ≠ .busy) :
    readRegister .ilen s = returnRead (s.ilen.setWidth 64) s := by
  rw [readRegister, if_neg (by simpa using h)]

theorem readRegister_olen_idle {s : State} (h : s.status ≠ .busy) : readRegister .olen s = returnRead s.olen s := by
  rw [readRegister, if_neg (by simpa using h)]

theorem readInput_below {s : State} {a : Nat} {b : Byte} (hb : s.status ≠ .busy) (ha : ibufIndex s.params a = true)
    (hlt : a < s.ilen.toNat) (hr : memRead s.ibuf a = some b) : readInput a s = .next (returnRead (b.setWidth 64) s) := by
  have hb' := (isBusy_eq_false_iff s).2 hb
  simp [readInput, ha, hb', hlt, ibufByte, hr]

theorem readInput_beyond {s : State} {a : Nat} (ha : ibufIndex s.params a = true) (hle : s.ilen.toNat ≤ a) :
    readInput a s = .next (returnFree 8 s) := by
  simp [readInput, ha, hle]

theorem readOutput_below {s : State} {a : Nat} {b : Byte} (hb : s.status ≠ .busy) (ha : obufIndex s.params a = true)
    (hlt : a < s.olen.toNat) (hr : memRead s.obuf a = some b) : readOutput a s = .next (returnRead (b.setWidth 64) s) := by
  have hb' := (isBusy_eq_false_iff s).2 hb
  simp [readOutput, ha, hb', hlt, hr]

theorem readOutput_beyond {s : State} {a : Nat} (ha : obufIndex s.params a = true) (hle : s.olen.toNat ≤ a) :
    readOutput a s = .next (returnFree 8 s) := by
  simp [readOutput, ha, hle]

/-- A free byte is a byte. -/
theorem toNat_freeByte_lt (v : BitVec 64) : ((v.setWidth 8).setWidth 64).toNat < 256 := by
  rw [BitVec.toNat_setWidth]
  exact lt_of_le_of_lt (Nat.mod_le _ _) (v.setWidth 8).isLt

/-- Settles O12, register by register and buffer by buffer. -/
theorem hostReadsReturnRegisters : Obligations.HostReadsReturnRegisters := by
  intro s rest a b hs hb
  let s' : State := { s with hostOps := rest }
  have free : ∃ (x : BitVec 64) (k : Nat), x.toNat < 256 ∧
      returnFree 8 { s with hostOps := rest } = { s with hostOps := rest, hostReads := x :: s.hostReads, frees := k } :=
    ⟨_, _, toNat_freeByte_lt _, rfl⟩
  obtain ⟨x, k, hx, hfree⟩ := free
  refine ⟨fun h => ⟨_, step_readReg h hs, ?status⟩, fun h => ⟨_, step_readReg h hs, ?err⟩,
    fun h => ⟨_, step_readReg h hs, ?stage⟩, fun h => ?ilen, fun h => ?olen, fun h => ⟨x, k, hx, ?cmd⟩,
    fun r h hr => ?number, fun h ha hlt hm => ?ibufBelow, fun h ha hle => ⟨x, k, hx, ?ibufBeyond⟩,
    fun h ha hlt hm => ?obufBelow, fun h ha hle => ⟨x, k, hx, ?obufBeyond⟩⟩
  case status => exact ⟨fun e => by rw [e]; rfl, fun e => by rw [e]; rfl, fun e => by rw [e]; rfl⟩
  case err =>
    exact ⟨fun e => by rw [e]; rfl, fun e => by rw [e]; rfl, fun e => by rw [e]; rfl, fun e => by rw [e]; rfl,
      fun e => by rw [e]; rfl, fun e => by rw [e]; rfl⟩
  case stage =>
    exact ⟨fun e => by rw [e]; rfl, fun e => by rw [e]; rfl, fun e => by rw [e]; rfl, fun e => by rw [e]; rfl⟩
  case ilen => exact (step_readReg h hs).trans (congrArg _ (readRegister_ilen_idle (s := s') hb))
  case olen => exact (step_readReg h hs).trans (congrArg _ (readRegister_olen_idle (s := s') hb))
  case cmd => rw [step_readReg h hs, readRegister, hfree]
  case number =>
    have hn : a = r.number := by cases r <;> simpa [HostReg.number] using hr
    exact step_readRegAt (hn ▸ h) hs
  case ibufBelow => exact (step_live h hs).trans (readInput_below (s := s') hb ha hlt hm)
  case ibufBeyond => exact hfree ▸ (step_live h hs).trans (readInput_beyond (s := s') ha hle)
  case obufBelow => exact (step_live h hs).trans (readOutput_below (s := s') hb ha hlt hm)
  case obufBeyond => exact hfree ▸ (step_live h hs).trans (readOutput_beyond (s := s') ha hle)

/-! ## HOST.LOAD -/

section
variable {s : State} {rest : List HostEvent}

theorem step_writeIbuf {a : Nat} {b : Byte} (h : s.hostOps = .writeIbuf a b :: rest) (hs : isStuck s = false)
    (hb : s.status ≠ .busy) (ha : ibufIndex s.params a = true) :
    step s = .next { s with hostOps := rest, ibuf := memWrite s.ibuf a b } := by
  have hbusy : isBusy { s with hostOps := rest } = false := (isBusy_eq_false_iff s).2 hb
  rw [step_live h hs, hostAction, writeInput, ha, hbusy]
  rfl

theorem step_writeIlen {n : BitVec 32} (h : s.hostOps = .writeIlen n :: rest) (hs : isStuck s = false)
    (hb : s.status ≠ .busy) : step s = .next { s with hostOps := rest, ilen := n } :=
  (step_live h hs).trans (writeLength_idle (s := { s with hostOps := rest }) hb n)

end

theorem run_add_next {m n : Nat} {s t : State} (h : run m s = .next t) : run (m + n) s = run n t := by
  rw [run_add, h]

/-- The bytes of HOST.LOAD go to IBUF one step each. -/
theorem run_loadFrom {x : List Byte} {a : Nat} {s : State} {rest : List HostEvent} (h : s.hostOps = loadFrom a x ++ rest)
    (hs : isStuck s = false) (hb : s.status ≠ .busy) (hw : a + x.length ≤ 2 ^ 32)
    (hcap : fitsCap (a + x.length) s.params.ibufCap = true) :
    run x.length s = .next { s with hostOps := rest, ibuf := memStore s.ibuf a x } := by
  induction x generalizing a s with
  | nil => rw [show rest = s.hostOps from h.symm]; rfl
  | cons b x ih =>
    rw [List.length_cons] at hw hcap
    have ha : ibufIndex s.params a = true := (ibufIndex_iff _ _).2 ⟨by omega, fitsCap_mono _ (by omega) hcap⟩
    have hstep : step s = .next { s with hostOps := loadFrom (a + 1) x ++ rest, ibuf := memWrite s.ibuf a b } :=
      step_writeIbuf h hs hb ha
    rw [List.length_cons, run_succ_next hstep]
    exact ih rfl hs hb (by omega) (by rw [show a + 1 + x.length = a + (x.length + 1) by omega]; exact hcap)

/-- The input is what IBUF holds from index 0 on. -/
theorem input_eq {s : State} {x : List Byte} (hn : s.ilen.toNat = x.length)
    (hx : ∀ j (h : j < x.length), memRead s.ibuf j = some x[j]) : input s = x := by
  refine List.ext_getElem (by simp [input, hn]) fun j h1 h2 => ?_
  simp [input, ibufByte, hx j h2]

/-- Settles O14, by induction over the bytes loaded; ILEN is written last. -/
theorem hostLoadSetsInput : Obligations.HostLoadSetsInput := by
  intro s x rest h hs hb hlen hcap
  have hops : s.hostOps = loadFrom 0 x ++ (.writeIlen (BitVec.ofNat 32 x.length) :: rest) := by simp [h, hostLoad]
  have hbytes := run_loadFrom hops hs hb (by omega) (by rwa [Nat.zero_add])
  refine ⟨memStore s.ibuf 0 x, ?_, input_eq ?_ fun j hj => ?_, fun a ha => ?_⟩
  · rw [run_add_next hbytes]
    exact run_succ_next (step_writeIlen rfl hs hb)
  · exact Nat.mod_eq_of_lt hlen
  · rw [memRead_memStore, dif_pos (by omega)]; rfl
  · rw [memRead_memStore, dif_neg (by omega)]

end Sys2Proof.Machine
end

section
/-! Proofs of the statements of 10_state.md: DECODE computes Decode. -/

namespace Sys2Proof.Machine

/-! ## Code tables with the same codes

Acceptance does not clear the bits of an entry (R50), so a command starts from a table that equals `noCodes` in its codes only. -/

/-- The two tables have the same present Symbols, with the same codes. -/
def SameCodes (c d : CodeTable) : Prop :=
  ∀ s, (codeOf d s).present = (codeOf c s).present ∧ ((codeOf c s).present = true → (codeOf d s).bits = (codeOf c s).bits)

theorem sameCodes_of_noCodes {c d : CodeTable} (hc : NoCodes c) (hd : NoCodes d) : SameCodes c d :=
  fun s => ⟨(hd s).trans (hc s).symm, fun h => absurd h (by simp [hc s])⟩

section
variable {c d : CodeTable} (h : SameCodes c d)
include h

theorem SameCodes.setCode (s : Byte) (β : Bits) : SameCodes (setCode c s β) (setCode d s β) := by
  intro t
  rw [codeOf_setCode, codeOf_setCode]
  split
  · exact ⟨rfl, fun _ => rfl⟩
  · exact h t

/-- A test of a present code is the same in both. -/
theorem SameCodes.present_and (f : Bits → Bool) (s : Byte) :
    ((codeOf d s).present && f (codeOf d s).bits) = ((codeOf c s).present && f (codeOf c s).bits) := by
  obtain ⟨hp, hbits⟩ := h s
  rw [hp]
  cases hs : (codeOf c s).present with
  | false => rfl
  | true => rw [hbits hs]

theorem SameCodes.clashes (β : Bits) : clashes d β = clashes c β := by
  unfold Machine.clashes
  exact congrArg _ (funext fun s => h.present_and (fun x => clash x β) s)

theorem SameCodes.lookup (β : Bits) : lookup d β = lookup c β := by
  unfold Machine.lookup
  exact congrArg (fun p => List.find? p allSymbols) (funext fun s => h.present_and (fun x => x == β) s)

theorem SameCodes.matchBits (bs cand : Bits) (out : List Byte) : matchBits d bs cand out = matchBits c bs cand out := by
  induction bs generalizing cand out with
  | nil => rfl
  | cons b bs ih =>
    simp only [Machine.matchBits, h.lookup]
    split
    · exact ih _ _
    · exact ih _ _

/-- The entry loop goes the same way over both. -/
theorem SameCodes.parseEntries (a : List Byte) (k p : Nat) :
    (parseEntries a k p c = none ∧ parseEntries a k p d = none) ∨
    ∃ c' d' p', parseEntries a k p c = some (c', p') ∧ parseEntries a k p d = some (d', p') ∧ SameCodes c' d' := by
  induction k generalizing p c d with
  | zero => exact .inr ⟨c, d, p, rfl, rfl, h⟩
  | succ k ih =>
    simp only [Machine.parseEntries, h.clashes, (h _).1]
    split
    · exact .inl ⟨rfl, rfl⟩
    split
    · exact .inl ⟨rfl, rfl⟩
    split
    · exact .inl ⟨rfl, rfl⟩
    split
    · exact .inl ⟨rfl, rfl⟩
    split
    · exact .inl ⟨rfl, rfl⟩
    split
    · exact .inl ⟨rfl, rfl⟩
    exact ih (h.setCode _ _) _

theorem SameCodes.parseTable (a : List Byte) :
    (parseTable a c = none ∧ parseTable a d = none) ∨
    ∃ n c' d' p, parseTable a c = some (n, c', p) ∧ parseTable a d = some (n, d', p) ∧ SameCodes c' d' := by
  unfold Machine.parseTable
  split
  · exact .inl ⟨rfl, rfl⟩
  split
  · exact .inl ⟨rfl, rfl⟩
  rcases h.parseEntries a (entryCount a) 2 with ⟨hc, hd⟩ | ⟨c', d', p, hc, hd, h'⟩ <;> rw [hc, hd]
  · exact .inl ⟨rfl, rfl⟩
  · exact .inr ⟨_, c', d', p, rfl, rfl, h'⟩

end

/-! ## The parser's index -/

/-- The table's entries end inside the input. -/
theorem parseEntries_le {a : List Byte} {k p p' : Nat} {c c' : CodeTable} (h : parseEntries a k p c = some (c', p'))
    (hp : p ≤ a.length) : p' ≤ a.length := by
  induction k generalizing p c with
  | zero => cases h; exact hp
  | succ k ih =>
    simp only [parseEntries] at h
    split at h
    · cases h
    split at h
    · cases h
    split at h
    · cases h
    split at h
    · cases h
    split at h
    · cases h
    split at h
    · cases h
    exact ih h (by omega)

theorem parseTable_le {a : List Byte} {n p : Nat} {c c' : CodeTable} (h : parseTable a c = some (n, c', p)) : p ≤ a.length := by
  unfold parseTable at h
  split at h
  · cases h
  split at h
  · cases h
  split at h
  · cases h
  · rename_i he
    cases h
    exact parseEntries_le he (by omega)

@[simp] theorem length_input (s : State) : (input s).length = s.ilen.toNat := by simp [input]

/-! ## A run of the phases -/

/-- A phase of a machine that the host leaves alone. -/
theorem run_phase {s t : State} {i : Instr} {k : Nat} (hops : s.hostOps = []) (hi : decodePhase s.phase = some i)
    (h : exec i s = .next t) : run (k + 1) s = run k t :=
  run_succ_next (by rw [step_nil hops, sequencerStep, hi]; exact h)

/-- The same from a state that the phase before has left. -/
theorem run_goto {s t : State} {c : BitVec 4} {w : Work} (i : Instr) {k : Nat} (hops : s.hostOps = [])
    (hi : decodePhase c = some i) (h : exec i (goto c w s) = .next t) : run (k + 1) (goto c w s) = run k t :=
  run_phase hops hi h

/-- An idle machine that the host leaves alone stays as it is (R271). -/
theorem run_idle {s : State} (hops : s.hostOps = []) (h : s.phase = codeIdle) (k : Nat) : run k s = .next s := by
  induction k with
  | zero => rfl
  | succ k ih => rw [run_succ_next (by rw [step_nil hops]; exact sequencerStep_idle h), ih]

/-- A phase that ends the command, and what is left of the run. -/
theorem run_lastPhase {s t : State} {i : Instr} (k : Nat) (hops : s.hostOps = []) (hi : decodePhase s.phase = some i)
    (h : exec i s = .next t) (ht : t.hostOps = []) (hp : t.phase = codeIdle) : run (k + 1) s = .next t := by
  rw [run_phase hops hi h, run_idle ht hp]

/-- The state a command starts to run in. -/
def started (first : BitVec 4) (s : State) : State := accept first { s with hostOps := [] }

/-- A command that is issued while not BUSY, with nothing else pending. -/
theorem step_command {s : State} {v : BitVec 8} {i : Instr} {first : BitVec 4} (hops : s.hostOps = [.writeCmd v])
    (hs : isStuck s = false) (hb : s.status ≠ .busy) (hf : ilenFits s = true) (hv : decodeCmd v = some i)
    (hi : ∀ s, exec i s = issue (accept first s) s) : step s = .next (started first s) := by
  rw [step_live hops hs, hostAction, writeCommand, hv]
  exact (hi _).trans (issue_accepted (s := { s with hostOps := [] }) hb hf _)

/-! ## The output of a command -/

@[simp] theorem emitOutput_phase (A : List Byte) (s : State) : (emitOutput A s).phase = codeIdle := by
  rcases emitOutput_cases A s with ⟨-, e⟩ | ⟨-, e⟩ <;> rw [e] <;> rfl
@[simp] theorem emitOutput_hostOps (A : List Byte) (s : State) : (emitOutput A s).hostOps = s.hostOps := by
  rcases emitOutput_cases A s with ⟨-, e⟩ | ⟨-, e⟩ <;> rw [e] <;> rfl
@[simp] theorem emitOutput_ibuf (A : List Byte) (s : State) : (emitOutput A s).ibuf = s.ibuf := by
  rcases emitOutput_cases A s with ⟨-, e⟩ | ⟨-, e⟩ <;> rw [e] <;> rfl
@[simp] theorem emitOutput_ilen (A : List Byte) (s : State) : (emitOutput A s).ilen = s.ilen := by
  rcases emitOutput_cases A s with ⟨-, e⟩ | ⟨-, e⟩ <;> rw [e] <;> rfl

/-- A command has ended with the output A, where OBUF holds as much, and else with OutputUnwritable. -/
def EndsWithOutput (A : List Byte) (cap : Option Nat) (t : State) : Prop :=
  (fitsCap A.length cap = true → t.status = .done ∧ t.err = .noError ∧ t.stage = .noStage ∧ outputIs t A) ∧
  (fitsCap A.length cap = false → t.status = .error ∧ t.err = .outputUnwritable ∧ t.stage = .noStage ∧ t.olen = 0#64)

theorem endsWithOutput_emitOutput {s : State} (he : s.err = .noError) (hst : s.stage = .noStage) (A : List Byte) :
    EndsWithOutput A s.params.obufCap (emitOutput A s) := by
  rcases emitOutput_cases A s with ⟨hA, e⟩ | ⟨hA, e⟩ <;> rw [e]
  · refine ⟨fun _ => ⟨rfl, he, hst, rfl, fun j hj => ?_⟩, fun h => absurd (hA.symm.trans h) (by decide)⟩
    rw [finish_obuf, memRead_memStore, dif_pos (by omega)]
    rfl
  · exact ⟨fun h => absurd (h.symm.trans hA) (by decide), fun _ => ⟨rfl, rfl, rfl, rfl⟩⟩

/-- An EMIT phase of a running command, and what is left of the run. -/
theorem run_emit {s : State} {c : BitVec 4} {w : Work} {A : List Byte} (i : Instr) (k : Nat) (hops : s.hostOps = [])
    (hi : decodePhase c = some i) (h : exec i (goto c w s) = .next (emitOutput A (goto c w s))) :
    run (k + 1) (goto c w s) = .next (emitOutput A (goto c w s)) :=
  run_lastPhase k hops hi h ((emitOutput_hostOps _ _).trans hops) (emitOutput_phase _ _)

/-! ## The phases of DECODE -/

section
variable {s : State} (hf : ilenFits s = true)
include hf

theorem execPDParse_none (h : parseTable (input s) s.work.code = none) :
    execPDParse s = .next (raise .malformedArtifact .tableParse s) := by
  rw [execPDParse, if_pos hf, h]

theorem execPDParse_some {n p : Nat} {c : CodeTable} (h : parseTable (input s) s.work.code = some (n, c, p)) :
    execPDParse s = .next (goto codeDUnpack
      { s.work with code := c, nsym := BitVec.ofNat 9 n, ppos := BitVec.ofNat 33 p } s) := by
  rw [execPDParse, if_pos hf, h]

theorem execPDUnpack_none (h : parsePayload (input s) s.work.ppos.toNat = none) :
    execPDUnpack s = .next (raise .malformedArtifact .bitUnpack s) := by
  rw [execPDUnpack, if_pos hf, h]

/-- Where the artifact is the empty one, the total is 0 (R208). -/
theorem execPDUnpack_some {T : Nat} {u : Bits} (h : parsePayload (input s) s.work.ppos.toNat = some (T, u)) :
    ∃ c w, execPDUnpack s = .next (goto c w s) ∧ w.code = s.work.code ∧ w.ubits = u ∧ w.tbits.toNat = T ∧
      w.dbuf = s.work.dbuf ∧ (c = codeDMatch ∨ c = codeDEmit ∧ T = 0) := by
  obtain ⟨-, hT⟩ := parsePayload_some h
  rw [execPDUnpack, if_pos hf, h]
  refine ⟨_, _, rfl, rfl, rfl, Nat.mod_eq_of_lt hT, rfl, ?_⟩
  split
  · rename_i he
    have h0 : BitVec.ofNat 64 T = 0#64 := by simpa using (Bool.and_eq_true_iff.1 he).2
    have hmod : T % 2 ^ 64 = 0 := congrArg BitVec.toNat h0
    exact .inr ⟨rfl, by rwa [Nat.mod_eq_of_lt hT] at hmod⟩
  · exact .inl rfl

omit hf

/-- P_D_MATCH over UBITS of exactly TBITS bits. -/
theorem execPDMatch_nil {out : List Byte} (ht : s.work.ubits.length = s.work.tbits.toNat)
    (h : matchBits s.work.code s.work.ubits [] [] = ([], out)) :
    execPDMatch s = .next (goto codeDEmit { s.work with cand := [], dbuf := out } s) := by
  rw [execPDMatch, if_neg (by omega), ← ht, List.take_length, h]

theorem execPDMatch_cons {b : Bool} {cand : Bits} {out : List Byte} (ht : s.work.ubits.length = s.work.tbits.toNat)
    (h : matchBits s.work.code s.work.ubits [] [] = (b :: cand, out)) :
    execPDMatch s = .next (raise .malformedArtifact .codeMatch s) := by
  rw [execPDMatch, if_neg (by omega), ← ht, List.take_length, h]

end

/-! ## DECODE -/

/-- A DECODE of the input a has ended as Decode(a) says (R214, R215). -/
def EndsAsDecode (a : List Byte) (cap : Option Nat) (t : State) : Prop :=
  (∀ y, decodeFn a = .ok y → EndsWithOutput y cap t) ∧
  (∀ st, decodeFn a = .error st → t.status = .error ∧ t.err = .malformedArtifact ∧ t.stage = st ∧ t.olen = 0#64)

theorem endsAsDecode_raise {a : List Byte} {st : Stage} (h : decodeFn a = .error st) (cap : Option Nat) (s : State) :
    EndsAsDecode a cap (raise .malformedArtifact st s) := by
  refine ⟨fun y hy => ?_, fun st' hst => ?_⟩
  · rw [h] at hy; cases hy
  · rw [h] at hst; cases hst; exact ⟨rfl, rfl, rfl, rfl⟩

theorem endsAsDecode_emitOutput {a y : List Byte} (h : decodeFn a = .ok y) {s : State} (he : s.err = .noError)
    (hst : s.stage = .noStage) : EndsAsDecode a s.params.obufCap (emitOutput y s) := by
  refine ⟨fun y' hy => ?_, fun st hst => ?_⟩
  · rw [h] at hy; cases hy; exact endsWithOutput_emitOutput he hst y
  · rw [h] at hst; cases hst

/-- A command runs in the phase c, and the host leaves it alone. -/
structure Running (c : BitVec 4) (s : State) : Prop where
  hostOps : s.hostOps = []
  phase : s.phase = c
  err : s.err = .noError
  stage : s.stage = .noStage

theorem running_started (c : BitVec 4) (s : State) : Running c (started c s) := ⟨rfl, rfl, rfl, rfl⟩

theorem Running.goto {c : BitVec 4} {s : State} (h : Running c s) (c' : BitVec 4) (w : Work) : Running c' (goto c' w s) :=
  ⟨h.hostOps, rfl, h.err, h.stage⟩

theorem Running.decodePhase {c : BitVec 4} {s : State} (h : Running c s) {i : Instr} (hi : decodePhase c = some i) :
    decodePhase s.phase = some i := by rw [h.phase, hi]

/-- After k steps the DECODE of the input a has ended, with the input as it was. -/
def DecodesIn (k : Nat) (s : State) (a : List Byte) : Prop :=
  ∃ t, run k s = .next t ∧ t.phase = codeIdle ∧ t.ibuf = s.ibuf ∧ t.ilen = s.ilen ∧ EndsAsDecode a s.params.obufCap t

/-- A phase that raises MalformedArtifact at the stage Decode fails in. -/
theorem decodesIn_raise {s : State} {c : BitVec 4} {a : List Byte} {i : Instr} {st : Stage} (k : Nat) (hs : Running c s)
    (hi : decodePhase c = some i) (h : exec i s = .next (raise .malformedArtifact st s)) (hd : decodeFn a = .error st) :
    DecodesIn (k + 1) s a :=
  ⟨_, run_lastPhase k hs.hostOps (hs.decodePhase hi) h hs.hostOps rfl, rfl, rfl, rfl, endsAsDecode_raise hd _ _⟩

theorem decodesIn_emit {s : State} {a : List Byte} (k : Nat) (hs : Running codeDEmit s) (hd : decodeFn a = .ok s.work.dbuf) :
    DecodesIn (k + 1) s a :=
  ⟨_, run_lastPhase (i := .pDEmit) k hs.hostOps (hs.decodePhase rfl) rfl ((emitOutput_hostOps _ _).trans hs.hostOps)
    (emitOutput_phase _ _), emitOutput_phase _ _, emitOutput_ibuf _ _, emitOutput_ilen _ _,
    endsAsDecode_emitOutput hd hs.err hs.stage⟩

/-- A phase that goes on. -/
theorem decodesIn_goto {s : State} {c c' : BitVec 4} {w : Work} {a : List Byte} {i : Instr} {k : Nat} (hs : Running c s)
    (hi : decodePhase c = some i) (h : exec i s = .next (goto c' w s)) (hd : DecodesIn k (goto c' w s) a) :
    DecodesIn (k + 1) s a := by
  obtain ⟨t, hrun, ht⟩ := hd
  exact ⟨t, (run_phase hs.hostOps (hs.decodePhase hi) h).trans hrun, ht⟩

/-- From P_D_MATCH on, where the table and the payload have been read. -/
theorem decodesIn_match {s : State} {a : List Byte} {c : CodeTable} {n p T : Nat} (hs : Running codeDMatch s)
    (hlen : s.work.ubits.length = s.work.tbits.toNat) (hsame : SameCodes c s.work.code)
    (hp : parseTable a noCodes = some (n, c, p)) (hu : parsePayload a p = some (T, s.work.ubits)) : DecodesIn 2 s a := by
  have hm := hsame.matchBits s.work.ubits [] []
  rcases hout : matchBits c s.work.ubits [] [] with ⟨_ | ⟨b, cand⟩, out⟩ <;> rw [hout] at hm
  · have hd : decodeFn a = .ok out := by simp only [decodeFn, hp, hu, hout]
    exact decodesIn_goto (i := .pDMatch) hs rfl (execPDMatch_nil hlen hm) (decodesIn_emit 0 (hs.goto _ _) hd)
  · have hd : decodeFn a = .error .codeMatch := by simp only [decodeFn, hp, hu, hout]
    exact decodesIn_raise (i := .pDMatch) 1 hs rfl (execPDMatch_cons hlen hm) hd

/-- From P_D_UNPACK on, where the table has been read. -/
theorem decodesIn_unpack {s : State} {c : CodeTable} {n p : Nat} (hs : Running codeDUnpack s) (hf : ilenFits s = true)
    (hsame : SameCodes c s.work.code) (hppos : s.work.ppos.toNat = p) (hdbuf : s.work.dbuf = [])
    (hp : parseTable (input s) noCodes = some (n, c, p)) : DecodesIn 3 s (input s) := by
  rcases hu : parsePayload (input s) p with _ | ⟨T, u⟩
  · have hd : decodeFn (input s) = .error .bitUnpack := by simp only [decodeFn, hp, hu]
    exact decodesIn_raise (i := .pDUnpack) 2 hs rfl (execPDUnpack_none hf (hppos ▸ hu)) hd
  · obtain ⟨c', w, hexec, hcode, rfl, htbits, hdbuf', hc'⟩ := execPDUnpack_some hf (hppos ▸ hu)
    obtain ⟨hulen, -⟩ := parsePayload_some hu
    refine decodesIn_goto (i := .pDUnpack) hs rfl hexec ?_
    rcases hc' with rfl | ⟨rfl, rfl⟩
    · exact decodesIn_match (s := goto codeDMatch w s) (hs.goto _ _) (hulen.trans htbits.symm) (by rwa [goto_work, hcode]) hp hu
    · refine decodesIn_emit (s := goto codeDEmit w s) 1 (hs.goto _ _) ?_
      rw [List.length_eq_zero_iff] at hulen
      simp only [decodeFn, hp, hu, hulen, matchBits, goto_work, hdbuf', hdbuf]

/-- From the start, with no code in the table. -/
theorem decodesIn_parse {s : State} (hs : Running codeDParse s) (hf : ilenFits s = true) (hcode : NoCodes s.work.code)
    (hdbuf : s.work.dbuf = []) : DecodesIn 4 s (input s) := by
  rcases (sameCodes_of_noCodes noCodes_noCodes hcode).parseTable (input s) with ⟨hp, hp'⟩ | ⟨n, c, d, p, hp, hp', hsame⟩
  · have hd : decodeFn (input s) = .error .tableParse := by simp only [decodeFn, hp]
    exact decodesIn_raise (i := .pDParse) 3 hs rfl (execPDParse_none hf hp') hd
  · have hle : p < 2 ^ 33 := by
      have := parseTable_le hp
      have := s.ilen.isLt
      rw [length_input] at *
      omega
    exact decodesIn_goto (i := .pDParse) hs rfl (execPDParse_some hf hp')
      (decodesIn_unpack (s := goto codeDUnpack _ s) (hs.goto _ _) hf hsame (Nat.mod_eq_of_lt hle) hdbuf hp)

/-- Settles O59: the command is accepted, and its phases do what Decode does from the cleared working state. -/
theorem decodeCommandComputesDecode : Obligations.DecodeCommandComputesDecode := by
  intro s hops hs hb hf
  have hstep := step_command (i := .decode) hops hs hb hf rfl (fun _ => rfl)
  obtain ⟨t, hrun, hphase, hibuf, hilen, hok, herr⟩ :=
    decodesIn_parse (running_started codeDParse s) hf (clearWork_noCodes s.work) rfl
  exact ⟨t, (run_succ_next hstep).trans hrun, hphase, hibuf, hilen, hok, herr⟩

end Sys2Proof.Machine
end

section
/-! Proofs of the statements of 10_state.md: the bit packer, and trees that differ in their unused slots (43_bit_packer.md, 41_tree_builder.md). -/

namespace Sys2Proof.Machine

/-! ## The bit packer (R156 to R159) -/

/-- What the packer holds after the bits β: the full bytes in PBUF, the bits left over in ACC. -/
structure Packed (β : Bits) (w : Work) : Prop where
  pbuf : w.pbuf = (List.range (β.length / 8)).map (packByte β)
  acc : w.acc = packByte β (β.length / 8)
  nacc : w.nacc.toNat = β.length % 8
  tbits : w.tbits = BitVec.ofNat 64 β.length

theorem packed_bpReset (w : Work) : Packed [] (bpReset w) := ⟨rfl, rfl, rfl, rfl⟩

/-- A byte past the end of the bits is all padding. -/
theorem packByte_of_le {β : Bits} {j : Nat} (h : β.length ≤ 8 * j) : packByte β j = 0#8 := by
  refine byte_ext _ _ fun k hk => ?_
  rw [packByte_bit _ _ _ hk, List.getD_eq_default _ _ (by omega)]
  simp

/-- One more bit in the last byte. -/
theorem setAccBit_packByte (β : Bits) (b : Bool) :
    setAccBit (packByte β (β.length / 8)) (7 - β.length % 8) b = packByte (β ++ [b]) (β.length / 8) := by
  refine byte_ext _ _ fun k hk => ?_
  rw [setAccBit_bit _ _ _ _ (by omega) (by omega), packByte_bit _ _ _ hk, packByte_bit _ _ _ hk]
  simp only [List.getD_eq_getElem?_getD]
  rcases lt_trichotomy k (β.length % 8) with h | h | h
  · rw [if_neg (by omega), List.getElem?_append_left (by omega)]
  · rw [if_pos (by omega), List.getElem?_append_right (by omega), show 8 * (β.length / 8) + k - β.length = 0 by omega]
    rfl
  · rw [if_neg (by omega), List.getElem?_eq_none (by omega), List.getElem?_eq_none (by simp; omega)]

/-- The full bytes do not change with what follows. -/
theorem map_packByte_append (β γ : Bits) :
    (List.range (β.length / 8)).map (packByte (β ++ γ)) = (List.range (β.length / 8)).map (packByte β) :=
  List.map_congr_left fun j hj => packByte_append β γ j (by have := List.mem_range.1 hj; omega)

theorem packed_bpPush {β : Bits} {w : Work} (h : Packed β w) (b : Bool) : Packed (β ++ [b]) (bpPush w b) := by
  obtain ⟨hp, ha, hn, ht⟩ := h
  have hlen : (β ++ [b]).length = β.length + 1 := by simp
  have hacc : setAccBit w.acc (7 - w.nacc.toNat) b = packByte (β ++ [b]) (β.length / 8) := by
    rw [ha, hn, setAccBit_packByte]
  have htb : w.tbits + 1#64 = BitVec.ofNat 64 (β ++ [b]).length := by rw [ht, hlen, BitVec.ofNat_add]
  by_cases h8 : w.nacc.toNat + 1 = 8
  · have hdiv : (β ++ [b]).length / 8 = β.length / 8 + 1 := by omega
    simp only [bpPush, h8, if_true, hacc]
    refine ⟨?_, ?_, ?_, htb⟩
    · rw [hdiv, List.range_succ, List.map_append, map_packByte_append, hp]
      rfl
    · exact (packByte_of_le (by omega)).symm
    · change 0 = _
      omega
  · have hdiv : (β ++ [b]).length / 8 = β.length / 8 := by omega
    simp only [bpPush, h8, if_false, hacc]
    refine ⟨?_, by rw [hdiv], ?_, htb⟩
    · rw [hdiv, map_packByte_append]
      exact hp
    · rw [BitVec.toNat_add, BitVec.toNat_ofNat]
      omega

theorem packed_bpPushAll {β : Bits} {w : Work} (h : Packed β w) (γ : Bits) : Packed (β ++ γ) (bpPushAll w γ) := by
  induction γ generalizing β w with
  | nil => rw [List.append_nil]; exact h
  | cons b γ ih =>
    have := ih (packed_bpPush h b)
    rwa [List.append_assoc, List.singleton_append] at this

theorem bpFlush_pbuf {β : Bits} {w : Work} (h : Packed β w) : (bpFlush w).pbuf = pack β := by
  obtain ⟨hp, ha, hn, -⟩ := h
  unfold bpFlush pack ceil8
  by_cases h0 : w.nacc = 0#3
  · have hmod : β.length % 8 = 0 := by rw [← hn, h0]; rfl
    rw [if_pos h0, show (β.length + 7) / 8 = β.length / 8 by omega]
    exact hp
  · have hmod : β.length % 8 ≠ 0 := fun e => h0 (BitVec.eq_of_toNat_eq (by rw [hn, e]; rfl))
    rw [if_neg h0, show (β.length + 7) / 8 = β.length / 8 + 1 by omega, List.range_succ, List.map_append]
    change w.pbuf ++ [w.acc] = _
    rw [hp, ha]
    rfl

/-- The packer's registers after a whole bit sequence, flushed. -/
theorem bpFlush_bpPushAll_bpReset (w : Work) (β : Bits) :
    (bpFlush (bpPushAll (bpReset w) β)).pbuf = pack β ∧
    (bpFlush (bpPushAll (bpReset w) β)).tbits = BitVec.ofNat 64 β.length := by
  have h := packed_bpPushAll (packed_bpReset w) β
  exact ⟨bpFlush_pbuf h, by rw [bpFlush_tbits, h.tbits]; rfl⟩

/-- The substitution loop over bytes that have codes pushes their codes, in order (R183). -/
theorem packBytes_eq {x : List Byte} {w : Work} (h : ∀ b ∈ x, (codeOf w.code b).present = true) :
    packBytes x w = some (bpPushAll w (payloadBits w.code x)) := by
  induction x generalizing w with
  | nil => rfl
  | cons b x ih =>
    rw [packBytes, if_pos (h b (by simp)), ih (fun y hy => by rw [bpPushAll_code]; exact h y (by simp [hy])), bpPushAll_code]
    simp [payloadBits, bpPushAll]

/-! ## Trees that differ only where no node has been made

ENCODE starts with whatever the arena holds (R50); `buildTree` starts with the arena after reset. -/

/-- The same working state but for the codes and the unused slots of the arena. -/
structure SameTree (w v : Work) : Prop where
  rest : v = { w with node := v.node, code := v.code }
  nodes : ∀ k, k < w.nnodes.toNat → nodeAt v.node k = nodeAt w.node k

theorem nodeAt_slot (nd : Arena) (i : Slot) : nodeAt nd i.val = nd[i] := by
  rw [nodeAt_eq, dif_pos i.isLt]
  rfl

theorem minSlot_congr {nd nd' : Arena} {m : Slot} {q : List Slot} (h : ∀ i ∈ m :: q, nodeAt nd' i.val = nodeAt nd i.val) :
    minSlot nd' m q = minSlot nd m q := by
  induction q generalizing m with
  | nil => rfl
  | cons j q ih =>
    have hb : before nd' j m = before nd j m := by
      unfold before
      rw [← nodeAt_slot nd', ← nodeAt_slot nd', h j (by simp), h m (by simp), nodeAt_slot, nodeAt_slot]
    rw [minSlot, minSlot, hb]
    refine ih fun i hi => h i ?_
    rcases List.mem_cons.1 hi with rfl | hi
    · split <;> simp
    · simp [hi]

theorem extractMin_congr {nd nd' : Arena} {q : List Slot} (h : ∀ i ∈ q, nodeAt nd' i.val = nodeAt nd i.val) :
    extractMin nd' q = extractMin nd q := by
  cases q with
  | nil => rfl
  | cons i q => rw [extractMin, extractMin, minSlot_congr h]

/-- The order of the leaf loop's PQ does not depend on the arena. -/
theorem placeLeaves_pq_congr (f : FreqTable) (ss : List Byte) (k : Nat) {w v : Work} (h : v.pq = w.pq) :
    (placeLeaves f ss k v).pq = (placeLeaves f ss k w).pq := by
  induction ss generalizing k w v with
  | nil => exact h
  | cons s ss ih => exact ih _ (congrArg (pqInsert _) h)

theorem sameTree_initTree {w v : Work} (h : v = { w with node := v.node, code := v.code }) : SameTree (initTree w) (initTree v) := by
  have hf : v.freq = w.freq := by rw [h]
  have hpq : (initTree v).pq = (initTree w).pq := by
    rw [initTree_pq, initTree_pq, hf]
    exact placeLeaves_pq_congr _ _ _ (by rw [h])
  refine ⟨?_, fun k hk => ?_⟩
  · rw [initTree_eq v, hpq, initTree_nsym, initTree_nnodes, hf, initTree_eq w, h]
    rfl
  · rw [toNat_initTree_nnodes] at hk
    rw [nodeAt_initTree, nodeAt_initTree, dif_pos (hf ▸ hk), dif_pos hk]
    simp only [hf]

theorem SameTree.pq {w v : Work} (h : SameTree w v) : v.pq = w.pq := by rw [h.rest]
theorem SameTree.nnodes {w v : Work} (h : SameTree w v) : v.nnodes = w.nnodes := by rw [h.rest]
theorem SameTree.root {w v : Work} (h : SameTree w v) : v.root = w.root := by rw [h.rest]
theorem SameTree.trivial {w v : Work} (h : SameTree w v) : v.trivial = w.trivial := by rw [h.rest]
theorem SameTree.nsym {w v : Work} (h : SameTree w v) : v.nsym = w.nsym := by rw [h.rest]

theorem nodeAt_mergedWork (w : Work) (a b n : Slot) (k : Nat) :
    nodeAt (mergedWork w a b n).node k = if k = n.val then mergeNode w.node a b else nodeAt w.node k :=
  nodeAt_set _ _ _ _ n.isLt

theorem mergeNode_congr {nd nd' : Arena} {a b : Slot} (ha : nodeAt nd' a.val = nodeAt nd a.val)
    (hb : nodeAt nd' b.val = nodeAt nd b.val) : mergeNode nd' a b = mergeNode nd a b := by
  unfold mergeNode
  rw [← nodeAt_slot nd', ← nodeAt_slot nd', ha, hb, nodeAt_slot, nodeAt_slot]

/-- A merge takes the same nodes in both, and keeps them the same. -/
theorem SameTree.mergeStep {w v w' : Work} {last : Bool} (hw : PqWf w) (h : SameTree w v) (hm : mergeStep w = .ok (w', last)) :
    ∃ v', mergeStep v = .ok (v', last) ∧ SameTree w' v' ∧ v'.code = v.code := by
  obtain ⟨a, b, q1, q2, hn, ea, eb, rfl, rfl⟩ := mergeStep_ok hm
  obtain ⟨ha, hb, -⟩ := extractMin_twice ea eb
  have agree : ∀ i ∈ w.pq, nodeAt v.node i.val = nodeAt w.node i.val := fun i hi => h.nodes _ (hw.used i hi)
  have ea' : extractMin v.node v.pq = some (a, q1) := by rw [h.pq, extractMin_congr agree, ea]
  have eb' : extractMin v.node q1 = some (b, q2) := by
    rw [extractMin_congr fun i hi => agree i ?_, eb]
    exact (List.mem_filter.1 ((extractMin_some ea).2 ▸ hi)).1
  have hn' : v.nnodes.toNat < 511 := by rw [h.nnodes]; exact hn
  have hslot : (⟨v.nnodes.toNat, hn'⟩ : Slot) = ⟨w.nnodes.toNat, hn⟩ := Fin.ext (congrArg BitVec.toNat h.nnodes)
  refine ⟨mergedWork v a b ⟨_, hn⟩, ?_, ⟨?_, fun k hk => ?_⟩, rfl⟩
  · rw [mergeStep_eq ea' eb' hn', hslot, h.pq]
    rfl
  · unfold mergedWork
    rw [h.rest]
  · have hk' : k < w.nnodes.toNat + 1 := by rwa [(mergeStep_pqWf hw hm).2.2] at hk
    rw [nodeAt_mergedWork, nodeAt_mergedWork, mergeNode_congr (agree a ha) (agree b hb)]
    split
    · rfl
    · rename_i hne
      exact h.nodes k (by simp only at hne; omega)

end Sys2Proof.Machine
end

section
/-! Proofs of the statements of 10_state.md: the codes of such trees, that every key has one, and the merges of a running ENCODE. -/

namespace Sys2Proof.Machine

/-! ## The codes do not depend on the unused slots either -/

/-- A well-formed tree's root and slots, as the walk uses them: every slot it looks at is in use. -/
theorem treeWellFormed_slots {w : Work} (h : treeWellFormed w = true) :
    w.root.toNat < min w.nnodes.toNat 511 ∧ (∀ k, k < min w.nnodes.toNat 511 → slotWellFormed w.node k = true) ∧
      rootKindOk w = true := by
  simp only [treeWellFormed, Bool.and_eq_true, bne_iff_ne, decide_eq_true_eq, List.all_eq_true, List.mem_range] at h
  obtain ⟨⟨⟨hnil, hlt⟩, hslots⟩, hkind⟩ := h
  have hroot : w.root.toNat ≠ 511 := fun e => hnil (BitVec.eq_of_toNat_eq e)
  have := w.root.isLt
  exact ⟨by omega, hslots, hkind⟩

/-- The children of an inner node are before it (R141 (c)). -/
theorem slotWellFormed_internal {nd : Arena} {i : Nat} (h : slotWellFormed nd i = true) (hk : (nodeAt nd i).kind = .internal) :
    (nodeAt nd i).left.toNat < i ∧ (nodeAt nd i).right.toNat < i := by
  simp only [slotWellFormed, hk, Bool.and_eq_true, decide_eq_true_eq] at h
  exact ⟨h.1.2, h.2⟩

theorem SameTree.treeWellFormed {w v : Work} (h : SameTree w v) (hw : treeWellFormed w = true) : treeWellFormed v = true := by
  obtain ⟨hroot, hslots, hkind⟩ := treeWellFormed_slots hw
  have agree (k : Nat) (hk : k < min w.nnodes.toNat 511) : nodeAt v.node k = nodeAt w.node k := h.nodes k (by omega)
  simp only [Machine.treeWellFormed, Bool.and_eq_true, bne_iff_ne, decide_eq_true_eq, List.all_eq_true, List.mem_range,
    h.root, h.nnodes] at hw ⊢
  refine ⟨⟨hw.1.1, fun k hk => ?_⟩, ?_⟩
  · have := hslots k hk
    unfold slotWellFormed at this ⊢
    rwa [agree k hk]
  · unfold rootKindOk at hkind ⊢
    rwa [h.trivial, h.nnodes, h.root, agree _ hroot, agree 0 (by omega)]

/-- The walk of a tree gives the same codes over both arenas. -/
theorem derive_congr {nd nd' : Arena} {n : Nat} (agree : ∀ k, k < n → nodeAt nd' k = nodeAt nd k)
    (hslots : ∀ k, k < n → slotWellFormed nd k = true) {fuel i : Nat} {β : Bits} {c d c' : CodeTable} (hi : i < n)
    (hsame : SameCodes c d) (h : derive nd fuel i β c = some c') :
    ∃ d', derive nd' fuel i β d = some d' ∧ SameCodes c' d' := by
  induction fuel generalizing i β c d c' with
  | zero => cases h
  | succ fuel ih =>
    simp only [derive, agree i hi] at h ⊢
    cases hk : (nodeAt nd i).kind with
    | leaf =>
      simp only [hk] at h ⊢
      rw [(hsame _).1]
      split at h
      · cases h
      · rename_i hn
        cases h
        rw [if_neg hn]
        exact ⟨_, rfl, hsame.setCode _ _⟩
    | internal =>
      obtain ⟨hl, hr⟩ := slotWellFormed_internal (hslots i hi) hk
      simp only [hk] at h ⊢
      cases hleft : derive nd fuel (nodeAt nd i).left.toNat (β ++ [false]) c with
      | none => rw [hleft] at h; cases h
      | some c1 =>
        rw [hleft] at h
        obtain ⟨d1, hd1, hsame1⟩ := ih (by omega) hsame hleft
        rw [hd1]
        exact ih (by omega) hsame1 h

theorem SameTree.deriveCodes {w v : Work} (h : SameTree w v) (hcodes : SameCodes w.code v.code) {c : CodeTable}
    (hc : deriveCodes w = some c) : ∃ d, deriveCodes v = some d ∧ SameCodes c d := by
  unfold Machine.deriveCodes at hc ⊢
  split at hc
  · rename_i hw
    obtain ⟨hroot, hslots, -⟩ := treeWellFormed_slots hw
    have agree (k : Nat) (hk : k < min w.nnodes.toNat 511) : nodeAt v.node k = nodeAt w.node k := h.nodes k (by omega)
    rw [if_pos (h.treeWellFormed hw), h.trivial, h.root]
    split at hc
    · rename_i ht
      cases hc
      rw [if_pos ht, agree _ hroot]
      exact ⟨_, rfl, hcodes.setCode _ _⟩
    · rename_i ht
      rw [if_neg ht]
      exact derive_congr agree hslots hroot hcodes hc
  · cases hc

/-! ## Every key gets a code -/

/-- The walk takes no code away. -/
theorem derive_present {nd : Arena} {fuel i : Nat} {β : Bits} {c c' : CodeTable} (h : derive nd fuel i β c = some c') {s : Byte}
    (hs : (codeOf c s).present = true) : (codeOf c' s).present = true := by
  induction fuel generalizing i β c c' with
  | zero => cases h
  | succ fuel ih =>
    simp only [derive] at h
    split at h
    · split at h
      · cases h
      · cases h
        rw [codeOf_setCode]
        split
        · rfl
        · exact hs
    · split at h
      · cases h
      · rename_i c1 hleft
        exact ih h (ih hleft hs)

/-- The walk gives a code to the Symbol of every leaf below its start. -/
theorem derive_leaf_present {nd : Arena} {i j : Nat} {γ : Bits} (hp : LeafPath nd i γ j) {fuel : Nat} {β : Bits}
    {c c' : CodeTable} (h : derive nd fuel i β c = some c') : (codeOf c' (nodeAt nd j).sym).present = true := by
  induction hp generalizing fuel β c c' with
  | leaf i hk =>
    cases fuel with
    | zero => cases h
    | succ fuel =>
      simp only [derive, hk] at h
      split at h
      · cases h
      · cases h
        rw [codeOf_setCode, if_pos rfl]
  | left i γ j hk p ih =>
    cases fuel with
    | zero => cases h
    | succ fuel =>
      simp only [derive, hk] at h
      split at h
      · cases h
      · rename_i c1 hleft
        exact derive_present h (ih hleft)
  | right i γ j hk p ih =>
    cases fuel with
    | zero => cases h
    | succ fuel =>
      simp only [derive, hk] at h
      split at h
      · cases h
      · exact ih h

theorem leafPath_of_leaf {nd : Arena} {i j : Nat} {β : Bits} (h : LeafPath nd i β j) (hi : (nodeAt nd i).kind = .leaf) :
    j = i := by
  cases h with
  | leaf => rfl
  | left _ _ _ hk => rw [hi] at hk; cases hk
  | right _ _ _ hk => rw [hi] at hk; cases hk

/-- Derive gives a code to the Symbol of every leaf below the root, also in the tree of one leaf (R142). -/
theorem deriveCodes_leaf_present {w : Work} {β : Bits} {j : Nat} (hp : LeafPath w.node w.root.toNat β j) {c : CodeTable}
    (h : deriveCodes w = some c) : (codeOf c (nodeAt w.node j).sym).present = true := by
  unfold deriveCodes at h
  split at h
  · rename_i hw
    obtain ⟨hroot, -, hkind⟩ := treeWellFormed_slots hw
    split at h
    · rename_i ht
      simp only [rootKindOk, ht, if_true, Bool.and_eq_true, beq_iff_eq] at hkind
      have h0 : w.root.toNat = 0 := by rw [hkind.1] at hroot; simp at hroot; omega
      have hj : j = w.root.toNat := leafPath_of_leaf hp (by rw [h0]; exact hkind.2)
      cases h
      rw [codeOf_setCode, hj, if_pos rfl]
    · exact derive_leaf_present hp h
  · cases h

/-- The forest the merges work on: the children of an inner node are before it, and every key is the Symbol of a leaf below some
node of PQ. -/
structure Forest (f : FreqTable) (w : Work) : Prop extends PqWf w where
  below : ∀ k, k < w.nnodes.toNat → (nodeAt w.node k).kind = .internal →
    (nodeAt w.node k).left.toNat < k ∧ (nodeAt w.node k).right.toNat < k
  keys : ∀ s, 0#32 < freqOf f s → ∃ i ∈ w.pq, ∃ β j, LeafPath w.node i.val β j ∧ (nodeAt w.node j).sym = s

theorem forest_initTree {w : Work} (h : w.pq = []) : Forest w.freq (initTree w) where
  toPqWf := initTree_pqWf h
  below k hk hi := by
    rw [toNat_initTree_nnodes] at hk
    rw [nodeAt_initTree, dif_pos hk] at hi
    cases hi
  keys s hs := by
    obtain ⟨k, hk, rfl⟩ := List.getElem_of_mem ((mem_presentSymbols _ _).2 hs)
    have hle := length_presentSymbols_le w.freq
    have hnode := nodeAt_initTree w k
    rw [dif_pos hk] at hnode
    obtain ⟨-, -, hm⟩ := initTree_pq_of_nil h
    exact ⟨⟨k, by omega⟩, (hm _).2 hk, [], k, .leaf k (by rw [hnode]; rfl), by rw [hnode]; rfl⟩

/-- A path among the slots in use is a path of any arena that agrees on them. -/
theorem leafPath_congr {nd nd' : Arena} {n : Nat} (agree : ∀ k, k < n → nodeAt nd' k = nodeAt nd k)
    (below : ∀ k, k < n → (nodeAt nd k).kind = .internal → (nodeAt nd k).left.toNat < k ∧ (nodeAt nd k).right.toNat < k)
    {i j : Nat} {β : Bits} (h : LeafPath nd i β j) (hi : i < n) : LeafPath nd' i β j ∧ j < n := by
  induction h with
  | leaf i hk => exact ⟨.leaf i (by rwa [agree i hi]), hi⟩
  | left i β j hk p ih =>
    have := (below i hi hk).1
    obtain ⟨hp, hj⟩ := ih (by omega)
    exact ⟨.left i β j (by rwa [agree i hi]) (by rwa [agree i hi]), hj⟩
  | right i β j hk p ih =>
    have := (below i hi hk).2
    obtain ⟨hp, hj⟩ := ih (by omega)
    exact ⟨.right i β j (by rwa [agree i hi]) (by rwa [agree i hi]), hj⟩

theorem toNat_slotBits (i : Slot) : (slotBits i).toNat = i.val := Nat.mod_eq_of_lt (by have := i.isLt; omega)

/-- A merge puts the trees of the nodes it joins below the new node, and leaves the others alone. -/
theorem Forest.mergeStep {f : FreqTable} {w w' : Work} {last : Bool} (hw : Forest f w) (h : mergeStep w = .ok (w', last)) :
    Forest f w' := by
  obtain ⟨hpq', -, hnn⟩ := mergeStep_pqWf hw.toPqWf h
  obtain ⟨a, b, q1, q2, hn, ea, eb, rfl, -⟩ := mergeStep_ok h
  obtain ⟨ha, hb, -⟩ := extractMin_twice ea eb
  generalize hv : (⟨w.nnodes.toNat, hn⟩ : Slot) = n at *
  have hnv : n.val = w.nnodes.toNat := hv ▸ rfl
  have new : nodeAt (mergedWork w a b n).node n.val = mergeNode w.node a b := by rw [nodeAt_mergedWork, if_pos rfl]
  have old (k : Nat) (hk : k < w.nnodes.toNat) : nodeAt (mergedWork w a b n).node k = nodeAt w.node k := by
    rw [nodeAt_mergedWork, if_neg (by omega)]
  have hleft : (nodeAt (mergedWork w a b n).node n.val).left.toNat = a.val := by rw [new]; exact toNat_slotBits a
  have hright : (nodeAt (mergedWork w a b n).node n.val).right.toNat = b.val := by rw [new]; exact toNat_slotBits b
  have hkind : (nodeAt (mergedWork w a b n).node n.val).kind = .internal := by rw [new]; rfl
  have hau := hw.used a ha
  have hbu := hw.used b hb
  refine ⟨hpq', fun k hk hi => ?_, fun s hs => ?_⟩
  · rcases Nat.lt_or_ge k w.nnodes.toNat with hlt | hge
    · rw [old k hlt] at hi ⊢
      exact hw.below k hlt hi
    · obtain rfl : k = n.val := by omega
      rw [hleft, hright]
      omega
  · obtain ⟨i, hi, β, j, hp, rfl⟩ := hw.keys s hs
    obtain ⟨hp', hj⟩ := leafPath_congr old hw.below hp (hw.used i hi)
    by_cases hia : i = a
    · subst hia
      exact ⟨n, (mem_mergedPq _ _ _ _ _).2 (.inl rfl), false :: β, j, .left _ _ _ hkind (by rwa [hleft]), by rw [old j hj]⟩
    by_cases hib : i = b
    · subst hib
      exact ⟨n, (mem_mergedPq _ _ _ _ _).2 (.inl rfl), true :: β, j, .right _ _ _ hkind (by rwa [hright]), by rw [old j hj]⟩
    · exact ⟨i, (mem_mergedPq _ _ _ _ _).2 (.inr ⟨hi, hia, hib⟩), β, j, hp', by rw [old j hj]⟩

/-- Every key is the Symbol of a leaf below the root. -/
def RootReaches (f : FreqTable) (w : Work) : Prop :=
  ∀ s, 0#32 < freqOf f s → ∃ β j, LeafPath w.node w.root.toNat β j ∧ (nodeAt w.node j).sym = s

/-- The last merge's node is the root, and all that is left in PQ. -/
theorem rootReaches_of_lastMerge {f : FreqTable} {w w' : Work} (hw : Forest f w) (h : mergeStep w = .ok (w', true)) :
    RootReaches f w' := by
  have hw' := hw.mergeStep h
  obtain ⟨a, b, q1, q2, hn, -, -, rfl, hlast⟩ := mergeStep_ok h
  have h1 : (mergedPq w.pq a b ⟨_, hn⟩).length = 1 := of_decide_eq_true hlast.symm
  obtain ⟨r, hr⟩ := List.length_eq_one_iff.1 h1
  have hnew : (⟨w.nnodes.toNat, hn⟩ : Slot) ∈ mergedPq w.pq a b ⟨_, hn⟩ := (mem_mergedPq _ _ _ _ _).2 (.inl rfl)
  have hroot : (mergedWork w a b ⟨_, hn⟩).root.toNat = w.nnodes.toNat := by
    rw [mergedWork, if_pos h1]
    exact toNat_slotBits _
  intro s hs
  obtain ⟨i, hi, β, j, hp, hj⟩ := hw'.keys s hs
  have hi' : i = ⟨w.nnodes.toNat, hn⟩ := by
    rw [hr, List.mem_singleton] at hnew
    rw [mergedWork, hr, List.mem_singleton] at hi
    rw [hi, hnew]
  exact ⟨β, j, by rw [hroot]; rw [hi'] at hp; exact hp, hj⟩

/-! ## The merges of a running ENCODE -/

/-- The merges write neither NSYM nor CODE. -/
theorem mergeLoop_frame {k : Nat} {w w' : Work} (h : mergeLoop k w = .ok w') : w'.nsym = w.nsym ∧ w'.code = w.code := by
  induction k generalizing w with
  | zero => cases h
  | succ k ih =>
    rw [mergeLoop] at h
    split at h
    · cases h
    · rename_i w1 hm
      cases h
      obtain ⟨a, b, q1, q2, hn, -, -, rfl, -⟩ := mergeStep_ok hm
      exact ⟨rfl, rfl⟩
    · rename_i w1 hm
      obtain ⟨a, b, q1, q2, hn, -, -, rfl, -⟩ := mergeStep_ok hm
      exact (ih h :)

/-- A merge makes PQ shorter by one and does not empty it; the last one leaves the root. -/
theorem mergeStep_length {w w' : Work} {last : Bool} (hw : PqWf w) (h : mergeStep w = .ok (w', last)) :
    w'.pq.length + 1 = w.pq.length ∧ 1 ≤ w'.pq.length ∧ last = decide (w'.pq.length = 1) := by
  obtain ⟨-, hlen, -⟩ := mergeStep_pqWf hw h
  obtain ⟨a, b, q1, q2, hn, -, -, rfl, hlast⟩ := mergeStep_ok h
  exact ⟨hlen, List.length_pos_of_mem ((mem_mergedPq w.pq a b _ _).2 (.inl rfl)), hlast⟩

/-- A phase P_E_TB_MERGE makes the merge, also from an arena that differs in the unused slots. -/
theorem run_mergeStep {w v w' : Work} {last : Bool} {s : State} (hops : s.hostOps = []) (hw : PqWf w) (hsame : SameTree w v)
    (h : mergeStep w = .ok (w', last)) :
    ∃ v', (∀ n, run (n + 1) (goto codeETbMerge v s) = run n (goto (if last then codeEDerive else codeETbMerge) v' s)) ∧
      SameTree w' v' ∧ v'.code = v.code := by
  obtain ⟨v', hm, hsame', hcode⟩ := hsame.mergeStep hw h
  have hexec : exec .pETbMerge (goto codeETbMerge v s) =
      .next (goto (if last then codeEDerive else codeETbMerge) v' (goto codeETbMerge v s)) := by
    rw [exec, execPETbMerge, goto_work, hm]
  exact ⟨v', fun n => run_goto .pETbMerge hops rfl hexec, hsame', hcode⟩

/-- The phases P_E_TB_MERGE that follow each other are the merge loop, one for each element of PQ but one (R126). -/
theorem run_mergeLoop {f : FreqTable} {k : Nat} {w v w' : Work} {s : State} (hops : s.hostOps = []) (hw : Forest f w)
    (hsame : SameTree w v) (h : mergeLoop k w = .ok w') :
    ∃ v', run (w.pq.length - 1) (goto codeETbMerge v s) = .next (goto codeEDerive v' s) ∧ SameTree w' v' ∧
      v'.code = v.code ∧ RootReaches f w' := by
  induction k generalizing w v with
  | zero => cases h
  | succ k ih =>
    rw [mergeLoop] at h
    split at h
    · cases h
    · rename_i w1 hm
      cases h
      obtain ⟨v1, hrun, hsame1, hcode⟩ := run_mergeStep hops hw.toPqWf hsame hm
      obtain ⟨hlen, -, hlast⟩ := mergeStep_length hw.toPqWf hm
      have h1 : w'.pq.length = 1 := of_decide_eq_true hlast.symm
      refine ⟨v1, ?_, hsame1, hcode, rootReaches_of_lastMerge hw hm⟩
      rw [show w.pq.length - 1 = 0 + 1 by omega, hrun 0]
      rfl
    · rename_i w1 hm
      obtain ⟨v1, hrun, hsame1, hcode⟩ := run_mergeStep hops hw.toPqWf hsame hm
      obtain ⟨hlen, hpos, -⟩ := mergeStep_length hw.toPqWf hm
      obtain ⟨v', hrun', hsame', hcode', hreach⟩ := ih (hw.mergeStep hm) hsame1 h
      refine ⟨v', ?_, hsame', hcode'.trans hcode, hreach⟩
      rw [show w.pq.length - 1 = (w1.pq.length - 1) + 1 by omega, hrun]
      exact hrun'

end Sys2Proof.Machine
end

section
/-! Proofs of the statements of 10_state.md: ENCODE computes Encode. -/

namespace Sys2Proof.Machine

/-! ## The tree of a running ENCODE -/

/-- The working state `buildTree` starts from. -/
def buildStart (f : FreqTable) : Work := { clearWork Work.zero with freq := f }

/-- The tree of one leaf (R122). -/
def asTrivial (w : Work) : Work := { w with trivial := true, root := 0#9 }

theorem SameTree.asTrivial {w v : Work} (h : SameTree w v) : SameTree (asTrivial w) (asTrivial v) :=
  ⟨by rw [h.rest]; rfl, h.nodes⟩

theorem buildTree_ok {f : FreqTable} {w : Work} (h : buildTree f = .ok w) :
    ((presentSymbols f).length = 1 ∧ w = asTrivial (initTree (buildStart f))) ∨
    (2 ≤ (presentSymbols f).length ∧ mergeLoop 255 (initTree (buildStart f)) = .ok w) := by
  have hn : (initTree (buildStart f)).nsym.toNat = (presentSymbols f).length := toNat_initTree_nsym _
  change (if (initTree (buildStart f)).nsym = 0#9 then _ else if (initTree (buildStart f)).nsym = 1#9 then _ else _) = _ at h
  split at h
  · cases h
  · rename_i h0
    split at h
    · rename_i h1
      cases h
      exact .inl ⟨by rw [← hn, h1]; rfl, rfl⟩
    · rename_i h1
      have h0' : (initTree (buildStart f)).nsym.toNat ≠ 0 := fun e => h0 (BitVec.eq_of_toNat_eq e)
      have h1' : (initTree (buildStart f)).nsym.toNat ≠ 1 := fun e => h1 (BitVec.eq_of_toNat_eq e)
      exact .inr ⟨by omega, h⟩

theorem buildTree_frame {f : FreqTable} {w : Work} (h : buildTree f = .ok w) :
    w.nsym = BitVec.ofNat 9 (presentSymbols f).length ∧ NoCodes w.code := by
  have hcode : NoCodes (initTree (buildStart f)).code := by
    rw [initTree_eq]
    exact clearWork_noCodes _
  rcases buildTree_ok h with ⟨-, rfl⟩ | ⟨-, hm⟩
  · exact ⟨rfl, hcode⟩
  · obtain ⟨hn, hc⟩ := mergeLoop_frame hm
    exact ⟨hn, hc ▸ hcode⟩

theorem execPETbInit_one {s : State} (h : (presentSymbols s.work.freq).length = 1) :
    execPETbInit s = .next (goto codeEDerive (asTrivial (initTree s.work)) s) := by
  simp [execPETbInit, asTrivial, h]

theorem execPETbInit_many {s : State} (h : 2 ≤ (presentSymbols s.work.freq).length) :
    execPETbInit s = .next (goto codeETbMerge (initTree s.work) s) := by
  have hn := toNat_initTree_nsym s.work
  have h0 : (initTree s.work).nsym ≠ 0#9 := fun e => by rw [e] at hn; simp at hn; omega
  have h1 : (initTree s.work).nsym ≠ 1#9 := fun e => by rw [e] at hn; simp at hn; omega
  rw [execPETbInit]
  simp only [h0, h1, if_false]

/-- From P_E_TB_INIT to the last merge a running ENCODE builds the tree of `buildTree`, in one step for each key. -/
theorem run_buildTree {f : FreqTable} {w v : Work} {s : State} (hops : s.hostOps = [])
    (hv : v = { buildStart f with node := v.node, code := v.code }) (h : buildTree f = .ok w) :
    1 ≤ (presentSymbols f).length ∧
    ∃ v', run (presentSymbols f).length (goto codeETbInit v s) = .next (goto codeEDerive v' s) ∧ SameTree w v' ∧
      v'.code = v.code ∧ RootReaches f w := by
  have hf : v.freq = f := by rw [hv]; rfl
  have hcode : (initTree v).code = v.code := by rw [initTree_eq]
  have hforest : Forest f (initTree (buildStart f)) := forest_initTree (w := buildStart f) rfl
  have hsame : SameTree (initTree (buildStart f)) (initTree v) := sameTree_initTree hv
  obtain ⟨-, hlen, hmem⟩ := initTree_pq_of_nil (w := buildStart f) rfl
  rcases buildTree_ok h with ⟨h1, rfl⟩ | ⟨h2, hm⟩
  · have hexec := execPETbInit_one (s := goto codeETbInit v s) (by rw [goto_work, hf]; exact h1)
    refine ⟨by omega, asTrivial (initTree v), ?_, hsame.asTrivial, hcode, fun b hb => ?_⟩
    · rw [h1]
      exact run_goto .pETbInit (k := 0) hops rfl hexec
    · obtain ⟨i, hi, β, j, hp, hj⟩ := hforest.keys b hb
      have hi0 : i.val = 0 := by
        have : i.val < (presentSymbols f).length := (hmem i).1 hi
        omega
      rw [hi0] at hp
      exact ⟨β, j, hp, hj⟩
  · have hexec := execPETbInit_many (s := goto codeETbInit v s) (by rw [goto_work, hf]; exact h2)
    obtain ⟨v', hrun, hsame', hcode', hreach⟩ := run_mergeLoop hops hforest hsame hm
    refine ⟨by omega, v', ?_, hsame', hcode'.trans hcode, hreach⟩
    rw [hlen] at hrun
    change run ((presentSymbols f).length - 1) _ = _ at hrun
    rw [show (presentSymbols f).length = (presentSymbols f).length - 1 + 1 by omega,
      run_goto .pETbInit hops rfl hexec]
    exact hrun

/-! ## The frequency table of the input -/

theorem freqOf_countBytes (f : FreqTable) (x : List Byte) (b : Byte) :
    freqOf (countBytes f x) b = freqOf f b + BitVec.ofNat 32 (x.count b) := by
  induction x generalizing f with
  | nil => simp [countBytes]
  | cons s x ih =>
    have hstep : countBytes f (s :: x) = countBytes (countByte f s) x := rfl
    rw [hstep, ih, freqOf_countByte, List.count_cons]
    by_cases h : b = s
    · subst h
      rw [if_pos rfl, beq_self_eq_true, if_pos rfl, BitVec.ofNat_add, BitVec.add_assoc, BitVec.add_comm 1#32]
    · rw [if_neg h, if_neg (by simpa using Ne.symm h), Nat.add_zero]

/-- A byte of an input that a command can take is a key of its table. -/
theorem freqOf_countOf_pos {x : List Byte} (hx : x.length < 2 ^ 32) {b : Byte} (hb : b ∈ x) : 0#32 < freqOf (countOf x) b := by
  have hpos := List.count_pos_iff.2 hb
  have hle := List.count_le_length (a := b) (l := x)
  rw [countOf, freqOf_countBytes, freqOf_zeroFreq, BitVec.zero_add, BitVec.lt_def]
  change 0 < x.count b % 2 ^ 32
  omega

/-! ## The artifact -/

theorem SameCodes.tableBytes {c d : CodeTable} (h : SameCodes c d) : tableBytes d = tableBytes c := by
  unfold Machine.tableBytes
  refine congrArg (fun g => allSymbols.flatMap g) (funext fun s => ?_)
  obtain ⟨hp, hbits⟩ := h s
  rw [hp]
  split
  · rename_i hs
    simp only [entryBytes, codeLen, hbits hs]
  · rfl

theorem SameCodes.payloadBits {c d : CodeTable} (h : SameCodes c d) {x : List Byte}
    (hx : ∀ b ∈ x, (codeOf c b).present = true) : payloadBits d x = payloadBits c x :=
  List.flatMap_congr fun b hb => (h b).2 (hx b hb)

/-- The table of no code takes no byte of the artifact. -/
theorem tableBytes_of_noCodes {c : CodeTable} (h : NoCodes c) : tableBytes c = [] := by
  unfold tableBytes
  rw [List.flatMap_eq_nil_iff]
  exact fun s _ => by rw [h s]; rfl

theorem huffmanCodes_some {f : FreqTable} {c : CodeTable} (h : huffmanCodes f = some c) :
    ∃ w, buildTree f = .ok w ∧ deriveCodes w = some c := by
  unfold huffmanCodes at h
  split at h
  · cases h
  · rename_i w hw
    exact ⟨w, hw, h⟩

/-- Encode(x) of a non-empty x, unit by unit (R188). -/
theorem encodeFn_some {x A : List Byte} (hx : x ≠ []) (h : encodeFn x = some A) :
    ∃ w c, buildTree (countOf x) = .ok w ∧ deriveCodes w = some c ∧
      A = u16be (BitVec.ofNat 16 (presentSymbols (countOf x)).length) ++ tableBytes c
        ++ u64be (BitVec.ofNat 64 (payloadBits c x).length) ++ pack (payloadBits c x) := by
  rw [encodeFn, if_neg hx] at h
  split at h
  · cases h
  · rename_i c hc
    cases h
    obtain ⟨w, hw, hd⟩ := huffmanCodes_some hc
    exact ⟨w, c, hw, hd, rfl⟩

/-! ## ENCODE -/

theorem execPECount_of_empty {s : State} (hf : ilenFits s = true) (h : input s = []) :
    execPECount s = .next (goto codeEEmit s.work s) := by
  have hlen : s.ilen = 0#32 := BitVec.eq_of_toNat_eq (by rw [← length_input, h]; rfl)
  rw [execPECount, if_pos hf, if_pos hlen, h]
  rfl

theorem execPECount_of_nonempty {s : State} (hf : ilenFits s = true) (h : input s ≠ []) :
    execPECount s = .next (goto codeETbInit { s.work with freq := countBytes s.work.freq (input s) } s) := by
  have hlen : s.ilen ≠ 0#32 := fun e => h (List.eq_nil_of_length_eq_zero (by rw [length_input, e]; rfl))
  rw [execPECount, if_pos hf, if_neg hlen]

theorem execPEPack_some {s : State} {w : Work} (hf : ilenFits s = true) (h : packBytes (input s) (bpReset s.work) = some w) :
    execPEPack s = .next (goto codeEEmit (bpFlush w) s) := by
  rw [execPEPack, if_pos hf, h]

/-- What P_E_DERIVE, P_E_PACK and P_E_EMIT make of a tree whose codes cover the input. -/
theorem run_encodeTail {s : State} {v : Work} {d : CodeTable} (hops : s.hostOps = []) (hf : ilenFits s = true)
    (hd : deriveCodes v = some d) (hx : ∀ b ∈ input s, (codeOf d b).present = true) :
    ∃ u, run 3 (goto codeEDerive v s) = .next (emitOutput (artifact u) (goto codeEEmit u s)) ∧
      artifact u = u16be (v.nsym.setWidth 16) ++ tableBytes d ++ u64be (BitVec.ofNat 64 (payloadBits d (input s)).length)
        ++ pack (payloadBits d (input s)) := by
  generalize hw : ({ v with code := d } : Work) = w
  have hcode : w.code = d := hw ▸ rfl
  have hnsym : w.nsym = v.nsym := hw ▸ rfl
  have hderive : exec .pEDerive (goto codeEDerive v s) = .next (goto codeEPack w s) := by
    rw [exec, execPEDerive, goto_work, hd, ← hw]
    rfl
  have hpack : exec .pEPack (goto codeEPack w s) =
      .next (goto codeEEmit (bpFlush (bpPushAll (bpReset w) (payloadBits d (input s)))) s) := by
    have hbytes := packBytes_eq (x := input s) (w := bpReset w) (by rw [bpReset_code, hcode]; exact hx)
    rw [bpReset_code, hcode] at hbytes
    exact execPEPack_some (s := goto codeEPack w s) hf hbytes
  refine ⟨bpFlush (bpPushAll (bpReset w) (payloadBits d (input s))), ?_, ?_⟩
  · rw [run_goto .pEDerive (k := 2) hops rfl hderive, run_goto .pEPack (k := 1) hops rfl hpack]
    exact run_emit .pEEmit 0 hops rfl rfl
  · obtain ⟨hp, ht⟩ := bpFlush_bpPushAll_bpReset w (payloadBits d (input s))
    rw [artifact, hp, ht]
    simp [hcode, hnsym]

/-- What the phases of an ENCODE leave. -/
theorem run_encode {s : State} {w0 : Work} {A : List Byte} (hs : Running codeECount s) (hf : ilenFits s = true)
    (hwork : s.work = clearWork w0) (hA : encodeFn (input s) = some A) :
    ∃ u, run (encodeSteps (input s)) s = .next (emitOutput A (goto codeEEmit u s)) := by
  have hops := hs.hostOps
  have hi := hs.decodePhase (i := .pECount) rfl
  by_cases hx : input s = []
  · have hempty : artifact s.work = A := by
      rw [encodeFn, if_pos hx] at hA
      cases hA
      rw [hwork, artifact, tableBytes_of_noCodes (clearWork_noCodes _)]
      change u16be (BitVec.setWidth 16 0#9) ++ [] ++ u64be 0#64 ++ [] = _
      decide
    refine ⟨s.work, ?_⟩
    rw [encodeSteps, if_pos hx, run_phase (k := 1) hops hi (execPECount_of_empty hf hx), ← hempty]
    exact run_emit .pEEmit 0 hops rfl rfl
  · obtain ⟨w, c, hw, hc, rfl⟩ := encodeFn_some hx hA
    obtain ⟨hnsym, hcodes⟩ := buildTree_frame hw
    generalize hv : ({ s.work with freq := countBytes s.work.freq (input s) } : Work) = v
    have hstart : v = { buildStart (countOf (input s)) with node := v.node, code := v.code } := by
      rw [← hv, hwork]; rfl
    have hvcode : NoCodes v.code := by rw [← hv, hwork]; exact clearWork_noCodes w0
    have hcount : exec .pECount s = .next (goto codeETbInit v s) := by rw [← hv]; exact execPECount_of_nonempty hf hx
    obtain ⟨hpos, v', hrun, hsame, hcode', hreach⟩ := run_buildTree hops hstart hw
    obtain ⟨d, hd, hsamed⟩ := hsame.deriveCodes (sameCodes_of_noCodes hcodes (hcode' ▸ hvcode)) hc
    have hkeys : ∀ b ∈ input s, (codeOf c b).present = true := fun b hb => by
      obtain ⟨β, j, hp, rfl⟩ := hreach b (freqOf_countOf_pos (by rw [length_input]; exact s.ilen.isLt) hb)
      exact deriveCodes_leaf_present hp hc
    obtain ⟨u, htail, hart⟩ := run_encodeTail hops hf hd fun b hb => ((hsamed b).1.trans (hkeys b hb))
    refine ⟨u, ?_⟩
    rw [encodeSteps, if_neg hx,
      show 5 + ((presentSymbols (countOf (input s))).length - 1) = ((presentSymbols (countOf (input s))).length + 3) + 1 by omega,
      run_phase hops hi hcount, run_add_next hrun, htail, hart, hsamed.tableBytes, hsamed.payloadBits hkeys]
    have hle := length_presentSymbols_le (countOf (input s))
    have hnsym' : v'.nsym.setWidth 16 = BitVec.ofNat 16 (presentSymbols (countOf (input s))).length := by
      rw [hsame.nsym, hnsym]
      exact BitVec.eq_of_toNat_eq (by simp; omega)
    rw [hnsym']

/-- Settles O58: the phases do from the cleared working state what Encode does from the one after reset. -/
theorem encodeCommandComputesEncode : Obligations.EncodeCommandComputesEncode := by
  intro s A hops hs hb hf hA
  have hstep := step_command (i := .encode) hops hs hb hf rfl (fun _ => rfl)
  obtain ⟨u, hrun⟩ := run_encode (running_started codeECount s) hf rfl hA
  obtain ⟨hdone, herr⟩ := endsWithOutput_emitOutput (s := goto codeEEmit u (started codeECount s)) rfl rfl A
  refine ⟨emitOutput A (goto codeEEmit u (started codeECount s)), ?_, emitOutput_phase _ _, emitOutput_ibuf _ _,
    emitOutput_ilen _ _, hdone, herr⟩
  rw [Nat.add_comm, run_succ_next hstep]
  exact hrun

end Sys2Proof.Machine
end

section
/-! Proofs of the statements of 20_memory.md: what is out of range is refused (R60, R262). -/

namespace Sys2Proof.Machine

/-! ## The bounds of the two buffers and of the command's input -/

theorem fitsCap_some_of_lt {m n : Nat} {c : Option Nat} (hc : c = some n) (h : n < m) : fitsCap m c = false := by
  rw [hc, fitsCap, decide_eq_false (by omega)]

theorem ibufIndex_beyond {p : Params} {a n : Nat} (h : (p.ibufCap = some n ∧ n ≤ a) ∨ 2 ^ 32 ≤ a) :
    ibufIndex p a = false := by
  rcases h with ⟨hc, hle⟩ | hwide
  · rw [ibufIndex, fitsCap_some_of_lt hc (Nat.lt_succ_of_le hle), Bool.and_false]
  · rw [ibufIndex, decide_eq_false (Nat.not_lt.2 hwide), Bool.false_and]

theorem obufIndex_beyond {p : Params} {a n : Nat} (h : (p.obufCap = some n ∧ n ≤ a) ∨ 2 ^ 64 ≤ a) :
    obufIndex p a = false := by
  rcases h with ⟨hc, hle⟩ | hwide
  · rw [obufIndex, fitsCap_some_of_lt hc (Nat.lt_succ_of_le hle), Bool.and_false]
  · rw [obufIndex, decide_eq_false (Nat.not_lt.2 hwide), Bool.false_and]

section
variable {s : State}

theorem issue_refused (hb : s.status ≠ .busy) (hf : ilenFits s = false) (accepted : State) :
    issue accepted s = .refused .commandBeyondCapacity := by
  rw [issue, (isBusy_eq_false_iff s).2 hb, hf]; rfl

/-- A command byte is refused before anything is done, a reserved one too (log entry 13). -/
theorem writeCommand_refused (hb : s.status ≠ .busy) (hf : ilenFits s = false) (v : BitVec 8) :
    writeCommand v s = .refused .commandBeyondCapacity := by
  unfold writeCommand
  rcases decodeCmd_cases v with e | e | e <;> rw [e] <;> exact issue_refused hb hf _

theorem writeInput_refused {a : Nat} (h : ibufIndex s.params a = false) (b : Byte) :
    writeInput a b s = .refused .hostIndexBeyondCapacity := by
  rw [writeInput, h]; rfl

theorem readInput_refused {a : Nat} (h : ibufIndex s.params a = false) :
    readInput a s = .refused .hostIndexBeyondCapacity := by
  rw [readInput, h]; rfl

theorem readOutput_refused {a : Nat} (h : obufIndex s.params a = false) :
    readOutput a s = .refused .hostIndexBeyondCapacity := by
  rw [readOutput, h]; rfl

end

/-- Settles O10: the step is the host's access, and each access looks at its bound before all else. -/
theorem outOfRangeIsRefused : Obligations.OutOfRangeIsRefused := by
  intro s rest v a n b x hs
  refine ⟨fun h hb hcap hlt => ?_, fun h hbeyond => ?_, fun h hbeyond => ?_, fun h h6 => ?_⟩
  · rw [step_live h hs]
    exact writeCommand_refused (s := { s with hostOps := rest }) hb (fitsCap_some_of_lt hcap hlt) v
  · rcases h with h | h <;> rw [step_live h hs]
    · exact writeInput_refused (s := { s with hostOps := rest }) (ibufIndex_beyond hbeyond) b
    · exact readInput_refused (ibufIndex_beyond hbeyond)
  · rw [step_live h hs]
    exact readOutput_refused (obufIndex_beyond hbeyond)
  · rcases h with h | h <;> rw [step_live h hs, hostAction, ofNumber_eq_none h6]
    · rfl
    · rfl

end Sys2Proof.Machine
end

section
/-! Proofs of the statements of 20_memory.md: the output of the EMIT phases in OBUF (R71, R186, R213). -/

namespace Sys2Proof.Machine

theorem emitOutput_fits {A : List Byte} {s : State} (h : fitsCap A.length s.params.obufCap = true) :
    emitOutput A s = finish A s := by
  rw [emitOutput, if_pos h]

theorem memRead_memStore_zero_below (m : Mem) (vs : List Byte) {j : Nat} (h : j < vs.length) :
    memRead (memStore m 0 vs) j = some vs[j] := by
  rw [memRead_memStore, dif_pos (by omega)]; rfl

theorem memRead_memStore_zero_beyond (m : Mem) {vs : List Byte} {j : Nat} (h : vs.length ≤ j) :
    memRead (memStore m 0 vs) j = memRead m j := by
  rw [memRead_memStore, dif_neg (by omega)]

/-- Settles O37: output that fits ends the command with `finish`, which stores it from index 0 on. -/
theorem emitPhasesWriteOutput : Obligations.EmitPhasesWriteOutput := by
  intro s i A hi hfits
  have hexec : exec i s = .next (finish A s) := by
    rw [← emitOutput_fits hfits]
    rcases hi with ⟨rfl, rfl⟩ | ⟨rfl, rfl⟩ <;> rfl
  exact ⟨finish A s, hexec, rfl, rfl, rfl, fun j h => memRead_memStore_zero_below _ _ h,
    fun j h => memRead_memStore_zero_beyond _ h, rfl, rfl, rfl, rfl, rfl, rfl, rfl, rfl⟩

end Sys2Proof.Machine
end

section
/-! Proofs of the statements of 20_memory.md: where an operation stops with a fault (R69, R125, R36, R47; log entries 8 and 11). -/

namespace Sys2Proof.Machine

section
variable {s : State} {r : Fault}

/-- The four phases that read IBUF have one fault: the input lies beyond IBUF_CAP. -/
theorem exec_reading_fault {i : Instr} (hi : i = .pECount ∨ i = .pEPack ∨ i = .pDParse ∨ i = .pDUnpack)
    (h : exec i s = .fault r) : r = .inputBeyondCapacity ∧ ilenFits s = false := by
  cases hf : ilenFits s with
  | true =>
    obtain ⟨t, ht⟩ := exec_reading_total hf hi
    rw [ht] at h; cases h
  | false =>
    have hstop : exec i s = .fault .inputBeyondCapacity := by
      rcases hi with rfl | rfl | rfl | rfl
      · rw [exec, execPECount, hf]; rfl
      · rw [exec, execPEPack, hf]; rfl
      · rw [exec, execPDParse, hf]; rfl
      · rw [exec, execPDUnpack, hf]; rfl
    rw [hstop] at h; cases h
    exact ⟨rfl, rfl⟩

theorem extractMin_eq_none {nd : Arena} {q : List Slot} (h : extractMin nd q = none) : q = [] := by
  cases q with
  | nil => rfl
  | cons i q => cases h

/-- A merge stops where PQ has not two different elements, or where no slot of the arena is free. -/
theorem mergeStep_error {w : Work} (h : mergeStep w = .error r) :
    (r = .mergeNeedsTwo ∧ ∀ a ∈ w.pq, ∀ b ∈ w.pq, a = b) ∨ (r = .arenaFull ∧ 511 ≤ w.nnodes.toNat) := by
  rcases ha : extractMin w.node w.pq with _ | ⟨m, q1⟩
  · simp only [mergeStep, ha, Except.error.injEq] at h
    exact .inl ⟨h.symm, by rw [extractMin_eq_none ha]; simp⟩
  rcases hb : extractMin w.node q1 with _ | ⟨b, q2⟩
  · simp only [mergeStep, ha, hb, Except.error.injEq] at h
    have honly : ∀ i ∈ w.pq, i = m := by
      simpa [(extractMin_some ha).2] using extractMin_eq_none hb
    exact .inl ⟨h.symm, fun a ha b hb => (honly a ha).trans (honly b hb).symm⟩
  by_cases hn : w.nnodes.toNat < 511
  · rw [mergeStep_eq ha hb hn] at h; cases h
  · simp only [mergeStep, ha, hb, hn, dite_false, Except.error.injEq] at h
    exact .inr ⟨h.symm, by omega⟩

theorem execPETbMerge_fault (h : execPETbMerge s = .fault r) : mergeStep s.work = .error r := by
  unfold execPETbMerge at h
  split at h
  · rename_i e; cases h; exact e
  · cases h

theorem execPDMatch_fault (h : execPDMatch s = .fault r) :
    r = .unpackedBitsMissing ∧ s.work.ubits.length < s.work.tbits.toNat := by
  unfold execPDMatch at h
  split at h
  · rename_i hlt; cases h; exact ⟨rfl, hlt⟩
  · split at h <;> cases h

theorem execPETbInit_ne_fault : execPETbInit s ≠ .fault r := by
  unfold execPETbInit
  dsimp only
  split
  · exact nofun
  · split <;> exact nofun

theorem execPEDerive_ne_fault : execPEDerive s ≠ .fault r := by
  unfold execPEDerive
  split <;> exact nofun

end

/-- Settles O53, operation by operation. -/
theorem operationsStopOnlyWhereNoRuleApplies : Obligations.OperationsStopOnlyWhereNoRuleApplies := by
  intro i s r h
  have reading (hi : i = .pECount ∨ i = .pEPack ∨ i = .pDParse ∨ i = .pDUnpack) :
      r = .inputBeyondCapacity ∧ ilenFits s = false ∧ (i = .pECount ∨ i = .pEPack ∨ i = .pDParse ∨ i = .pDUnpack) := by
    obtain ⟨hr, hf⟩ := exec_reading_fault hi h
    exact ⟨hr, hf, hi⟩
  cases i
  case encode => exact absurd h (issue_ne_fault _ _ _)
  case decode => exact absurd h (issue_ne_fault _ _ _)
  case pIdle => cases h
  case pECount => exact .inl (reading (by simp))
  case pETbInit => exact absurd h execPETbInit_ne_fault
  case pETbMerge =>
    rcases mergeStep_error (execPETbMerge_fault h) with ⟨hr, hone⟩ | ⟨hr, hfull⟩
    · exact .inr (.inl ⟨hr, rfl, hone⟩)
    · exact .inr (.inr (.inl ⟨hr, rfl, hfull⟩))
  case pEDerive => exact absurd h execPEDerive_ne_fault
  case pEPack => exact .inl (reading (by simp))
  case pEEmit => cases h
  case pDParse => exact .inl (reading (by simp))
  case pDUnpack => exact .inl (reading (by simp))
  case pDMatch =>
    obtain ⟨hr, hlt⟩ := execPDMatch_fault h
    exact .inr (.inr (.inr ⟨hr, rfl, hlt⟩))
  case pDEmit => cases h

end Sys2Proof.Machine
end

section
/-! Proofs of the statements of 30_encoding.md: the words of the operations, and the reserved ones (R80 to R84). -/

namespace Sys2Proof.Machine

/-! ## Words (R80, R83) -/

theorem findRow_some {w : Nat} {rows : List (OpRow w)} {v : BitVec w} {i : Instr} (h : findRow rows v = some i) :
    ∃ r ∈ rows, v &&& r.mask = r.pattern ∧ r.instr = i := by
  obtain ⟨r, hr, hi⟩ := Option.map_eq_some_iff.1 h
  exact ⟨r, List.mem_of_find?_eq_some hr, by simpa using List.find?_some hr, hi⟩

/-- A row compares every bit of a command, with the word of the row's operation. -/
theorem cmdRows_full : ∀ r ∈ cmdRows, r.mask = BitVec.allOnes 8 ∧ encode r.instr = .cmd r.pattern := by decide

/-- The command a byte selects has that byte (R80). -/
theorem encode_of_decodeCmd {v : BitVec 8} {i : Instr} (h : decodeCmd v = some i) : encode i = .cmd v := by
  obtain ⟨r, hr, hv, rfl⟩ := findRow_some h
  obtain ⟨hmask, hencode⟩ := cmdRows_full r hr
  rw [hencode, ← hv, hmask, BitVec.and_allOnes]

theorem decode_encode (i : Instr) : decode (encode i) = .ok i := by cases i <;> rfl

theorem decode_eq_ok_iff (w : OpWord) (i : Instr) : decode w = .ok i ↔ w = encode i := by
  refine ⟨fun h => ?_, fun h => h ▸ decode_encode i⟩
  cases w with
  | cmd v => exact (encode_of_decodeCmd ((decode_cmd_ok v i).1 h)).symm
  | phase c => exact (encode_of_decodePhase ((decode_phase_ok c i).1 h)).symm

/-- The commands are the two bytes of R80; the 254 others are reserved (R82). -/
theorem exists_decode_cmd_iff (v : BitVec 8) : (∃ i, decode (.cmd v) = .ok i) ↔ v = 0x01#8 ∨ v = 0x02#8 := by
  constructor
  · rintro ⟨i, h⟩
    rw [decode_eq_ok_iff] at h
    cases i <;> cases h
    · exact .inl rfl
    · exact .inr rfl
  · rintro (rfl | rfl)
    · exact ⟨.encode, rfl⟩
    · exact ⟨.decode, rfl⟩

/-- The reserved phase codes (R84). -/
theorem isSome_decodePhase_iff : ∀ c : BitVec 4,
    (decodePhase c).isSome = true ↔ ¬ (c = 0x7#4 ∨ c = 0xC#4 ∨ c = 0xD#4 ∨ c = 0xE#4 ∨ c = 0xF#4) := by decide

/-- Settles O4: each word is its operation's. -/
theorem tableWordsDecode : Obligations.TableWordsDecode :=
  ⟨decode_encode .encode, decode_encode .decode, decode_encode .pIdle, decode_encode .pECount, decode_encode .pETbMerge,
    decode_encode .pEDerive, decode_encode .pEEmit, decode_encode .pDParse, decode_encode .pDEmit⟩

/-- Settles O5: a row of either table holds its operation's word, and the rows leave exactly the reserved words out. -/
theorem eachOperationHasOneWord : Obligations.EachOperationHasOneWord := by
  refine ⟨decode_eq_ok_iff, exists_decode_cmd_iff, fun c => ?_⟩
  rw [← isSome_decodePhase_iff, Option.isSome_iff_exists]
  exact exists_congr (decode_phase_ok c)

/-! ## A reserved command (R82, R231) -/

theorem decodeCmd_reserved {v : BitVec 8} (h1 : v ≠ 0x01#8) (h2 : v ≠ 0x02#8) : decodeCmd v = none := by
  cases hv : decodeCmd v with
  | none => rfl
  | some i => exact (((exists_decode_cmd_iff v).1 ⟨i, (decode_cmd_ok v i).2 hv⟩).elim h1 h2).elim

/-- Settles O8: the byte selects nothing, so the step raises IllegalCommand from the cleared state. -/
theorem reservedCommandIsIllegal : Obligations.ReservedCommandIsIllegal := by
  intro s v rest h1 h2 hops hlive hb hf
  have hstep : step s = .next (raise .illegalCommand .noStage (acceptClear { s with hostOps := rest })) := by
    rw [step_live hops hlive, hostAction, writeCommand, decodeCmd_reserved h1 h2]
    exact issue_accepted (s := { s with hostOps := rest }) hb hf _
  exact ⟨_, hstep, rfl, rfl, rfl, rfl, rfl, fun _ => rfl, rfl, rfl, rfl, rfl, rfl, rfl⟩

/-! ## A reserved phase code (R84) -/

/-- The first phase of a command (R180, R200). -/
theorem isSome_decodePhase_first {c : BitVec 4} (h : c = codeECount ∨ c = codeDParse) : (decodePhase c).isSome = true := by
  rcases h with rfl | rfl <;> decide

theorem exec_phaseLegal {i : Instr} {s t : State} (hs : (decodePhase s.phase).isSome = true) (h : exec i s = .next t) :
    (decodePhase t.phase).isSome = true := by
  rcases exec_next_cases h with rfl | ⟨c, -, -, rfl, hc⟩ | ⟨c, w, rfl, hc, -⟩ | ⟨e, st, rfl, -⟩ | ⟨A, rfl, -⟩
  · exact hs
  · exact isSome_decodePhase_first hc
  · exact hc
  · exact isSome_decodePhase_idle
  · exact isSome_decodePhase_idle

theorem writeCommand_phaseLegal {v : BitVec 8} {s t : State} (hs : (decodePhase s.phase).isSome = true)
    (h : writeCommand v s = .next t) : (decodePhase t.phase).isSome = true := by
  rcases writeCommand_next h with ⟨-, rfl⟩ | ⟨-, -, ⟨c, rfl, hc⟩ | rfl⟩
  · exact hs
  · exact isSome_decodePhase_first hc
  · exact isSome_decodePhase_idle

/-- Settles O6: a reserved code is no phase's; the phases, the commands and the reset event leave a phase's code. -/
theorem reservedPhaseIsStuck : Obligations.ReservedPhaseIsStuck := by
  refine ⟨fun s hs hops => step_stuck ?_ hops, fun s t hs h => ?_⟩
  · rw [← Bool.not_eq_false, isStuck_eq_false_iff, isSome_decodePhase_iff]
    exact not_not_intro hs
  · cases step_effect h with
    | phase ops i t hi h => exact exec_phaseLegal (s := { s with hostOps := ops }) hs h
    | command ops k v t h => exact writeCommand_phaseLegal (s := { s with hostOps := ops, frees := k }) hs h
    | access ops reads k => exact hs
    | inputByte ops a b ha hb => exact hs
    | inputLength ops k n hb => exact hs
    | reset ops => exact isSome_decodePhase_idle

end Sys2Proof.Machine
end

section
/-! Proofs of the statements of 30_encoding.md: the parser accepts exactly the legal tables (R91 to R93, R100, R202). -/

namespace Sys2Proof.Machine

/-! ## The bytes of an entry and of the entry count -/

/-- A legal entry's code bytes are exactly those Unpack needs, and Unpack gives the code (R92, R93, R171). -/
theorem entryOk_iff (e : TableEntry) :
    EntryOk e ↔ 1 ≤ e.bits.length ∧ e.bits.length ≤ 255 ∧ e.codeBytes.length = ceil8 e.bits.length ∧
      unpack e.codeBytes e.bits.length = some e.bits := by
  rw [unpack_some]
  constructor
  · rintro ⟨h1, h255, hlen, hbits⟩
    exact ⟨h1, h255, hlen, hlen.ge, rfl, hbits⟩
  · rintro ⟨h1, h255, hlen, -, -, hbits⟩
    exact ⟨h1, h255, hlen, hbits⟩

theorem length_entryOnWire {e : TableEntry} (h : e.codeBytes.length = ceil8 e.bits.length) :
    (entryOnWire e).length = 2 + ceil8 e.bits.length := by
  rw [entryOnWire, List.length_cons, List.length_cons, h]
  omega

theorem tableOnWire_cons (e : TableEntry) (es : List TableEntry) : tableOnWire (e :: es) = entryOnWire e ++ tableOnWire es :=
  List.flatMap_cons

theorem byteAt_add (a : List Byte) (p i : Nat) : byteAt a (p + i) = byteAt (a.drop p) i := by
  rw [byteAt, byteAt, List.getD_eq_getElem?_getD, List.getD_eq_getElem?_getD, List.getElem?_drop]

theorem drop_eq_two_bytes {a : List Byte} {p : Nat} (h : p + 2 ≤ a.length) :
    a.drop p = byteAt a p :: byteAt a (p + 1) :: a.drop (p + 2) := by
  rw [List.drop_eq_getElem_cons (by omega), List.drop_eq_getElem_cons (by omega), byteAt, byteAt,
    List.getD_eq_getElem _ _ (by omega), List.getD_eq_getElem _ _ (by omega)]

/-- The entry count is read from its two bytes. -/
theorem entryCount_u16be (v : BitVec 16) (rest : List Byte) : entryCount (u16be v ++ rest) = v.toNat := by
  have hlt := v.isLt
  rw [u16be_eq]
  change (v.extractLsb' (8 * 1) 8).toNat * 256 + (v.extractLsb' (8 * 0) 8).toNat = v.toNat
  rw [toNat_extractLsb'_byte, toNat_extractLsb'_byte]
  omega

/-- The two bytes of the entry count are those ENCODE writes for it. -/
theorem u16be_be16 (b0 b1 : Byte) : u16be (BitVec.ofNat 16 (be16 b0 b1)) = [b0, b1] := by
  have h0 := b0.isLt
  have h1 := b1.isLt
  have hlt : be16 b0 b1 < 2 ^ 16 := by rw [be16]; omega
  have hv : (BitVec.ofNat 16 (be16 b0 b1)).toNat = b0.toNat * 256 + b1.toNat := by
    rw [BitVec.toNat_ofNat, Nat.mod_eq_of_lt hlt, be16]
  rw [u16be_eq]
  congr 1
  · refine BitVec.eq_of_toNat_eq ?_
    rw [toNat_extractLsb'_byte, hv]
    omega
  · congr 1
    refine BitVec.eq_of_toNat_eq ?_
    rw [toNat_extractLsb'_byte, hv]
    omega

/-! ## Entries that a table can take (tests (6) and (7) of R202) -/

/-- A new entry's Symbol is not present yet, and its code clashes with none in the table. -/
def Fits (c : CodeTable) (e : TableEntry) : Prop := (codeOf c e.sym).present = false ∧ clashes c e.bits = false

/-- The Symbols of two entries differ, and their codes do not clash. -/
def Apart (d e : TableEntry) : Prop := d.sym ≠ e.sym ∧ clash d.bits e.bits = false

/-- The entries are legal, fit the table, and fit each other. -/
def AllFit (c : CodeTable) (es : List TableEntry) : Prop := (∀ e ∈ es, EntryOk e ∧ Fits c e) ∧ es.Pairwise Apart

/-- The table with the entries added. -/
def addEntries (c : CodeTable) (es : List TableEntry) : CodeTable := es.foldl (fun c e => setCode c e.sym e.bits) c

theorem clashes_eq_false_iff (c : CodeTable) (β : Bits) :
    clashes c β = false ↔ ∀ t, (codeOf c t).present = true → clash (codeOf c t).bits β = false := by
  simp [clashes]

theorem fits_setCode {c : CodeTable} {d : TableEntry} (hd : (codeOf c d.sym).present = false) (e : TableEntry) :
    Fits (setCode c d.sym d.bits) e ↔ Fits c e ∧ Apart d e := by
  simp only [Fits, Apart, clashes_eq_false_iff, codeOf_setCode]
  constructor
  · rintro ⟨hp, hc⟩
    have hne : e.sym ≠ d.sym := fun h => by simp [h] at hp
    refine ⟨⟨by simpa [hne] using hp, fun t ht => ?_⟩, hne.symm, by simpa using hc d.sym⟩
    have htd : t ≠ d.sym := fun h => by rw [h, hd] at ht; cases ht
    simpa [htd, ht] using hc t
  · rintro ⟨⟨hp, hc⟩, hne, hclash⟩
    refine ⟨by rwa [if_neg hne.symm], fun t ht => ?_⟩
    split
    · exact hclash
    · rename_i htd
      exact hc t (by rwa [if_neg htd] at ht)

theorem allFit_cons (c : CodeTable) (e : TableEntry) (es : List TableEntry) :
    AllFit c (e :: es) ↔ EntryOk e ∧ Fits c e ∧ AllFit (setCode c e.sym e.bits) es := by
  simp only [AllFit, List.forall_mem_cons, List.pairwise_cons]
  constructor
  · rintro ⟨⟨⟨hok, hfit⟩, hes⟩, hapart, hpw⟩
    exact ⟨hok, hfit, fun d hd => ⟨(hes d hd).1, (fits_setCode hfit.1 d).2 ⟨(hes d hd).2, hapart d hd⟩⟩, hpw⟩
  · rintro ⟨hok, hfit, hes, hpw⟩
    have hes' (d) (hd : d ∈ es) := (fits_setCode hfit.1 d).1 (hes d hd).2
    exact ⟨⟨⟨hok, hfit⟩, fun d hd => ⟨(hes d hd).1, (hes' d hd).1⟩⟩, fun d hd => (hes' d hd).2, hpw⟩

theorem allFit_of_noCodes {c : CodeTable} (h : NoCodes c) (es : List TableEntry) :
    AllFit c es ↔ (∀ e ∈ es, EntryOk e) ∧ es.Pairwise Apart := by
  have hfit (e : TableEntry) : Fits c e := ⟨h _, (clashes_eq_false_iff c _).2 fun t ht => by rw [h t] at ht; cases ht⟩
  simp [AllFit, hfit]

/-! ## The entry loop -/

/-- One round of the loop over a legal entry that fits. -/
theorem parseEntries_entry {a rest : List Byte} {p : Nat} {c : CodeTable} {e : TableEntry} (ha : a.drop p = entryOnWire e ++ rest)
    (hok : EntryOk e) (hfit : Fits c e) (k : Nat) :
    parseEntries a (k + 1) p c = parseEntries a k (p + (entryOnWire e).length) (setCode c e.sym e.bits) := by
  obtain ⟨h1, h255, hlen, hbits⟩ := (entryOk_iff e).1 hok
  have hp : p + 2 + ceil8 e.bits.length ≤ a.length := by
    have := congrArg List.length ha
    rw [List.length_drop, List.length_append, length_entryOnWire hlen] at this
    omega
  have hsym : byteAt a p = e.sym := by rw [← Nat.add_zero p, byteAt_add, ha]; rfl
  have hl : (byteAt a (p + 1)).toNat = e.bits.length := by
    rw [byteAt_add, ha]
    exact Nat.mod_eq_of_lt (by omega)
  have hcode : (a.drop (p + 2)).take (ceil8 e.bits.length) = e.codeBytes := by
    rw [← List.drop_drop, ha]
    exact List.take_left' hlen
  rw [parseEntries, if_neg (by omega)]
  dsimp only
  rw [hsym, hl, if_neg (by omega), if_neg (by omega), hcode, hbits]
  dsimp only
  rw [hfit.1, hfit.2, if_neg (by decide), if_neg (by decide), length_entryOnWire hlen, Nat.add_assoc]

/-- A round that the loop survives has read a legal entry that fits. -/
theorem parseEntries_succ_some {a : List Byte} {k p : Nat} {c : CodeTable} {r : CodeTable × Nat}
    (h : parseEntries a (k + 1) p c = some r) :
    ∃ e rest, a.drop p = entryOnWire e ++ rest ∧ EntryOk e ∧ Fits c e := by
  simp only [parseEntries] at h
  split at h
  · cases h
  rename_i hp
  split at h
  · cases h
  rename_i hl
  split at h
  · cases h
  rename_i hcode
  split at h
  · cases h
  rename_i β hβ
  split at h
  · cases h
  rename_i hpresent
  split at h
  · cases h
  rename_i hclash
  have hβl : β.length = (byteAt a (p + 1)).toNat := (unpack_some.1 hβ).2.1
  have hl255 := (byteAt a (p + 1)).isLt
  refine ⟨⟨byteAt a p, β, (a.drop (p + 2)).take (ceil8 (byteAt a (p + 1)).toNat)⟩,
    (a.drop (p + 2)).drop (ceil8 (byteAt a (p + 1)).toNat), ?_, (entryOk_iff _).2 ⟨?_, ?_, ?_, ?_⟩, ?_, ?_⟩
  · rw [drop_eq_two_bytes (by omega)]
    simp [entryOnWire, hβl]
  · simp only; omega
  · simp only; omega
  · simp only [List.length_take, List.length_drop, hβl]; omega
  · simpa only [hβl] using hβ
  · simpa using hpresent
  · simpa using hclash

/-- The loop accepts exactly the legal entries that fit, and adds them to the table (R202). -/
theorem parseEntries_eq_some_iff (a : List Byte) (k p : Nat) (c c' : CodeTable) (p' : Nat) :
    parseEntries a k p c = some (c', p') ↔
      ∃ es rest, es.length = k ∧ a.drop p = tableOnWire es ++ rest ∧ AllFit c es ∧ c' = addEntries c es ∧
        p' = p + (tableOnWire es).length := by
  induction k generalizing p c with
  | zero =>
    constructor
    · intro h
      cases h
      exact ⟨[], _, rfl, rfl, ⟨nofun, .nil⟩, rfl, rfl⟩
    · rintro ⟨es, rest, hk, -, -, rfl, rfl⟩
      rw [List.length_eq_zero_iff.1 hk]
      rfl
  | succ k ih =>
    constructor
    · intro h
      obtain ⟨e, rest, ha, hok, hfit⟩ := parseEntries_succ_some h
      rw [parseEntries_entry ha hok hfit, ih] at h
      obtain ⟨es, rest', hk, ha', hes, hc, hp⟩ := h
      refine ⟨e :: es, rest', congrArg (· + 1) hk, ?_, (allFit_cons c e es).2 ⟨hok, hfit, hes⟩, hc, ?_⟩
      · rw [← List.drop_drop, ha, List.drop_left] at ha'
        rw [ha, ha', tableOnWire_cons, List.append_assoc]
      · rw [hp, tableOnWire_cons, List.length_append, Nat.add_assoc]
    · rintro ⟨_ | ⟨e, es⟩, rest, hk, ha, hes, hc, hp⟩
      · cases hk
      obtain ⟨hok, hfit, hes⟩ := (allFit_cons c e es).1 hes
      rw [tableOnWire_cons, List.append_assoc] at ha
      rw [parseEntries_entry ha hok hfit, ih]
      refine ⟨es, rest, Nat.succ.inj hk, ?_, hes, hc, ?_⟩
      · rw [← List.drop_drop, ha, List.drop_left]
      · rw [hp, tableOnWire_cons, List.length_append, Nat.add_assoc]

/-! ## The whole table -/

/-- The parser accepts exactly the inputs that begin with a legal table (R100, R202). -/
theorem parseTable_eq_some_iff {c : CodeTable} (h : NoCodes c) (a : List Byte) (n : Nat) (c' : CodeTable) (p : Nat) :
    parseTable a c = some (n, c', p) ↔
      ∃ es rest, HoldsTable a es rest ∧ n = es.length ∧ c' = addEntries c es ∧ p = 2 + (tableOnWire es).length := by
  constructor
  · intro hparse
    unfold parseTable at hparse
    split at hparse
    · cases hparse
    rename_i hlen
    split at hparse
    · cases hparse
    rename_i hcount
    split at hparse
    · cases hparse
    rename_i he
    cases hparse
    obtain ⟨es, rest, hk, ha, hes, rfl, rfl⟩ := (parseEntries_eq_some_iff ..).1 he
    obtain ⟨hok, hpw⟩ := (allFit_of_noCodes h es).1 hes
    refine ⟨es, rest, ⟨?_, by omega, hok, hpw⟩, hk.symm, rfl, rfl⟩
    calc a = byteAt a 0 :: byteAt a 1 :: a.drop 2 := drop_eq_two_bytes (p := 0) (by omega)
      _ = u16be (BitVec.ofNat 16 es.length) ++ tableOnWire es ++ rest := by
        rw [hk, entryCount, u16be_be16, ha, List.append_assoc]; rfl
  · rintro ⟨es, rest, ⟨ha, h256, hok, hpw⟩, rfl, rfl, rfl⟩
    have hcount : entryCount a = es.length := by
      rw [ha, List.append_assoc, entryCount_u16be]
      exact Nat.mod_eq_of_lt (by omega)
    have hlen : 2 ≤ a.length := by
      rw [ha, List.append_assoc]
      exact Nat.le_add_left 2 _
    have hentries := (parseEntries_eq_some_iff a es.length 2 c _ _).2
      ⟨es, rest, rfl, by rw [ha, List.append_assoc]; rfl, (allFit_of_noCodes h es).2 ⟨hok, hpw⟩, rfl, rfl⟩
    rw [parseTable, if_neg (by omega), hcount, if_neg (by omega), hentries]

/-- Settles O40: what the parser accepts begins with a legal table. -/
theorem parseRejectsEverythingElse : Obligations.ParseRejectsEverythingElse := by
  intro s hf hcodes hnone
  refine execPDParse_none hf ?_
  cases hparse : parseTable (input s) s.work.code with
  | none => rfl
  | some r =>
    obtain ⟨es, rest, hes, -⟩ := (parseTable_eq_some_iff hcodes ..).1 hparse
    exact absurd ⟨es, rest, hes⟩ hnone

end Sys2Proof.Machine
end

section
/-! Proofs of the statements of 30_encoding.md: the table an artifact holds, and that it parses back (R90 to R98, R216). -/

namespace Sys2Proof.Machine

/-! ## Pack is read back bit by bit (R155, R171) -/

theorem bitOf_pack (β : Bits) {i : Nat} (h : i < β.length) : bitOf (pack β) i = β[i] := by
  have hj : i / 8 < ceil8 β.length := by unfold ceil8; omega
  rw [bitOf, pack, List.getD_eq_getElem _ _ (by simpa using hj), List.getElem_map, List.getElem_range,
    packByte_bit _ _ _ (Nat.mod_lt i (by decide)), Nat.div_add_mod, List.getD_eq_getElem _ _ h]

/-! ## The entries of a code table, as the artifact holds them -/

/-- The entry of one Symbol. -/
def tableEntry (c : CodeTable) (s : Byte) : TableEntry :=
  { sym := s, bits := (codeOf c s).bits, codeBytes := pack (codeOf c s).bits }

/-- The Symbols that are present, in ascending order. -/
def codeSymbols (c : CodeTable) : List Byte := allSymbols.filter fun s => (codeOf c s).present

/-- The entries of the present Symbols, in that order. -/
def tableEntries (c : CodeTable) : List TableEntry := (codeSymbols c).map (tableEntry c)

@[simp] theorem mem_codeSymbols (c : CodeTable) (s : Byte) : s ∈ codeSymbols c ↔ (codeOf c s).present = true := by
  simp [codeSymbols]

theorem codeSymbols_sorted (c : CodeTable) : (codeSymbols c).Pairwise (· < ·) := allSymbols_sorted.filter _

theorem length_tableEntries (c : CodeTable) : (tableEntries c).length = entriesOf c := List.length_map _

theorem mem_tableEntries (c : CodeTable) (e : TableEntry) :
    e ∈ tableEntries c ↔ ∃ s, (codeOf c s).present = true ∧ tableEntry c s = e := by
  simp [tableEntries]

theorem flatMap_filter {α β : Type} (test : α → Bool) (f : α → List β) (l : List α) :
    (l.filter test).flatMap f = l.flatMap fun x => if test x then f x else [] := by
  induction l with
  | nil => rfl
  | cons x l ih => by_cases hx : test x <;> simp [hx, ih]

theorem tableBytes_eq (c : CodeTable) : tableBytes c = tableOnWire (tableEntries c) := by
  rw [tableOnWire, tableEntries, List.flatMap_map, codeSymbols, flatMap_filter]
  rfl

/-- Ascending entries of exactly the present Symbols, each with its code, can only be the table's (R98). -/
theorem eq_tableEntries {c : CodeTable} {es : List TableEntry} (hsorted : es.Pairwise (fun d e => d.sym < e.sym))
    (hmem : ∀ b, (codeOf c b).present = true ↔ ∃ e ∈ es, e.sym = b) (hentry : ∀ e ∈ es, e = tableEntry c e.sym) :
    es = tableEntries c := by
  have hsyms : es.map (·.sym) = codeSymbols c :=
    (List.pairwise_map.2 hsorted).eq_of_mem_iff (codeSymbols_sorted c) fun b => by
      rw [List.mem_map, mem_codeSymbols, hmem]
  calc es = es.map (fun e => tableEntry c e.sym) := es.map_id.symm.trans (List.map_congr_left hentry)
    _ = tableEntries c := by rw [tableEntries, ← hsyms, List.map_map]; rfl

/-- Settles O36: the table's bytes are those of its entries; without any, the count, the total and no payload are left. -/
theorem artifactHasFourParts : Obligations.ArtifactHasFourParts := by
  refine ⟨fun w es hsorted hmem hcode => ?_, fun w hn hcodes ht hp => ?_⟩
  · have hes : es = tableEntries w.code := eq_tableEntries hsorted hmem fun e he => by
      obtain ⟨hbits, hbytes⟩ := hcode e he
      rw [tableEntry, ← hbits, ← hbytes]
    rw [hes, ← tableBytes_eq, BitVec.ofNat_toNat, artifact]
  · rw [artifact, hn, tableBytes_of_noCodes hcodes, ht, hp]
    rfl

/-! ## The table that entries make -/

theorem codeOf_addEntries_of_ne {b : Byte} {es : List TableEntry} (h : ∀ e ∈ es, e.sym ≠ b) (c : CodeTable) :
    codeOf (addEntries c es) b = codeOf c b := by
  induction es generalizing c with
  | nil => rfl
  | cons e es ih =>
    obtain ⟨he, hes⟩ := List.forall_mem_cons.1 h
    exact (ih hes _).trans ((codeOf_setCode ..).trans (if_neg he.symm))

theorem codeOf_addEntries_of_mem {es : List TableEntry} (hpw : es.Pairwise Apart) {e : TableEntry} (he : e ∈ es)
    (c : CodeTable) : codeOf (addEntries c es) e.sym = { present := true, bits := e.bits } := by
  induction es generalizing c with
  | nil => cases he
  | cons d es ih =>
    obtain ⟨hd, hpw⟩ := List.pairwise_cons.1 hpw
    rcases List.mem_cons.1 he with rfl | he
    · exact (codeOf_addEntries_of_ne (fun x hx => (hd x hx).1.symm) _).trans ((codeOf_setCode ..).trans (if_pos rfl))
    · exact ih hpw he _

/-! ## Parsing what ENCODE writes -/

/-- A well-formed code table's own entries are a legal table (R41, R202). -/
theorem holdsTable_tableEntries {c : CodeTable} (h : TableWf c) (rest : List Byte) :
    HoldsTable (u16be (BitVec.ofNat 16 (entriesOf c)) ++ tableBytes c ++ rest) (tableEntries c) rest := by
  obtain ⟨hlen, hclash⟩ := h
  refine ⟨by rw [length_tableEntries, tableBytes_eq], ?_, fun e he => ?_, List.pairwise_map.2 ?_⟩
  · rw [length_tableEntries]
    exact (List.length_filter_le _ _).trans length_allSymbols.le
  · obtain ⟨s, hs, rfl⟩ := (mem_tableEntries c e).1 he
    exact ⟨(hlen s hs).1, (hlen s hs).2, length_pack _, fun i hi => (bitOf_pack _ hi).symm⟩
  · refine (codeSymbols_sorted c).imp_of_mem fun {s t} hs ht hlt => ?_
    have hne : s ≠ t := fun e => absurd (e ▸ hlt) (BitVec.lt_irrefl t)
    exact ⟨hne, hclash s t hne ((mem_codeSymbols c s).1 hs) ((mem_codeSymbols c t).1 ht)⟩

/-- Adding a table's entries to the empty table gives a table with the same codes. -/
theorem sameCodes_addEntries {c : CodeTable} (h : TableWf c) : SameCodes c (addEntries noCodes (tableEntries c)) := by
  obtain ⟨-, -, -, hpw⟩ := holdsTable_tableEntries h []
  intro s
  cases hs : (codeOf c s).present with
  | true =>
    have hmem : tableEntry c s ∈ tableEntries c := (mem_tableEntries c _).2 ⟨s, hs, rfl⟩
    have hcode : codeOf (addEntries noCodes (tableEntries c)) s = { present := true, bits := (codeOf c s).bits } :=
      codeOf_addEntries_of_mem hpw hmem noCodes
    rw [hcode]
    exact ⟨rfl, fun _ => rfl⟩
  | false =>
    have hne : ∀ e ∈ tableEntries c, e.sym ≠ s := by
      intro e he hes
      obtain ⟨t, ht, rfl⟩ := (mem_tableEntries c e).1 he
      rw [← hes] at hs
      exact absurd (ht.symm.trans hs) (by decide)
    rw [codeOf_addEntries_of_ne hne, codeOf_noCodes]
    exact ⟨rfl, nofun⟩

/-- Settles O42: the table's own entries are a legal table, which the parser accepts and adds to the empty one. -/
theorem serializedTableParsesBack : Obligations.SerializedTableParsesBack := by
  intro c rest h
  refine ⟨addEntries noCodes (tableEntries c), ?_, sameCodes_addEntries h⟩
  exact (parseTable_eq_some_iff noCodes_noCodes ..).2
    ⟨tableEntries c, rest, holdsTable_tableEntries h rest, (length_tableEntries c).symm, rfl, by rw [tableBytes_eq]⟩

end Sys2Proof.Machine
end

section
/-! Proofs of the statements of 40_frequency_table.md: P_E_COUNT counts the input, and no later phase writes FREQ (R110 to R112). -/

namespace Sys2Proof.Machine

/-- P_E_COUNT with the whole input inside IBUF. -/
theorem execPECount_of_fits {s : State} (h : ilenFits s = true) :
    execPECount s = .next (goto (if s.ilen = 0#32 then codeEEmit else codeETbInit)
      { s.work with freq := countBytes s.work.freq (input s) } s) := by
  rw [execPECount, if_pos h]

/-- Settles O16, cell by cell. -/
theorem countPhaseCountsInput : Obligations.CountPhaseCountsInput := fun s h =>
  ⟨countBytes s.work.freq (input s), execPECount_of_fits h, freqOf_countBytes s.work.freq (input s)⟩

/-- A cell that was 0 does not wrap: no byte value occurs more often than ILEN says (R13). -/
theorem toNat_freqOf_countBytes_input {f : FreqTable} (hf : ∀ b, freqOf f b = 0#32) (s : State) (b : Byte) :
    (freqOf (countBytes f (input s)) b).toNat = (input s).count b := by
  have hle : (input s).count b ≤ s.ilen.toNat := length_input s ▸ List.count_le_length
  rw [freqOf_countBytes, hf, BitVec.zero_add, BitVec.toNat_ofNat, Nat.mod_eq_of_lt (hle.trans_lt s.ilen.isLt)]

/-- "values sum to N" (R110): each byte is counted in the one cell of its value. -/
theorem sum_map_count_allSymbols (x : List Byte) : (allSymbols.map (x.count ·)).sum = x.length := by
  have hmem : ∀ b ∈ (x : Multiset Byte), b ∈ allSymbols.toFinset := fun b _ => List.mem_toFinset.2 (mem_allSymbols b)
  rw [← List.sum_toFinset _ allSymbols_nodup, ← Multiset.coe_card, ← Multiset.sum_count_eq_card hmem]
  simp only [Multiset.coe_count]

/-- Settles O17: each cell holds a count of the input, and the counts of all Symbols sum to its length. -/
theorem countsSumToLength : Obligations.CountsSumToLength := by
  intro s h hzero
  have hcount := toNat_freqOf_countBytes_input hzero s
  refine ⟨_, execPECount_of_fits h, hcount, ?_⟩
  calc totalCount (countBytes s.work.freq (input s))
      = (allSymbols.map ((input s).count ·)).sum := by simp only [totalCount, hcount]
    _ = s.ilen.toNat := by rw [sum_map_count_allSymbols, length_input]

/-! The working state's operations that the phases after P_E_COUNT call leave FREQ alone. -/

@[simp] theorem initTree_freq (w : Work) : (initTree w).freq = w.freq := by rw [initTree_eq]

theorem mergeStep_freq {w w' : Work} {last : Bool} (h : mergeStep w = .ok (w', last)) : w'.freq = w.freq := by
  obtain ⟨a, b, q1, q2, hn, -, -, rfl, -⟩ := mergeStep_ok h
  rfl

theorem packBytes_freq {x : List Byte} {w w' : Work} (h : packBytes x w = some w') : w'.freq = w.freq := by
  induction x generalizing w with
  | nil => cases h; rfl
  | cons b x ih =>
    rw [packBytes] at h
    split at h
    · rw [ih h, bpPushAll_freq]
    · cases h

/-- Settles O18, phase by phase: `raise` and the end of a command lead to P_IDLE, and a phase that goes on leaves FREQ alone. -/
theorem frequencyTableIsImmutable : Obligations.FrequencyTableIsImmutable := by
  intro i s t hcount hencode hdecode h hidle
  cases i <;> simp only [exec] at h
  case encode => exact absurd rfl hencode
  case decode => exact absurd rfl hdecode
  case pECount => exact absurd rfl hcount
  case pIdle => cases h; rfl
  case pETbInit =>
    rcases execPETbInit_next h with rfl | rfl | ⟨-, -, rfl⟩
    · exact absurd (raise_phase ..) hidle
    · exact initTree_freq s.work
    · exact initTree_freq s.work
  case pETbMerge =>
    obtain ⟨w, last, hm, rfl⟩ := execPETbMerge_next h
    exact mergeStep_freq hm
  case pEDerive =>
    rcases execPEDerive_next h with ⟨-, rfl⟩ | ⟨c, -, rfl⟩
    · exact absurd (raise_phase ..) hidle
    · rfl
  case pEPack =>
    rcases execPEPack_next h with ⟨-, ⟨-, rfl⟩ | ⟨w, hw, rfl⟩⟩
    · exact absurd (raise_phase ..) hidle
    · rw [goto_work, bpFlush_freq, packBytes_freq hw, bpReset_freq]
  case pEEmit => exact absurd (execPEEmit_next h ▸ emitOutput_phase ..) hidle
  case pDParse =>
    rcases execPDParse_next h with ⟨-, ⟨-, rfl⟩ | ⟨n, c, p, -, rfl⟩⟩
    · exact absurd (raise_phase ..) hidle
    · rfl
  case pDUnpack =>
    rcases execPDUnpack_next h with ⟨-, ⟨-, rfl⟩ | ⟨T, u, c, -, -, rfl⟩⟩
    · exact absurd (raise_phase ..) hidle
    · rfl
  case pDMatch =>
    rcases execPDMatch_next h with ⟨-, ⟨out, -, rfl⟩ | ⟨b, cand, out, -, rfl⟩⟩
    · rfl
    · exact absurd (raise_phase ..) hidle
  case pDEmit => exact absurd (execPDEmit_next h ▸ emitOutput_phase ..) hidle

end Sys2Proof.Machine
end

section
/-! Proofs of the statements of 41_tree_builder.md: ExtractMin, the leaves of P_E_TB_INIT and one merge (R122 to R125). -/

namespace Sys2Proof.Machine

/-! ## ExtractMin (R123) -/

/-- The scan ends with the least of the candidate it starts with and the elements it looks at. -/
theorem minSlot_least (nd : Arena) (m : Slot) (q : List Slot) :
    ∀ j ∈ m :: q, j ≠ minSlot nd m q → lighter nd (minSlot nd m q) j := by
  induction q generalizing m with
  | nil => simp [minSlot]
  | cons k q ih =>
    intro j hj hne
    rw [minSlot] at hne ⊢
    generalize hm' : (if before nd k m then k else m) = m' at hne ⊢
    by_cases hjq : j ∈ m' :: q
    · exact ih m' j hjq hne
    · -- j is the one of m and k that the comparison drops
      have hdrop : lighter nd m' j := by
        simp only [List.mem_cons, not_or] at hj hjq
        split at hm' <;> subst hm' <;> rename_i hb
        · obtain rfl : j = m := by tauto
          exact (before_iff nd k j).1 hb
        · obtain rfl : j = k := by tauto
          exact (lighter_total hjq.1).resolve_left fun h => hb ((before_iff nd j m).2 h)
      by_cases hmin : m' = minSlot nd m' q
      · exact hmin ▸ hdrop
      · exact lighter_trans (ih m' m' List.mem_cons_self hmin) hdrop

/-- What ExtractMin returns is less than every other element. -/
theorem extractMin_least {nd : Arena} {q q' : List Slot} {m : Slot} (h : extractMin nd q = some (m, q')) :
    ∀ j ∈ q, j ≠ m → lighter nd m j := by
  cases q with
  | nil => cases h
  | cons i q => cases h; exact minSlot_least nd i q

/-- Settles O20: the scan finds the least element, and the filter removes it and nothing else. -/
theorem extractMinTakesLeast : Obligations.ExtractMinTakesLeast := by
  intro nd q hq
  obtain ⟨m, q', h⟩ := exists_extractMin nd hq
  obtain ⟨hm, rfl⟩ := extractMin_some h
  exact ⟨m, _, h, hm, extractMin_least h, by simp, fun hs => ⟨hs.filter _, length_filter_ne hs hm⟩⟩

/-! ## The leaves of P_E_TB_INIT (R122) -/

/-- The leaf loop adds the indices of its leaves to PQ, whatever PQ holds. -/
theorem mem_placeLeaves_pq (f : FreqTable) (ss : List Byte) (k : Nat) (w : Work) (hk : k + ss.length ≤ 511) (i : Slot) :
    i ∈ (placeLeaves f ss k w).pq ↔ i ∈ w.pq ∨ k ≤ i.val ∧ i.val < k + ss.length := by
  induction ss generalizing k w with
  | nil => simp [placeLeaves]
  | cons s ss ih =>
    rw [List.length_cons] at hk ⊢
    have hnew : i = Fin.ofNat 511 k ↔ i.val = k := by
      rw [Fin.ext_iff, Fin.val_ofNat, Nat.mod_eq_of_lt (by omega)]
    rw [placeLeaves, ih (k + 1) _ (by omega), mem_pqInsert, hnew]
    constructor
    · rintro ((h | h) | h)
      · exact .inr (by omega)
      · exact .inl h
      · exact .inr (by omega)
    · rintro (h | h)
      · exact .inl (.inr h)
      · by_cases hi : i.val = k
        · exact .inl (.inl hi)
        · exact .inr (by omega)

theorem placeLeaves_pq_sorted (f : FreqTable) (ss : List Byte) (k : Nat) {w : Work} (h : w.pq.Pairwise (· < ·)) :
    (placeLeaves f ss k w).pq.Pairwise (· < ·) := by
  induction ss generalizing k w with
  | nil => exact h
  | cons s ss ih => exact ih _ (pqInsert_sorted _ _ h)

theorem mem_initTree_pq (w : Work) (i : Slot) :
    i ∈ (initTree w).pq ↔ i ∈ w.pq ∨ i.val < (presentSymbols w.freq).length := by
  have := length_presentSymbols_le w.freq
  rw [initTree_pq, mem_placeLeaves_pq _ _ _ _ (by omega)]
  simp

/-- The keys of a FrequencyTable in ascending order can only be listed in one way. -/
theorem eq_presentSymbols {f : FreqTable} {ks : List Byte} (hs : ks.Pairwise (· < ·)) (hm : ∀ b, b ∈ ks ↔ 0#32 < freqOf f b) :
    ks = presentSymbols f :=
  hs.eq_of_mem_iff (presentSymbols_sorted f) fun b => by rw [hm, mem_presentSymbols]

/-- P_E_TB_INIT with at least one key (R122, R130). -/
theorem execPETbInit_of_keys {s : State} (h : presentSymbols s.work.freq ≠ []) :
    execPETbInit s = .next (if (presentSymbols s.work.freq).length = 1 then goto codeEDerive (asTrivial (initTree s.work)) s
      else goto codeETbMerge (initTree s.work) s) := by
  have hpos := List.length_pos_iff.2 h
  split
  · exact execPETbInit_one ‹_›
  · exact execPETbInit_many (by omega)

/-- Settles O19: the keys are `presentSymbols`, and `initTree` writes their leaves. -/
theorem treeInitCreatesLeaves : Obligations.TreeInitCreatesLeaves := by
  intro s ks hs hm hne
  obtain rfl := eq_presentSymbols hs hm
  refine ⟨(initTree s.work).node, (initTree s.work).pq, ?_, fun k hk => ?_, fun k hk => ?_, mem_initTree_pq s.work,
    placeLeaves_pq_sorted _ _ _⟩
  · rw [exec, execPETbInit_of_keys hne]
    split
    · rw [initTree_eq]; rfl
    · rw [initTree_eq]; rfl
  · rw [nodeAt_initTree, dif_pos hk]; rfl
  · rw [nodeAt_initTree, dif_neg (by omega)]

/-! ## One merge (R125) -/

/-- Settles O21: the two calls of ExtractMin take the least element and the least of the others. -/
theorem mergeJoinsTwoLeast : Obligations.MergeJoinsTwoLeast := by
  intro s hs h2 hn
  obtain ⟨w, last, hm⟩ := exists_mergeStep hs h2 hn
  obtain ⟨a, b, q1, q2, -, ha, hb, rfl, rfl⟩ := mergeStep_ok hm
  obtain ⟨hma, hmb, hne⟩ := extractMin_twice ha hb
  have hq1 := (extractMin_some ha).2
  refine ⟨a, b, (mergedWork s.work a b ⟨_, hn⟩).node, mergedPq s.work.pq a b ⟨_, hn⟩, hma, hmb, hne.symm, extractMin_least ha,
    fun j hj hja hjb => ?_, ?_, ?_, fun k hk => ?_, fun j => ?_, ?_⟩
  · exact extractMin_least hb j (hq1 ▸ List.mem_filter.2 ⟨hj, by simpa using hja⟩) hjb
  · rw [exec, execPETbMerge, mergeStep_eq ha hb hn]
    simp only [decide_eq_true_eq]
    rfl
  · exact (nodeAt_mergedWork s.work a b ⟨_, hn⟩ _).trans (if_pos rfl)
  · exact (nodeAt_mergedWork s.work a b ⟨_, hn⟩ k).trans (if_neg hk)
  · exact (mem_mergedPq s.work.pq a b ⟨_, hn⟩ j).trans (by rw [Fin.ext_iff])
  · exact pqInsert_sorted _ _ ((hs.filter _).filter _)

end Sys2Proof.Machine
end

section
/-! Proofs of the statements of 41_tree_builder.md: the merges build a full tree (R126 to R130). -/

namespace Sys2Proof.Machine

/-! ## What the merges keep

The invariant speaks of arena indices as numbers, since NODE's child fields and the statement do. -/

/-- NODE[k].weight as a number. -/
def weightAt (nd : Arena) (k : Nat) : Nat := (nodeAt nd k).weight.toNat

/-- PQ as a set of numbers. -/
def pqSet (w : Work) : Finset Nat := (w.pq.map Fin.val).toFinset

theorem mem_pqSet {w : Work} {k : Nat} : k ∈ pqSet w ↔ ∃ i ∈ w.pq, i.val = k := by simp [pqSet]

/-- NODE[k] joins two different earlier nodes and weighs what they weigh together (R127, R128). -/
structure Joins (nd : Arena) (k : Nat) : Prop where
  kind : (nodeAt nd k).kind = .internal
  ne : (nodeAt nd k).left ≠ (nodeAt nd k).right
  left_lt : (nodeAt nd k).left.toNat < k
  right_lt : (nodeAt nd k).right.toNat < k
  weight : weightAt nd k = weightAt nd (nodeAt nd k).left.toNat + weightAt nd (nodeAt nd k).right.toNat

/-- The inner node k, between the L leaves and the end n of the arena in use, has the child j. -/
def IsParent (nd : Arena) (L n k j : Nat) : Prop :=
  L ≤ k ∧ k < n ∧ ((nodeAt nd k).left.toNat = j ∨ (nodeAt nd k).right.toNat = j)

/-- The tree builder's forest between P_E_TB_INIT and the last merge: the keys' leaves, then the nodes the merges have made;
PQ holds the roots, every other node has one parent, and the roots weigh as much as all counts (R126 to R129). -/
structure MergeInv (f : FreqTable) (w : Work) : Prop extends PqWf w where
  keys_le : (presentSymbols f).length ≤ w.nnodes.toNat
  /-- each merge makes a node and leaves one root fewer (R126) -/
  size : w.nnodes.toNat + w.pq.length = 2 * (presentSymbols f).length
  leaves : ∀ k (h : k < (presentSymbols f).length),
    nodeAt w.node k = leafNode (presentSymbols f)[k] (freqOf f (presentSymbols f)[k])
  inner : ∀ k, (presentSymbols f).length ≤ k → k < w.nnodes.toNat → Joins w.node k
  /-- no node of PQ has a parent -/
  root : ∀ k j, IsParent w.node (presentSymbols f).length w.nnodes.toNat k j → j ∉ pqSet w
  /-- every other node has one (R128 (3)) -/
  owned : ∀ j, j < w.nnodes.toNat → j ∉ pqSet w → ∃! k, IsParent w.node (presentSymbols f).length w.nnodes.toNat k j
  weight : ∑ k ∈ pqSet w, weightAt w.node k = totalCount f

/-! ### P_E_TB_INIT -/

/-- The counts that are 0 do not count. -/
theorem sum_freqOf_presentSymbols (f : FreqTable) : ((presentSymbols f).map fun s => (freqOf f s).toNat).sum = totalCount f := by
  unfold presentSymbols totalCount
  induction allSymbols with
  | nil => rfl
  | cons s ss ih =>
    by_cases h : 0#32 < freqOf f s
    · rw [List.filter_cons_of_pos (by simpa using h), List.map_cons, List.map_cons, List.sum_cons, List.sum_cons, ih]
    · have h0 : (freqOf f s).toNat = 0 := by simpa [BitVec.lt_def] using h
      rw [List.filter_cons_of_neg (by simpa using h), List.map_cons, List.sum_cons, ih, h0, zero_add]

theorem pqSet_initTree {w : Work} (h : w.pq = []) : pqSet (initTree w) = Finset.range (presentSymbols w.freq).length := by
  have hle := length_presentSymbols_le w.freq
  ext k
  rw [mem_pqSet, Finset.mem_range]
  simp only [mem_initTree_pq, h, List.not_mem_nil, false_or]
  exact ⟨fun ⟨i, hi, e⟩ => e ▸ hi, fun hk => ⟨⟨k, by omega⟩, hk, rfl⟩⟩

theorem mergeInv_initTree {w : Work} (h : w.pq = []) : MergeInv w.freq (initTree w) where
  toPqWf := initTree_pqWf h
  keys_le := (toNat_initTree_nnodes w).ge
  size := by rw [toNat_initTree_nnodes, (initTree_pq_of_nil h).2.1]; omega
  leaves k hk := by rw [nodeAt_initTree, dif_pos hk]
  inner k hL hk := by rw [toNat_initTree_nnodes] at hk; omega
  root k j hp := by obtain ⟨hL, hk, -⟩ := hp; rw [toNat_initTree_nnodes] at hk; omega
  owned j hj hq := by rw [toNat_initTree_nnodes] at hj; exact absurd (Finset.mem_range.2 hj) (pqSet_initTree h ▸ hq)
  weight := by
    rw [pqSet_initTree h, Finset.sum_range, ← sum_freqOf_presentSymbols,
      ← Fin.sum_univ_fun_getElem (presentSymbols w.freq) fun s => (freqOf w.freq s).toNat]
    refine Finset.sum_congr rfl fun i _ => ?_
    rw [weightAt, nodeAt_initTree, dif_pos i.isLt]
    rfl

/-! ### One merge -/

/-- A merge takes its two nodes out of PQ and puts the new one in. -/
theorem pqSet_mergedWork (w : Work) (a b n : Slot) :
    pqSet (mergedWork w a b n) = insert n.val (((pqSet w).erase a.val).erase b.val) := by
  ext k
  simp only [mem_pqSet, Finset.mem_insert, Finset.mem_erase]
  constructor
  · rintro ⟨i, hi, rfl⟩
    rcases (mem_mergedPq _ _ _ _ _).1 hi with rfl | ⟨hi, hia, hib⟩
    · exact .inl rfl
    · exact .inr ⟨fun e => hib (Fin.ext e), fun e => hia (Fin.ext e), i, hi, rfl⟩
  · rintro (rfl | ⟨hkb, hka, i, hi, rfl⟩)
    · exact ⟨n, (mem_mergedPq _ _ _ _ _).2 (.inl rfl), rfl⟩
    · exact ⟨i, (mem_mergedPq _ _ _ _ _).2 (.inr ⟨hi, fun e => hka (e ▸ rfl), fun e => hkb (e ▸ rfl)⟩), rfl⟩

/-- Nodes in use that are the same in another arena are joined there in the same way. -/
theorem Joins.congr {nd nd' : Arena} {k : Nat} (h : Joins nd k) (agree : ∀ j, j ≤ k → nodeAt nd' j = nodeAt nd j) :
    Joins nd' k := by
  obtain ⟨hk, hne, hl, hr, hw⟩ := h
  have e := agree k le_rfl
  exact ⟨by rwa [e], by rwa [e], by rwa [e], by rwa [e], by
    unfold weightAt at hw ⊢
    rwa [e, agree _ hl.le, agree _ hr.le]⟩

section
variable {f : FreqTable} {w : Work} {a b n : Slot}

/-- The nodes a merge leaves: the new one at the end, the others as they were. -/
theorem nodeAt_mergedWork_new : nodeAt (mergedWork w a b n).node n.val = mergeNode w.node a b := by
  rw [nodeAt_mergedWork, if_pos rfl]

theorem nodeAt_mergedWork_old {k : Nat} (h : k < n.val) : nodeAt (mergedWork w a b n).node k = nodeAt w.node k := by
  rw [nodeAt_mergedWork, if_neg (by omega)]

/-- The parents after a merge: those before it, and the new node of the two it joins. -/
theorem isParent_mergedWork {L k j : Nat} (hL : L ≤ n.val) :
    IsParent (mergedWork w a b n).node L (n.val + 1) k j ↔
      IsParent w.node L n.val k j ∨ k = n.val ∧ (a.val = j ∨ b.val = j) := by
  unfold IsParent
  rcases lt_trichotomy k n.val with h | rfl | h
  · rw [nodeAt_mergedWork_old h]
    simp [h, h.ne, Nat.lt_succ_of_lt h]
  · rw [nodeAt_mergedWork_new]
    simp [mergeNode, toNat_slotBits, hL]
  · simp; omega

/-- The sum of the two weights does not wrap when all of PQ weighs less than 2^32 (R127). -/
theorem weight_mergeNode (h : weightAt w.node a.val + weightAt w.node b.val < 2 ^ 32) :
    (mergeNode w.node a b).weight.toNat = weightAt w.node a.val + weightAt w.node b.val := by
  unfold weightAt at h ⊢
  rw [nodeAt_slot, nodeAt_slot] at h ⊢
  exact Nat.mod_eq_of_lt h

/-- PQ's weight is that of the two nodes a merge takes and that of the rest. -/
theorem sum_pqSet (ha : a ∈ w.pq) (hb : b ∈ w.pq) (hne : b ≠ a) :
    ∑ k ∈ pqSet w, weightAt w.node k =
      weightAt w.node a.val + weightAt w.node b.val + ∑ k ∈ ((pqSet w).erase a.val).erase b.val, weightAt w.node k := by
  have hb' : b.val ∈ (pqSet w).erase a.val :=
    Finset.mem_erase.2 ⟨fun e => hne (Fin.ext e), mem_pqSet.2 ⟨b, hb, rfl⟩⟩
  rw [add_assoc, Finset.add_sum_erase _ _ hb', Finset.add_sum_erase _ _ (mem_pqSet.2 ⟨a, ha, rfl⟩)]

/-- The new node joins the two nodes it is made of. -/
theorem joins_mergedWork_new (ha : a.val < n.val) (hb : b.val < n.val) (hne : b ≠ a)
    (h : weightAt w.node a.val + weightAt w.node b.val < 2 ^ 32) : Joins (mergedWork w a b n).node n.val := by
  have hl : (mergeNode w.node a b).left.toNat = a.val := toNat_slotBits a
  have hr : (mergeNode w.node a b).right.toNat = b.val := toNat_slotBits b
  refine ⟨?_, ?_, ?_, ?_, ?_⟩
  · rw [nodeAt_mergedWork_new]; rfl
  · rw [nodeAt_mergedWork_new]
    exact fun e => hne (Fin.ext (hr ▸ hl ▸ congrArg BitVec.toNat e.symm))
  · rwa [nodeAt_mergedWork_new, hl]
  · rwa [nodeAt_mergedWork_new, hr]
  · unfold weightAt
    rw [nodeAt_mergedWork_new, hl, hr, nodeAt_mergedWork_old ha, nodeAt_mergedWork_old hb]
    exact weight_mergeNode h

/-- PQ weighs after a merge what it weighed before. -/
theorem sum_pqSet_mergedWork (hused : ∀ i ∈ w.pq, i.val < n.val) (ha : a ∈ w.pq) (hb : b ∈ w.pq) (hne : b ≠ a)
    (h : weightAt w.node a.val + weightAt w.node b.val < 2 ^ 32) :
    ∑ k ∈ pqSet (mergedWork w a b n), weightAt (mergedWork w a b n).node k = ∑ k ∈ pqSet w, weightAt w.node k := by
  have hlt {k : Nat} (hk : k ∈ ((pqSet w).erase a.val).erase b.val) : k < n.val := by
    obtain ⟨i, hi, rfl⟩ := mem_pqSet.1 (Finset.mem_of_mem_erase (Finset.mem_of_mem_erase hk))
    exact hused i hi
  have hrest : ∑ k ∈ ((pqSet w).erase a.val).erase b.val, weightAt (mergedWork w a b n).node k =
      ∑ k ∈ ((pqSet w).erase a.val).erase b.val, weightAt w.node k :=
    Finset.sum_congr rfl fun k hk => by rw [weightAt, nodeAt_mergedWork_old (hlt hk), weightAt]
  have hnew : weightAt (mergedWork w a b n).node n.val = weightAt w.node a.val + weightAt w.node b.val := by
    rw [weightAt, nodeAt_mergedWork_new, weight_mergeNode h]
  rw [pqSet_mergedWork, Finset.sum_insert fun hk => (hlt hk).false, hnew, hrest, sum_pqSet ha hb hne]

end

/-- A merge keeps all of it: the two roots it joins get their one parent, which takes their place and weighs what they did. -/
theorem MergeInv.mergeStep {f : FreqTable} {w w' : Work} {last : Bool} (hf : totalCount f < 2 ^ 32) (hw : MergeInv f w)
    (h : mergeStep w = .ok (w', last)) : MergeInv f w' := by
  obtain ⟨hpq', hlen, hnn⟩ := mergeStep_pqWf hw.toPqWf h
  obtain ⟨a, b, q1, q2, hn, ea, eb, rfl, -⟩ := mergeStep_ok h
  obtain ⟨ha, hb, hne⟩ := extractMin_twice ea eb
  obtain ⟨⟨-, hused⟩, hL, hsize, hleaves, hinner, hroot, howned, hweight⟩ := hw
  generalize hv : (⟨w.nnodes.toNat, hn⟩ : Slot) = n at *
  have hnv : w.nnodes.toNat = n.val := hv ▸ rfl
  rw [hnv] at hnn hused hL hsize hinner hroot howned
  have hab : weightAt w.node a.val + weightAt w.node b.val < 2 ^ 32 := by have := sum_pqSet ha hb hne; omega
  have mem_pqSet' (j : Nat) : j ∈ pqSet (mergedWork w a b n) ↔ j = n.val ∨ j ≠ b.val ∧ j ≠ a.val ∧ j ∈ pqSet w := by
    rw [pqSet_mergedWork, Finset.mem_insert, Finset.mem_erase, Finset.mem_erase]
  refine ⟨hpq', by omega, by omega, fun k hk => ?_, fun k hk hkn => ?_, fun k j hp => ?_, fun j hj hq => ?_, ?_⟩
  · rw [nodeAt_mergedWork_old (by omega), hleaves k hk]
  · by_cases e : k = n.val
    · exact e ▸ joins_mergedWork_new (hused a ha) (hused b hb) hne hab
    · exact (hinner k hk (by omega)).congr fun j hj => nodeAt_mergedWork_old (by omega)
  · rw [hnn, isParent_mergedWork hL] at hp
    rw [mem_pqSet']
    rcases hp with hp | ⟨-, hj⟩
    · have hjk : j < k := by
        obtain ⟨hLk, hkn, hj⟩ := hp
        obtain ⟨-, -, hl, hr, -⟩ := hinner k hLk hkn
        omega
      have hkn : k < n.val := hp.2.1
      have hjq := hroot k j hp
      rintro (rfl | ⟨-, -, h⟩)
      · omega
      · exact hjq h
    · have := hused a ha
      have := hused b hb
      omega
  · rw [mem_pqSet'] at hq
    simp only [hnn, isParent_mergedWork hL]
    by_cases hjab : a.val = j ∨ b.val = j
    · have hjq : j ∈ pqSet w := mem_pqSet.2 (hjab.elim (fun e => ⟨a, ha, e⟩) fun e => ⟨b, hb, e⟩)
      refine ⟨n.val, .inr ⟨rfl, hjab⟩, fun k hk => ?_⟩
      exact (hk.resolve_left fun hp => hroot k j hp hjq).1
    · simp only [hjab, and_false, or_false]
      exact howned j (by omega) fun h =>
        hq (.inr ⟨fun e => hjab (.inr e.symm), fun e => hjab (.inl e.symm), h⟩)
  · rw [sum_pqSet_mergedWork hused ha hb hne hab, hweight]

/-! ## The whole tree builder -/

/-- The tree builder has ended: one node is left in PQ, the last one made, and it is ROOT (R126). -/
structure Built (f : FreqTable) (w : Work) : Prop extends MergeInv f w where
  pq_eq : pqSet w = {w.root.toNat}
  root_eq : w.root.toNat + 1 = w.nnodes.toNat

/-- The last merge's node is all that is left in PQ. -/
theorem built_of_lastMerge {f : FreqTable} {w w' : Work} (hw : MergeInv f w') (h : mergeStep w = .ok (w', true)) : Built f w' := by
  obtain ⟨a, b, q1, q2, hn, -, -, rfl, hlast⟩ := mergeStep_ok h
  have h1 : (mergedPq w.pq a b ⟨_, hn⟩).length = 1 := of_decide_eq_true hlast.symm
  obtain ⟨r, hr⟩ := List.length_eq_one_iff.1 h1
  have hnew : (⟨w.nnodes.toNat, hn⟩ : Slot) ∈ mergedPq w.pq a b ⟨_, hn⟩ := (mem_mergedPq _ _ _ _ _).2 (.inl rfl)
  rw [hr, List.mem_singleton] at hnew
  have hroot : (mergedWork w a b ⟨_, hn⟩).root.toNat = w.nnodes.toNat := by
    rw [mergedWork, if_pos h1]
    exact toNat_slotBits _
  refine ⟨hw, ?_, ?_⟩
  · rw [pqSet, hroot]
    change ((mergedPq w.pq a b ⟨_, hn⟩).map Fin.val).toFinset = _
    rw [hr, ← hnew]
    rfl
  · rw [hroot, mergedWork, BitVec.toNat_add, BitVec.toNat_ofNat]
    omega

/-- Enough fuel for one merge for each element of PQ but one: the merges end (R126). -/
theorem exists_mergeLoop {f : FreqTable} (hf : totalCount f < 2 ^ 32) {k : Nat} {w : Work} (hw : MergeInv f w)
    (h2 : 2 ≤ w.pq.length) (hk : w.pq.length ≤ k + 1) :
    ∃ w', mergeLoop k w = .ok w' ∧ Built f w' ∧ w'.trivial = w.trivial := by
  induction k generalizing w with
  | zero => omega
  | succ k ih =>
    have hle := length_presentSymbols_le f
    have hsize := hw.size
    obtain ⟨w1, last, hm⟩ := exists_mergeStep hw.sorted h2 (by omega)
    have hw1 := hw.mergeStep hf hm
    obtain ⟨hlen, hpos, hlast⟩ := mergeStep_length hw.toPqWf hm
    have htriv : w1.trivial = w.trivial := by
      obtain ⟨a, b, q1, q2, hn, -, -, rfl, -⟩ := mergeStep_ok hm
      rfl
    cases last with
    | true => exact ⟨w1, by rw [mergeLoop, hm], built_of_lastMerge hw1 hm, htriv⟩
    | false =>
      have h1 : w1.pq.length ≠ 1 := by simpa using hlast
      obtain ⟨w', hloop, hb, ht⟩ := ih hw1 (by omega) (by omega)
      exact ⟨w', by rw [mergeLoop, hm]; exact hloop, hb, ht.trans htriv⟩

/-- The tree of one leaf is built without a merge (R130). -/
theorem built_asTrivial {w : Work} (hq : w.pq = []) (h : (presentSymbols w.freq).length = 1) :
    Built w.freq (asTrivial (initTree w)) := by
  obtain ⟨hpq, hkeys, hsize, hleaves, hinner, hroot, howned, hweight⟩ := mergeInv_initTree hq
  refine ⟨⟨⟨hpq.sorted, hpq.used⟩, hkeys, hsize, hleaves, hinner, hroot, howned, hweight⟩, ?_, ?_⟩
  · exact (pqSet_initTree hq).trans (by rw [h]; rfl)
  · exact ((toNat_initTree_nnodes w).trans h).symm

/-- With one key the tree is its leaf (R130). -/
theorem buildTree_one {f : FreqTable} (h : (presentSymbols f).length = 1) :
    buildTree f = .ok (asTrivial (initTree (buildStart f))) := by
  have h1 : (initTree (buildStart f)).nsym = 1#9 := BitVec.eq_of_toNat_eq ((toNat_initTree_nsym _).trans h)
  have h0 : (initTree (buildStart f)).nsym ≠ 0#9 := by rw [h1]; decide
  exact (if_neg h0).trans (if_pos h1)

/-- With more keys the merges follow. -/
theorem buildTree_many {f : FreqTable} (h : 2 ≤ (presentSymbols f).length) :
    buildTree f = mergeLoop 255 (initTree (buildStart f)) := by
  have hn : (initTree (buildStart f)).nsym.toNat = (presentSymbols f).length := toNat_initTree_nsym _
  have h0 : (initTree (buildStart f)).nsym ≠ 0#9 := fun e => by rw [e] at hn; simp at hn; omega
  have h1 : (initTree (buildStart f)).nsym ≠ 1#9 := fun e => by rw [e] at hn; simp at hn; omega
  exact (if_neg h0).trans (if_neg h1)

/-- The tree builder ends, for every table with a key whose counts do not wrap. -/
theorem exists_buildTree {f : FreqTable} (hL : 1 ≤ (presentSymbols f).length) (hf : totalCount f < 2 ^ 32) :
    ∃ w, buildTree f = .ok w ∧ Built f w ∧ w.trivial = decide ((presentSymbols f).length = 1) := by
  have hq : (buildStart f).pq = [] := rfl
  by_cases h1 : (presentSymbols f).length = 1
  · exact ⟨_, buildTree_one h1, built_asTrivial hq h1, by rw [h1]; rfl⟩
  · have hle := length_presentSymbols_le f
    have hlen : (initTree (buildStart f)).pq.length = (presentSymbols f).length := (initTree_pq_of_nil hq).2.1
    obtain ⟨w, hloop, hb, ht⟩ := exists_mergeLoop (k := 255) hf (mergeInv_initTree hq) (by omega) (by omega)
    refine ⟨w, (buildTree_many (by omega)).trans hloop, hb, ht.trans ?_⟩
    rw [initTree_eq, decide_eq_false h1]
    rfl

/-! ## The tree that is built -/

theorem slotWellFormed_of_joins {nd : Arena} {k : Nat} (h : Joins nd k) (hk : k < 511) : slotWellFormed nd k = true := by
  have hnil {c : BitVec 9} (hc : c.toNat < k) : c ≠ nil9 := by
    rintro rfl
    exact absurd (hc.trans hk) (by decide)
  simp [slotWellFormed, h.kind, h.left_lt, h.right_lt, hnil h.left_lt, hnil h.right_lt]

theorem slotWellFormed_of_leaf {nd : Arena} {k : Nat} {s : Byte} {v : BitVec 32} (h : nodeAt nd k = leafNode s v) :
    slotWellFormed nd k = true := by
  simp [slotWellFormed, h, leafNode]

section
variable {f : FreqTable} {w : Work}

/-- R126: 2L − 1 nodes, the root last. -/
theorem Built.counts (h : Built f w) :
    w.nnodes.toNat = 2 * (presentSymbols f).length - 1 ∧ w.root.toNat = 2 * (presentSymbols f).length - 2 := by
  have hcard : (pqSet w).card = w.pq.length := by
    rw [pqSet, List.toFinset_card_of_nodup, List.length_map]
    exact List.Nodup.map Fin.val_injective (h.sorted.imp fun hlt => ne_of_lt hlt)
  rw [h.pq_eq, Finset.card_singleton] at hcard
  have := h.size
  have := h.root_eq
  omega

/-- The tree passes the test of R141. -/
theorem Built.treeWellFormed (h : Built f w) (ht : w.trivial = decide ((presentSymbols f).length = 1)) :
    treeWellFormed w = true := by
  obtain ⟨hn, hr⟩ := h.counts
  have hle := length_presentSymbols_le f
  have hroot := h.root_eq
  have hnil : w.root ≠ nil9 := fun e => by rw [e] at hr; simp [nil9] at hr; omega
  simp only [Machine.treeWellFormed, Bool.and_eq_true, bne_iff_ne, decide_eq_true_eq, List.all_eq_true, List.mem_range]
  refine ⟨⟨⟨hnil, by omega⟩, fun k hk => ?_⟩, ?_⟩
  · by_cases hL : k < (presentSymbols f).length
    · exact slotWellFormed_of_leaf (h.leaves k hL)
    · exact slotWellFormed_of_joins (h.inner k (by omega) (by omega)) (by omega)
  · rw [rootKindOk, ht]
    by_cases h1 : (presentSymbols f).length = 1
    · have hone : w.nnodes = 1#10 := BitVec.eq_of_toNat_eq (by rw [hn, h1]; rfl)
      simp [h1, hone, h.leaves 0 (by omega), leafNode]
    · simp [h1, (h.inner w.root.toNat (by omega) (by omega)).kind]

end

/-- Settles O22: the merges keep `MergeInv`, which says all of it once PQ holds the root alone. -/
theorem treeBuilderBuildsFullTree : Obligations.TreeBuilderBuildsFullTree := by
  rintro f L rfl hL hf
  obtain ⟨w, hbuild, hb, ht⟩ := exists_buildTree hL hf
  obtain ⟨hn, hr⟩ := hb.counts
  refine ⟨w, hbuild, (buildTree_frame hbuild).1, hn, hr, ht, hb.treeWellFormed ht, hb.leaves, fun k hk hkn => ?_,
    fun j hj => ?_, ?_⟩
  · obtain ⟨hkind, hne, hl, hr, hw⟩ := hb.inner k hk (by omega)
    exact ⟨hkind, hne, hl, hr, hw⟩
  · have := hb.owned j (by omega) (by rw [hb.pq_eq, Finset.mem_singleton]; omega)
    rwa [hn] at this
  · have := hb.weight
    rwa [hb.pq_eq, Finset.sum_singleton] at this

end Sys2Proof.Machine
end

section
/-! Proofs of the statements of 41_tree_builder.md: where a unit of the encoder raises InternalTreeFault (R122, R142, R143, R183, R229). -/

namespace Sys2Proof.Machine

/-! ## The walk of R143, node by node -/

/-- The walk accepts a leaf only with a path of 1 to 255 bits and a Symbol without a code. -/
theorem derive_leaf {nd : Arena} {fuel i : Nat} {β : Bits} {c c' : CodeTable} (hk : (nodeAt nd i).kind = .leaf)
    (h : derive nd fuel i β c = some c') :
    1 ≤ β.length ∧ β.length ≤ 255 ∧ (codeOf c (nodeAt nd i).sym).present = false ∧ c' = setCode c (nodeAt nd i).sym β := by
  cases fuel with
  | zero => cases h
  | succ fuel =>
    simp only [derive, hk] at h
    split at h
    · cases h
    · rename_i hn
      simp only [not_or, Bool.not_eq_true] at hn
      obtain ⟨h0, h255, hp⟩ := hn
      cases h
      exact ⟨by omega, by omega, hp, rfl⟩

/-- An inner node's walk is that of its left child, then that of its right one. -/
theorem derive_internal {nd : Arena} {fuel i : Nat} {β : Bits} {c c' : CodeTable} (hk : (nodeAt nd i).kind = .internal)
    (h : derive nd fuel i β c = some c') :
    ∃ fuel' c1, derive nd fuel' (nodeAt nd i).left.toNat (β ++ [false]) c = some c1 ∧
      derive nd fuel' (nodeAt nd i).right.toNat (β ++ [true]) c1 = some c' := by
  cases fuel with
  | zero => cases h
  | succ fuel =>
    simp only [derive, hk] at h
    split at h
    · cases h
    · rename_i c1 hl
      exact ⟨fuel, c1, hl, h⟩

/-- A Symbol without a code after the walk had none before it. -/
theorem derive_absent {nd : Arena} {fuel i : Nat} {β : Bits} {c c' : CodeTable} (h : derive nd fuel i β c = some c') {s : Byte}
    (hs : (codeOf c' s).present = false) : (codeOf c s).present = false := by
  by_contra hc
  exact absurd (derive_present h (by simpa using hc)) (by simp [hs])

/-- A walk that succeeds has met no leaf deeper than 255 and none whose Symbol had a code before. -/
theorem derive_leafPath {nd : Arena} {i j : Nat} {γ : Bits} (hp : LeafPath nd i γ j) {fuel : Nat} {β : Bits}
    {c c' : CodeTable} (h : derive nd fuel i β c = some c') :
    (β ++ γ).length ≤ 255 ∧ (codeOf c (nodeAt nd j).sym).present = false := by
  induction hp generalizing fuel β c c' with
  | leaf i hk =>
    obtain ⟨-, h255, hfree, -⟩ := derive_leaf hk h
    exact ⟨by rwa [List.append_nil], hfree⟩
  | left i γ j hk p ih =>
    obtain ⟨fuel', c1, hl, -⟩ := derive_internal hk h
    obtain ⟨hlen, hfree⟩ := ih hl
    exact ⟨by rwa [List.append_assoc] at hlen, hfree⟩
  | right i γ j hk p ih =>
    obtain ⟨fuel', c1, hl, hr⟩ := derive_internal hk h
    obtain ⟨hlen, hfree⟩ := ih hr
    exact ⟨by rwa [List.append_assoc] at hlen, derive_absent hl hfree⟩

/-- The walk gives the left subtree's Symbols codes, so that it meets none of them in the right one. -/
theorem derive_siblings_sym_ne {nd : Arena} {l r j j' fuel : Nat} {γ γ' βl βr : Bits} {c c1 c' : CodeTable}
    (hl : derive nd fuel l βl c = some c1) (hr : derive nd fuel r βr c1 = some c') (pl : LeafPath nd l γ j)
    (pr : LeafPath nd r γ' j') : (nodeAt nd j).sym ≠ (nodeAt nd j').sym := by
  intro hsym
  have hused := derive_leaf_present pl hl
  rw [hsym, (derive_leafPath pr hr).2] at hused
  cases hused

/-- A walk that succeeds has not met one Symbol in two leaves. -/
theorem derive_leafPath_unique {nd : Arena} {i j : Nat} {γ : Bits} (hp : LeafPath nd i γ j) {γ' : Bits} {j' : Nat}
    (hp' : LeafPath nd i γ' j') (hsym : (nodeAt nd j).sym = (nodeAt nd j').sym) {fuel : Nat} {β : Bits} {c c' : CodeTable}
    (h : derive nd fuel i β c = some c') : γ = γ' := by
  induction hp generalizing γ' fuel β c c' with
  | leaf i hk =>
    cases hp' with
    | leaf => rfl
    | left _ _ _ hk' => rw [hk] at hk'; cases hk'
    | right _ _ _ hk' => rw [hk] at hk'; cases hk'
  | left i γ j hk p ih =>
    obtain ⟨fuel', c1, hl, hr⟩ := derive_internal hk h
    cases hp' with
    | leaf _ hk' => rw [hk] at hk'; cases hk'
    | left _ γ' _ _ p' => rw [ih p' hsym hl]
    | right _ _ _ _ p' => exact absurd hsym (derive_siblings_sym_ne hl hr p p')
  | right i γ j hk p ih =>
    obtain ⟨fuel', c1, hl, hr⟩ := derive_internal hk h
    cases hp' with
    | leaf _ hk' => rw [hk] at hk'; cases hk'
    | left _ _ _ _ p' => exact absurd hsym.symm (derive_siblings_sym_ne hl hr p' p)
    | right _ γ' _ _ p' => rw [ih p' hsym hr]

/-! ## The sites -/

/-- P_E_TB_INIT finds no key (R122). -/
theorem execPETbInit_of_no_key {s : State} (h : ∀ b, freqOf s.work.freq b = 0#32) :
    execPETbInit s = .next (raise .internalTreeFault .noStage s) := by
  have hnil : presentSymbols s.work.freq = [] := List.eq_nil_iff_forall_not_mem.2 fun b hb => by
    rw [mem_presentSymbols, h] at hb
    exact absurd hb (by decide)
  have h0 : (initTree s.work).nsym = 0#9 := by rw [initTree_nsym, hnil]; rfl
  exact if_pos h0

/-- P_E_DERIVE finds no codes (R142, R143). -/
theorem execPEDerive_of_none {s : State} (h : deriveCodes s.work = none) :
    execPEDerive s = .next (raise .internalTreeFault .noStage s) := by
  rw [execPEDerive, h]

/-- Where the walk of the tree cannot succeed there are no codes, whether the tree passes the test of R141 or not. -/
theorem deriveCodes_eq_none {w : Work} (ht : w.trivial = false) (h : ∀ c, derive w.node 511 w.root.toNat [] w.code ≠ some c) :
    deriveCodes w = none := by
  unfold deriveCodes
  split
  · rw [ht]
    exact Option.eq_none_iff_forall_ne_some.2 h
  · rfl

/-- The substitution loop stops at a byte without a code (R183). -/
theorem packBytes_eq_none {x : List Byte} {w : Work} (h : ∃ b ∈ x, (codeOf w.code b).present = false) : packBytes x w = none := by
  induction x generalizing w with
  | nil => simp at h
  | cons s x ih =>
    rw [packBytes]
    split
    · rename_i hs
      obtain ⟨b, hb, hfree⟩ := h
      refine ih ⟨b, (List.mem_cons.1 hb).resolve_left fun e => ?_, by rwa [bpPushAll_code]⟩
      rw [← e, hfree] at hs
      cases hs
    · rfl

/-- Settles O48, site by site: a phase whose walk or loop succeeds would contradict what the site says. -/
theorem internalTreeFaultSites : Obligations.InternalTreeFaultSites := by
  refine fun s => ⟨execPETbInit_of_no_key, fun h => ?_, fun ht ⟨β, j, hp, h⟩ => ?_, fun ht ⟨β, β', j, j', hp, hp', hne, hsym⟩ => ?_,
    fun hf h => ?_⟩
  · exact execPEDerive_of_none (by rw [deriveCodes, h]; rfl)
  · refine execPEDerive_of_none (deriveCodes_eq_none ht fun c hc => ?_)
    obtain ⟨hlen, hfree⟩ := derive_leafPath hp hc
    rcases h with h | h
    · exact absurd hlen (by simpa using h)
    · exact absurd h (by rw [hfree]; exact Bool.false_ne_true)
  · exact execPEDerive_of_none (deriveCodes_eq_none ht fun c hc => hne (derive_leafPath_unique hp hp' hsym hc))
  · rw [exec, execPEPack, if_pos hf, packBytes_eq_none (w := bpReset s.work) h]

end Sys2Proof.Machine
end

section
/-! Proofs of the statements of 42_code_derivation.md: the test of the tree and the walk that derives its codes (R141 to R146). -/

namespace Sys2Proof.Machine

/-! ## The test of the tree (R141) -/

/-- Clauses (b) and (c) of R141. -/
theorem slotWellFormed_iff (nd : Arena) (i : Nat) :
    slotWellFormed nd i = true ↔
      ((nodeAt nd i).kind = .leaf → (nodeAt nd i).left = nil9 ∧ (nodeAt nd i).right = nil9) ∧
      ((nodeAt nd i).kind = .internal → (nodeAt nd i).left ≠ nil9 ∧ (nodeAt nd i).right ≠ nil9 ∧
        (nodeAt nd i).left.toNat < i ∧ (nodeAt nd i).right.toNat < i) := by
  unfold slotWellFormed
  cases hk : (nodeAt nd i).kind with
  | leaf => simp [hk]
  | internal => simp [hk, and_assoc]

/-- Clause (d) of R141. -/
theorem rootKindOk_iff (w : Work) :
    rootKindOk w = true ↔
      (w.trivial = true → w.nnodes = 1#10 ∧ (nodeAt w.node 0).kind = .leaf) ∧
      (w.trivial = false → (nodeAt w.node w.root.toNat).kind = .internal) := by
  unfold rootKindOk
  cases w.trivial with
  | true => simp
  | false => simp

/-- The clauses of R141 together. -/
theorem treeWellFormed_iff (w : Work) :
    treeWellFormed w = true ↔
      (w.root ≠ nil9 ∧ w.root.toNat < w.nnodes.toNat) ∧
      (∀ i, i < min w.nnodes.toNat 511 → slotWellFormed w.node i = true) ∧ rootKindOk w = true := by
  simp only [treeWellFormed, Bool.and_eq_true, bne_iff_ne, decide_eq_true_eq, List.all_eq_true, List.mem_range, and_assoc]

/-- Settles O23: the test's clauses, with every slot in use below 511. -/
theorem treeWellFormedTest : Obligations.TreeWellFormedTest := by
  intro w hn
  rw [treeWellFormed_iff, rootKindOk_iff, min_eq_left hn]
  constructor
  · rintro ⟨hroot, hslots, hkind⟩
    exact ⟨hroot, fun i hi => ((slotWellFormed_iff _ _).1 (hslots i hi)).1,
      fun i hi => ((slotWellFormed_iff _ _).1 (hslots i hi)).2, hkind⟩
  · rintro ⟨hroot, hleaf, hinner, hkind⟩
    exact ⟨hroot, fun i hi => (slotWellFormed_iff _ _).2 ⟨hleaf i hi, hinner i hi⟩, hkind⟩

/-- The root of a well-formed tree that is not trivial is an inner node (R141 (d)). -/
theorem root_internal {w : Work} (h : treeWellFormed w = true) (ht : w.trivial = false) :
    (nodeAt w.node w.root.toNat).kind = .internal := by
  obtain ⟨-, -, hkind⟩ := treeWellFormed_slots h
  exact ((rootKindOk_iff w).1 hkind).2 ht

/-- The root of a well-formed trivial tree is its one leaf (R141 (d)). -/
theorem root_leaf {w : Work} (h : treeWellFormed w = true) (ht : w.trivial = true) :
    (nodeAt w.node w.root.toNat).kind = .leaf := by
  obtain ⟨hroot, -, hkind⟩ := treeWellFormed_slots h
  obtain ⟨hone, hleaf⟩ := ((rootKindOk_iff w).1 hkind).1 ht
  have h0 : w.root.toNat = 0 := by simpa [hone] using hroot
  rwa [h0]

/-! ## The phase, by what the unit derives (R142) -/

theorem exec_pEDerive_of_codes {s : State} {c : CodeTable} (h : deriveCodes s.work = some c) :
    exec .pEDerive s = .next { s with phase := codeEPack, work := { s.work with code := c } } := by
  rw [exec, execPEDerive, h]
  rfl

/-- The code of a trivial tree (R144). -/
theorem deriveCodes_trivial {w : Work} (h : treeWellFormed w = true) (ht : w.trivial = true) :
    deriveCodes w = some (setCode w.code (nodeAt w.node w.root.toNat).sym [false]) := by
  rw [deriveCodes, if_pos h, if_pos ht]

/-- Every other well-formed tree is walked (R143). -/
theorem deriveCodes_walk {w : Work} (h : treeWellFormed w = true) (ht : w.trivial = false) :
    deriveCodes w = derive w.node 511 w.root.toNat [] w.code := by
  rw [deriveCodes, if_pos h, ht]
  rfl

/-- Settles O24: CODE is written at the root's Symbol only. -/
theorem deriveTrivialCode : Obligations.DeriveTrivialCode := by
  intro s h ht
  refine ⟨_, exec_pEDerive_of_codes (deriveCodes_trivial h ht), ?_, fun b hb => ?_⟩
  · rw [codeOf_setCode, if_pos rfl]
  · rw [codeOf_setCode, if_neg hb]

/-! ## The paths of a tree, by the Symbols they end at -/

/-- The path β leads from node i to a leaf of the Symbol s. -/
def SymPath (nd : Arena) (i : Nat) (β : Bits) (s : Byte) : Prop := ∃ j, LeafPath nd i β j ∧ (nodeAt nd j).sym = s

theorem symPath_leaf {nd : Arena} {i : Nat} (hk : (nodeAt nd i).kind = .leaf) (β : Bits) (s : Byte) :
    SymPath nd i β s ↔ β = [] ∧ (nodeAt nd i).sym = s := by
  constructor
  · rintro ⟨j, hp, rfl⟩
    cases hp with
    | leaf => exact ⟨rfl, rfl⟩
    | left _ _ _ hi => rw [hk] at hi; cases hi
    | right _ _ _ hi => rw [hk] at hi; cases hi
  · rintro ⟨rfl, hs⟩
    exact ⟨i, .leaf i hk, hs⟩

theorem symPath_internal {nd : Arena} {i : Nat} (hk : (nodeAt nd i).kind = .internal) (β : Bits) (s : Byte) :
    SymPath nd i β s ↔ (∃ γ, β = false :: γ ∧ SymPath nd (nodeAt nd i).left.toNat γ s) ∨
      ∃ γ, β = true :: γ ∧ SymPath nd (nodeAt nd i).right.toNat γ s := by
  constructor
  · rintro ⟨j, hp, hs⟩
    cases hp with
    | leaf _ hi => rw [hk] at hi; cases hi
    | left _ γ _ _ p => exact .inl ⟨γ, rfl, j, p, hs⟩
    | right _ γ _ _ p => exact .inr ⟨γ, rfl, j, p, hs⟩
  · rintro (⟨γ, rfl, j, p, hs⟩ | ⟨γ, rfl, j, p, hs⟩)
    · exact ⟨j, .left i γ j hk p, hs⟩
    · exact ⟨j, .right i γ j hk p, hs⟩

/-- A leaf is not above another leaf: a path that goes on where one ends is the same path (R148). -/
theorem leafPath_eq_of_prefix {nd : Arena} {i j j' : Nat} {β β' : Bits} (hp : LeafPath nd i β j) (hp' : LeafPath nd i β' j')
    (h : β <+: β') : j = j' := by
  induction hp generalizing β' with
  | leaf i hk => exact (leafPath_of_leaf hp' hk).symm
  | left i β j hk p ih =>
    cases hp' with
    | leaf => cases List.prefix_nil.1 h
    | left _ _ _ _ p' => exact ih p' (List.cons_prefix_cons.1 h).2
    | right => cases (List.cons_prefix_cons.1 h).1
  | right i β j hk p ih =>
    cases hp' with
    | leaf => cases List.prefix_nil.1 h
    | left => cases (List.cons_prefix_cons.1 h).1
    | right _ _ _ _ p' => exact ih p' (List.cons_prefix_cons.1 h).2

theorem SymPath.eq_of_prefix {nd : Arena} {i : Nat} {β β' : Bits} {s s' : Byte} (hs : SymPath nd i β s)
    (hs' : SymPath nd i β' s') (h : β <+: β') : s = s' := by
  obtain ⟨j, hp, rfl⟩ := hs
  obtain ⟨j', hp', rfl⟩ := hs'
  rw [leafPath_eq_of_prefix hp hp' h]

/-- Walking down a well-formed tree by any bits ends at a leaf, or the bits end before one (R149). -/
theorem exists_symPath {nd : Arena} {n : Nat} (hslots : ∀ k, k < n → slotWellFormed nd k = true) {i : Nat} (hi : i < n)
    (β : Bits) : ∃ γ s, SymPath nd i γ s ∧ (γ <+: β ∨ β <+: γ) := by
  induction i using Nat.strong_induction_on generalizing β with
  | _ i ih =>
    cases hk : (nodeAt nd i).kind with
    | leaf => exact ⟨[], _, (symPath_leaf hk _ _).2 ⟨rfl, rfl⟩, .inl List.nil_prefix⟩
    | internal =>
      obtain ⟨hl, hr⟩ := slotWellFormed_internal (hslots i hi) hk
      match β with
      | [] =>
        obtain ⟨γ, s, hp, -⟩ := ih _ hl (by omega) []
        exact ⟨false :: γ, s, (symPath_internal hk _ _).2 (.inl ⟨γ, rfl, hp⟩), .inr List.nil_prefix⟩
      | false :: β =>
        obtain ⟨γ, s, hp, h⟩ := ih _ hl (by omega) β
        exact ⟨false :: γ, s, (symPath_internal hk _ _).2 (.inl ⟨γ, rfl, hp⟩), by simpa [List.cons_prefix_cons] using h⟩
      | true :: β =>
        obtain ⟨γ, s, hp, h⟩ := ih _ hr (by omega) β
        exact ⟨true :: γ, s, (symPath_internal hk _ _).2 (.inr ⟨γ, rfl, hp⟩), by simpa [List.cons_prefix_cons] using h⟩

/-! ## What the walk writes (R143, R146) -/

/-- A walk leaves the entries of the Symbols it does not meet as they were. -/
theorem derive_frame {nd : Arena} {fuel i : Nat} {β : Bits} {c c' : CodeTable} (h : derive nd fuel i β c = some c') {s : Byte}
    (hs : ∀ γ, ¬ SymPath nd i γ s) : codeOf c' s = codeOf c s := by
  induction fuel generalizing i β c c' with
  | zero => cases h
  | succ fuel ih =>
    cases hk : (nodeAt nd i).kind with
    | leaf =>
      obtain ⟨-, -, -, rfl⟩ := derive_leaf hk h
      rw [codeOf_setCode, if_neg fun e => hs [] ((symPath_leaf hk _ _).2 ⟨rfl, e.symm⟩)]
    | internal =>
      simp only [derive, hk] at h
      split at h
      · cases h
      · rename_i c1 hl
        rw [ih h fun γ p => hs (true :: γ) ((symPath_internal hk _ _).2 (.inr ⟨γ, rfl, p⟩)),
          ih hl fun γ p => hs (false :: γ) ((symPath_internal hk _ _).2 (.inl ⟨γ, rfl, p⟩))]

/-- A walk gives each Symbol it meets the path to its leaf. -/
theorem derive_code {nd : Arena} {i j : Nat} {γ : Bits} (hp : LeafPath nd i γ j) {fuel : Nat} {β : Bits} {c c' : CodeTable}
    (h : derive nd fuel i β c = some c') : codeOf c' (nodeAt nd j).sym = { present := true, bits := β ++ γ } := by
  induction hp generalizing fuel β c c' with
  | leaf i hk =>
    obtain ⟨-, -, -, rfl⟩ := derive_leaf hk h
    rw [codeOf_setCode, if_pos rfl, List.append_nil]
  | left i γ j hk p ih =>
    obtain ⟨fuel', c1, hl, hr⟩ := derive_internal hk h
    have hkeep := derive_frame hr fun δ ⟨j', p', hsym⟩ => derive_siblings_sym_ne hl hr p p' hsym.symm
    rw [hkeep, ih hl, List.append_assoc]
    rfl
  | right i γ j hk p ih =>
    obtain ⟨fuel', c1, -, hr⟩ := derive_internal hk h
    rw [ih hr, List.append_assoc]
    rfl

/-- What the walk of node i by the path β asks of the leaves below: codes of 1 to 255 bits for Symbols without one, no Symbol
twice (R143). -/
structure Derivable (nd : Arena) (i : Nat) (β : Bits) (c : CodeTable) : Prop where
  length_pos : ∀ γ s, SymPath nd i γ s → 1 ≤ (β ++ γ).length
  length_le : ∀ γ s, SymPath nd i γ s → (β ++ γ).length ≤ 255
  absent : ∀ γ s, SymPath nd i γ s → (codeOf c s).present = false
  unique : ∀ γ γ' s, SymPath nd i γ s → SymPath nd i γ' s → γ = γ'

/-- Then the same can be asked of the child's walk, with the child's bit on its path. -/
theorem Derivable.child {nd : Arena} {i k : Nat} {b : Bool} {β : Bits} {c c' : CodeTable} (h : Derivable nd i β c)
    (hchild : ∀ γ s, SymPath nd k γ s → SymPath nd i (b :: γ) s)
    (hc : ∀ γ s, SymPath nd k γ s → codeOf c' s = codeOf c s) : Derivable nd k (β ++ [b]) c' where
  length_pos γ s p := by have := h.length_pos _ _ (hchild γ s p); rwa [List.append_assoc]
  length_le γ s p := by have := h.length_le _ _ (hchild γ s p); rwa [List.append_assoc]
  absent γ s p := by rw [hc γ s p]; exact h.absent _ _ (hchild γ s p)
  unique γ γ' s p p' := List.tail_eq_of_cons_eq (h.unique _ _ s (hchild γ s p) (hchild γ' s p'))

/-- The walk of a well-formed tree succeeds where its leaves allow it; a node's index bounds the depth below it (R141 (c)). -/
theorem exists_derive {nd : Arena} {n : Nat} (hslots : ∀ k, k < n → slotWellFormed nd k = true) {fuel i : Nat} {β : Bits}
    {c : CodeTable} (hi : i < n) (hfuel : i < fuel) (h : Derivable nd i β c) : ∃ c', derive nd fuel i β c = some c' := by
  induction fuel generalizing i β c with
  | zero => omega
  | succ fuel ih =>
    cases hk : (nodeAt nd i).kind with
    | leaf =>
      have hp : SymPath nd i [] (nodeAt nd i).sym := (symPath_leaf hk _ _).2 ⟨rfl, rfl⟩
      have hpos := h.length_pos _ _ hp
      have hle := h.length_le _ _ hp
      rw [List.append_nil] at hpos hle
      simp only [derive, hk]
      rw [if_neg (by simp only [h.absent _ _ hp, Bool.false_eq_true, or_false]; omega)]
      exact ⟨_, rfl⟩
    | internal =>
      obtain ⟨hl, hr⟩ := slotWellFormed_internal (hslots i hi) hk
      have left {γ : Bits} {s : Byte} (p : SymPath nd (nodeAt nd i).left.toNat γ s) : SymPath nd i (false :: γ) s :=
        (symPath_internal hk _ _).2 (.inl ⟨γ, rfl, p⟩)
      have right {γ : Bits} {s : Byte} (p : SymPath nd (nodeAt nd i).right.toNat γ s) : SymPath nd i (true :: γ) s :=
        (symPath_internal hk _ _).2 (.inr ⟨γ, rfl, p⟩)
      obtain ⟨c1, h1⟩ := ih (by omega) (by omega) (h.child (fun _ _ => left) fun _ _ _ => rfl)
      -- the left subtree holds no Symbol of the right one
      have hkeep (γ : Bits) (s : Byte) (p : SymPath nd (nodeAt nd i).right.toNat γ s) : codeOf c1 s = codeOf c s :=
        derive_frame h1 fun γ' p' => by cases h.unique _ _ s (left p') (right p)
      obtain ⟨c2, h2⟩ := ih (by omega) (by omega) (h.child (fun _ _ => right) hkeep)
      exact ⟨c2, by simp only [derive, hk, h1, h2]⟩

/-- The codes of a well-formed tree that is not trivial, when its leaves allow them. -/
theorem exists_deriveCodes {w : Work} (hw : treeWellFormed w = true) (ht : w.trivial = false)
    (h : Derivable w.node w.root.toNat [] w.code) : ∃ c, deriveCodes w = some c := by
  obtain ⟨hroot, hslots, -⟩ := treeWellFormed_slots hw
  rw [deriveCodes_walk hw ht]
  exact exists_derive hslots hroot (by omega) h

/-- A path below an inner node is not empty. -/
theorem SymPath.length_pos {nd : Arena} {i : Nat} {β : Bits} {s : Byte} (p : SymPath nd i β s)
    (hk : (nodeAt nd i).kind = .internal) : 1 ≤ β.length := by
  rcases (symPath_internal hk _ _).1 p with ⟨γ, rfl, -⟩ | ⟨γ, rfl, -⟩ <;> simp

/-- Settles O25: what the statement asks of the leaves is what the walk asks of them. -/
theorem deriveGivesPathsAsCodes : Obligations.DeriveGivesPathsAsCodes := by
  intro s hw ht hleaf huniq
  have hd : Derivable s.work.node s.work.root.toNat [] s.work.code :=
    { length_pos := fun _ _ p => p.length_pos (root_internal hw ht)
      length_le := fun γ _ ⟨j, p, _⟩ => (hleaf γ j p).1
      absent := fun γ _ ⟨j, p, e⟩ => e ▸ (hleaf γ j p).2
      unique := fun γ γ' _ ⟨j, p, e⟩ ⟨j', p', e'⟩ => huniq γ γ' j j' p p' (e.trans e'.symm) }
  obtain ⟨c, hc⟩ := exists_deriveCodes hw ht hd
  refine ⟨c, exec_pEDerive_of_codes hc, fun β j p => ?_, fun b hb => ?_⟩
  · exact derive_code p ((deriveCodes_walk hw ht).symm.trans hc)
  · exact derive_frame ((deriveCodes_walk hw ht).symm.trans hc) fun γ ⟨j, p, e⟩ => hb γ j p e

end Sys2Proof.Machine
end

section
/-! Proofs of the statements of 42_code_derivation.md: the codes of every FrequencyTable's tree (R145 to R149). -/

namespace Sys2Proof.Machine

/-! ## The forest of the merges, whatever its nodes weigh

Which nodes a merge joins depends on the weights, and these may wrap when the counts sum to 2^32 or more. What the codes
need of the tree does not depend on them. -/

/-- What the merges keep: every slot in use is well formed; the paths below the nodes of PQ lead to keys only, to each by one
path, and a merge makes them longer by at most the element that PQ loses (R126 to R129). -/
structure KeyForest (f : FreqTable) (w : Work) : Prop extends Forest f w where
  size : w.nnodes.toNat + w.pq.length = 2 * (presentSymbols f).length
  slots : ∀ k, k < w.nnodes.toNat → slotWellFormed w.node k = true
  only : ∀ i ∈ w.pq, ∀ β s, SymPath w.node i.val β s → 0#32 < freqOf f s
  unique : ∀ i ∈ w.pq, ∀ i' ∈ w.pq, ∀ β β' s, SymPath w.node i.val β s → SymPath w.node i'.val β' s → (i, β) = (i', β')
  depth : ∀ i ∈ w.pq, ∀ β s, SymPath w.node i.val β s → β.length + w.pq.length ≤ (presentSymbols f).length

/-! ### P_E_TB_INIT -/

/-- Each leaf is a tree of its own. -/
theorem symPath_initTree {w : Work} {k : Nat} (hk : k < (presentSymbols w.freq).length) (β : Bits) (s : Byte) :
    SymPath (initTree w).node k β s ↔ β = [] ∧ (presentSymbols w.freq)[k] = s := by
  have hnode := nodeAt_initTree w k
  rw [dif_pos hk] at hnode
  rw [symPath_leaf (by rw [hnode]; rfl), hnode]
  rfl

theorem keyForest_initTree {w : Work} (h : w.pq = []) : KeyForest w.freq (initTree w) := by
  obtain ⟨-, hlen, hmem⟩ := initTree_pq_of_nil h
  have hn := toNat_initTree_nnodes w
  refine ⟨forest_initTree h, by omega, fun k hk => ?_, fun i hi β s p => ?_, fun i hi i' hi' β β' s p p' => ?_,
    fun i hi β s p => ?_⟩
  · rw [hn] at hk
    exact slotWellFormed_of_leaf (by rw [nodeAt_initTree, dif_pos hk])
  · obtain ⟨-, rfl⟩ := (symPath_initTree ((hmem i).1 hi) β s).1 p
    exact (mem_presentSymbols _ _).1 (List.getElem_mem _)
  · obtain ⟨rfl, hs⟩ := (symPath_initTree ((hmem i).1 hi) β s).1 p
    obtain ⟨rfl, hs'⟩ := (symPath_initTree ((hmem i').1 hi') β' s).1 p'
    have hnodup : (presentSymbols w.freq).Nodup := (presentSymbols_sorted w.freq).imp fun hlt => by
      rintro rfl
      exact absurd hlt (by simp)
    rw [Fin.ext ((hnodup.getElem_inj_iff).1 (hs.trans hs'.symm))]
  · obtain ⟨rfl, -⟩ := (symPath_initTree ((hmem i).1 hi) β s).1 p
    rw [hlen, List.length_nil, Nat.zero_add]

/-! ### One merge -/

/-- NIL is no arena index (R36). -/
theorem slotBits_ne_nil (i : Slot) : slotBits i ≠ nil9 := fun e => by
  have hval := congrArg BitVec.toNat e
  rw [toNat_slotBits] at hval
  exact absurd hval i.isLt.ne

/-- The start and the bits of a path after the merge of a and b into n: below n it has one bit more. -/
def graft (a b n i : Slot) (β : Bits) : Slot × Bits :=
  if i = a then (n, false :: β) else if i = b then (n, true :: β) else (i, β)

theorem length_graft_le (a b n i : Slot) (β : Bits) : (graft a b n i β).2.length ≤ β.length + 1 := by
  unfold graft
  split
  · simp
  · split <;> simp

section
variable {f : FreqTable} {w : Work} {a b n : Slot}

/-- The paths below an old node are those it had. -/
theorem Forest.symPath_mergedWork (hw : Forest f w) (hn : n.val = w.nnodes.toNat) {i : Nat} (hi : i < n.val) {β : Bits} {s : Byte}
    (h : SymPath (mergedWork w a b n).node i β s) : SymPath w.node i β s := by
  have agree (k : Nat) (hk : k < n.val) : nodeAt w.node k = nodeAt (mergedWork w a b n).node k := (nodeAt_mergedWork_old hk).symm
  have below (k : Nat) (hk : k < n.val) (hi : (nodeAt (mergedWork w a b n).node k).kind = .internal) :
      (nodeAt (mergedWork w a b n).node k).left.toNat < k ∧ (nodeAt (mergedWork w a b n).node k).right.toNat < k := by
    rw [← agree k hk] at hi ⊢
    exact hw.below k (hn ▸ hk) hi
  obtain ⟨j, hp, hs⟩ := h
  obtain ⟨hp', hj⟩ := leafPath_congr agree below hp hi
  exact ⟨j, hp', by rw [agree j hj]; exact hs⟩

/-- Every path of the forest after a merge is one of the forest before it, grafted. -/
theorem Forest.exists_symPath_graft (hw : Forest f w) (hn : n.val = w.nnodes.toNat) (ha : a ∈ w.pq) (hb : b ∈ w.pq) (hne : b ≠ a)
    {i : Slot} (hi : i ∈ mergedPq w.pq a b n) {β : Bits} {s : Byte} (h : SymPath (mergedWork w a b n).node i.val β s) :
    ∃ i0 ∈ w.pq, ∃ β0, SymPath w.node i0.val β0 s ∧ (i, β) = graft a b n i0 β0 := by
  have old {k : Slot} (hk : k ∈ w.pq) {γ : Bits} (p : SymPath (mergedWork w a b n).node k.val γ s) : SymPath w.node k.val γ s :=
    hw.symPath_mergedWork hn (hn ▸ hw.used k hk) p
  rcases (mem_mergedPq _ _ _ _ _).1 hi with rfl | ⟨hi, hia, hib⟩
  · rw [symPath_internal (by rw [nodeAt_mergedWork_new]; rfl), nodeAt_mergedWork_new] at h
    simp only [mergeNode, toNat_slotBits] at h
    rcases h with ⟨γ, rfl, p⟩ | ⟨γ, rfl, p⟩
    · exact ⟨a, ha, γ, old ha p, (if_pos rfl).symm⟩
    · exact ⟨b, hb, γ, old hb p, by rw [graft, if_neg hne, if_pos rfl]⟩
  · exact ⟨i, hi, β, old hi h, by rw [graft, if_neg hia, if_neg hib]⟩

/-- The new node has the two nodes it is made of as children, both before it. -/
theorem slotWellFormed_mergedWork_new (ha : a.val < n.val) (hb : b.val < n.val) :
    slotWellFormed (mergedWork w a b n).node n.val = true := by
  rw [slotWellFormed_iff, nodeAt_mergedWork_new]
  exact ⟨(nomatch ·), fun _ => ⟨slotBits_ne_nil a, slotBits_ne_nil b, (toNat_slotBits a).trans_lt ha,
    (toNat_slotBits b).trans_lt hb⟩⟩

theorem slotWellFormed_mergedWork_old {k : Nat} (hk : k < n.val) :
    slotWellFormed (mergedWork w a b n).node k = slotWellFormed w.node k := by
  rw [slotWellFormed, slotWellFormed, nodeAt_mergedWork_old hk]

end

theorem KeyForest.mergeStep {f : FreqTable} {w w' : Work} {last : Bool} (hw : KeyForest f w) (h : mergeStep w = .ok (w', last)) :
    KeyForest f w' := by
  obtain ⟨-, hlen, hnn⟩ := mergeStep_pqWf hw.toPqWf h
  have hforest := hw.toForest.mergeStep h
  obtain ⟨a, b, q1, q2, hn, ea, eb, rfl, -⟩ := mergeStep_ok h
  obtain ⟨ha, hb, hne⟩ := extractMin_twice ea eb
  have hsize := hw.size
  generalize hv : (⟨w.nnodes.toNat, hn⟩ : Slot) = n at *
  have hnv : n.val = w.nnodes.toNat := hv ▸ rfl
  refine ⟨hforest, by omega, fun k hk => ?_, fun i hi β s p => ?_, fun i hi i' hi' β β' s p p' => ?_, fun i hi β s p => ?_⟩
  · by_cases e : k = n.val
    · exact e ▸ slotWellFormed_mergedWork_new (hnv ▸ hw.used a ha) (hnv ▸ hw.used b hb)
    · rw [slotWellFormed_mergedWork_old (by omega)]
      exact hw.slots k (by omega)
  · obtain ⟨i0, hi0, β0, p0, -⟩ := hw.exists_symPath_graft hnv ha hb hne hi p
    exact hw.only i0 hi0 β0 s p0
  · obtain ⟨i0, hi0, β0, p0, e⟩ := hw.exists_symPath_graft hnv ha hb hne hi p
    obtain ⟨i1, hi1, β1, p1, e'⟩ := hw.exists_symPath_graft hnv ha hb hne hi' p'
    cases hw.unique i0 hi0 i1 hi1 β0 β1 s p0 p1
    rw [e, e']
  · obtain ⟨i0, hi0, β0, p0, e⟩ := hw.exists_symPath_graft hnv ha hb hne hi p
    have hgraft : (i, β).2.length ≤ β0.length + 1 := e ▸ length_graft_le a b n i0 β0
    have hdepth := hw.depth i0 hi0 β0 s p0
    dsimp only at hgraft
    omega

/-! ## The tree that is built -/

/-- The tree built from a FrequencyTable, as its codes need it: well formed, with a path to each key and to no other Symbol,
to each only one, and of fewer bits than there are keys (R126 to R129). -/
structure KeyTree (f : FreqTable) (w : Work) : Prop where
  wellFormed : treeWellFormed w = true
  trivial : w.trivial = decide ((presentSymbols f).length = 1)
  keys : ∀ s, 0#32 < freqOf f s ↔ ∃ β, SymPath w.node w.root.toNat β s
  unique : ∀ β β' s, SymPath w.node w.root.toNat β s → SymPath w.node w.root.toNat β' s → β = β'
  depth : ∀ β s, SymPath w.node w.root.toNat β s → β.length < (presentSymbols f).length

/-- A forest of one tree is the tree of all keys; `v` is `w` with ROOT and TRIVIAL written. -/
theorem KeyForest.keyTree {f : FreqTable} {w v : Work} (hw : KeyForest f w) (hnode : v.node = w.node)
    (hnn : v.nnodes = w.nnodes) {r : Slot} (hpq : w.pq = [r]) (hroot : v.root = slotBits r)
    (ht : v.trivial = decide ((presentSymbols f).length = 1)) (hkind : rootKindOk v = true) : KeyTree f v := by
  have hr : r ∈ w.pq := by rw [hpq]; exact List.mem_singleton_self r
  have hval : v.root.toNat = r.val := by rw [hroot, toNat_slotBits]
  have hpath (β : Bits) (s : Byte) : SymPath v.node v.root.toNat β s ↔ SymPath w.node r.val β s := by rw [hval, hnode]
  have hwf : treeWellFormed v = true := by
    rw [treeWellFormed_iff, hval, hnn, hnode]
    exact ⟨⟨hroot ▸ slotBits_ne_nil r, hw.used r hr⟩, fun k hk => hw.slots k (by omega), hkind⟩
  refine ⟨hwf, ht, fun s => ⟨fun hs => ?_, fun ⟨β, p⟩ => hw.only r hr β s ((hpath β s).1 p)⟩, fun β β' s p p' => ?_,
    fun β s p => ?_⟩
  · obtain ⟨i, hi, β, p⟩ := hw.keys s hs
    rw [hpq, List.mem_singleton] at hi
    exact ⟨β, (hpath β s).2 (hi ▸ p)⟩
  · exact congrArg Prod.snd (hw.unique r hr r hr β β' s ((hpath β s).1 p) ((hpath β' s).1 p'))
  · have := hw.depth r hr β s ((hpath β s).1 p)
    rw [hpq, List.length_singleton] at this
    omega

/-- With one key the tree is its leaf (R130). -/
theorem keyTree_asTrivial {w : Work} (hq : w.pq = []) (h : (presentSymbols w.freq).length = 1) :
    KeyTree w.freq (asTrivial (initTree w)) := by
  obtain ⟨-, hlen, hmem⟩ := initTree_pq_of_nil hq
  obtain ⟨r, hr⟩ := List.length_eq_one_iff.1 (hlen.trans h)
  have hr0 : r.val = 0 := by
    have := (hmem r).1 (by rw [hr]; exact List.mem_singleton_self r)
    omega
  have hn : (initTree w).nnodes = 1#10 := by rw [initTree_nnodes, h]
  have hleaf : (nodeAt (initTree w).node 0).kind = .leaf := by rw [nodeAt_initTree, dif_pos (by omega)]; rfl
  exact (keyForest_initTree hq).keyTree rfl rfl hr (by rw [slotBits, hr0]; rfl) (by rw [h]; rfl)
    ((rootKindOk_iff _).2 ⟨fun _ => ⟨hn, hleaf⟩, fun e => by cases e⟩)

/-- The last merge's node is the root. -/
theorem keyTree_of_lastMerge {f : FreqTable} {w w' : Work} (hw : KeyForest f w) (h2 : 2 ≤ (presentSymbols f).length)
    (ht : w.trivial = false) (h : mergeStep w = .ok (w', true)) : KeyTree f w' := by
  have hw' := hw.mergeStep h
  obtain ⟨a, b, q1, q2, hn, -, -, rfl, hlast⟩ := mergeStep_ok h
  have h1 : (mergedPq w.pq a b ⟨_, hn⟩).length = 1 := of_decide_eq_true hlast.symm
  obtain ⟨r, hr⟩ := List.length_eq_one_iff.1 h1
  have hnew : (⟨w.nnodes.toNat, hn⟩ : Slot) ∈ mergedPq w.pq a b ⟨_, hn⟩ := (mem_mergedPq _ _ _ _ _).2 (.inl rfl)
  rw [hr, List.mem_singleton] at hnew
  have hroot : (mergedWork w a b ⟨_, hn⟩).root = slotBits ⟨_, hn⟩ := if_pos h1
  have hkind : rootKindOk (mergedWork w a b ⟨_, hn⟩) = true := by
    rw [rootKindOk_iff, hroot, toNat_slotBits, nodeAt_mergedWork_new]
    exact ⟨fun e => absurd (ht.symm.trans e) Bool.false_ne_true, fun _ => rfl⟩
  exact hw'.keyTree rfl rfl hr (hnew ▸ hroot) (ht.trans (decide_eq_false (by omega)).symm) hkind

/-- With enough fuel for PQ the merges come to a last one (R126). -/
theorem exists_lastMerge {f : FreqTable} {k : Nat} {w : Work} (hw : KeyForest f w) (h2 : 2 ≤ w.pq.length)
    (hk : w.pq.length ≤ k + 1) : ∃ w0 w', mergeLoop k w = .ok w' ∧ KeyForest f w0 ∧ w0.trivial = w.trivial ∧
      mergeStep w0 = .ok (w', true) := by
  induction k generalizing w with
  | zero => omega
  | succ k ih =>
    have hle := length_presentSymbols_le f
    have hsize := hw.size
    obtain ⟨w1, last, hm⟩ := exists_mergeStep hw.sorted h2 (by omega)
    cases last with
    | true => exact ⟨w, w1, by rw [mergeLoop, hm], hw, rfl, hm⟩
    | false =>
      obtain ⟨hlen, hpos, hlast⟩ := mergeStep_length hw.toPqWf hm
      have h1 : w1.pq.length ≠ 1 := by simpa using hlast
      have htriv : w1.trivial = w.trivial := by
        obtain ⟨a, b, q1, q2, hn, -, -, rfl, -⟩ := mergeStep_ok hm
        rfl
      obtain ⟨w0, w', hloop, hw0, ht, hm'⟩ := ih (hw.mergeStep hm) (by omega) (by omega)
      exact ⟨w0, w', by rw [mergeLoop, hm]; exact hloop, hw0, ht.trans htriv, hm'⟩

/-- Every FrequencyTable with a key has its tree. -/
theorem exists_keyTree {f : FreqTable} (hL : 1 ≤ (presentSymbols f).length) : ∃ w, buildTree f = .ok w ∧ KeyTree f w := by
  have hq : (buildStart f).pq = [] := rfl
  by_cases h1 : (presentSymbols f).length = 1
  · exact ⟨_, buildTree_one h1, keyTree_asTrivial hq h1⟩
  · have hle := length_presentSymbols_le f
    have hlen : (initTree (buildStart f)).pq.length = (presentSymbols f).length := (initTree_pq_of_nil hq).2.1
    have ht : (initTree (buildStart f)).trivial = false := by rw [initTree_eq]; rfl
    obtain ⟨w0, w, hloop, hw0, ht0, hm⟩ := exists_lastMerge (k := 255) (keyForest_initTree hq) (by omega) (by omega)
    exact ⟨w, (buildTree_many (by omega)).trans hloop, keyTree_of_lastMerge hw0 (by omega) (ht0.trans ht) hm⟩

/-! ## The codes of the tree -/

/-- Exactly the keys have a code. -/
def CodesKeys (f : FreqTable) (c : CodeTable) : Prop := ∀ b, (codeOf c b).present = true ↔ 0#32 < freqOf f b

section
variable {f : FreqTable} {w : Work} {c : CodeTable}

/-- With one key its code is the bit 0 (R144). -/
theorem KeyTree.trivialCodes (h : KeyTree f w) (hc : NoCodes w.code) (ht : w.trivial = true) :
    ∃ c, deriveCodes w = some c ∧ TableWf c ∧ CodesKeys f c := by
  refine ⟨_, deriveCodes_trivial h.wellFormed ht, ?_⟩
  generalize hr : (nodeAt w.node w.root.toNat).sym = r
  have hcode (b : Byte) : (codeOf (setCode w.code r [false]) b).present = true ↔ r = b := by
    rw [codeOf_setCode]
    split
    · rename_i e
      exact iff_of_true rfl e.symm
    · rename_i e
      rw [hc b]
      exact iff_of_false Bool.false_ne_true (Ne.symm e)
  refine ⟨⟨fun s hs => ?_, fun s t hne hs ht => ?_⟩, fun b => ?_⟩
  · obtain rfl := (hcode s).1 hs
    rw [codeOf_setCode, if_pos rfl]
    decide
  · exact absurd (((hcode s).1 hs).symm.trans ((hcode t).1 ht)) hne
  · rw [hcode, h.keys]
    simp only [symPath_leaf (root_leaf h.wellFormed ht), hr, exists_eq_left]

theorem KeyTree.derivable (h : KeyTree f w) (hc : NoCodes w.code) (ht : w.trivial = false) :
    Derivable w.node w.root.toNat [] w.code where
  length_pos _ _ p := p.length_pos (root_internal h.wellFormed ht)
  length_le γ s p := by
    have := h.depth γ s p
    have := length_presentSymbols_le f
    rw [List.nil_append]
    omega
  absent _ s _ := hc s
  unique := h.unique

/-- The code of a Symbol is its path from the root (R146). -/
theorem codeOf_deriveCodes (hw : treeWellFormed w = true) (ht : w.trivial = false) (h : deriveCodes w = some c) {β : Bits}
    {s : Byte} (p : SymPath w.node w.root.toNat β s) : codeOf c s = { present := true, bits := β } := by
  rw [deriveCodes_walk hw ht] at h
  obtain ⟨j, hp, rfl⟩ := p
  exact derive_code hp h

/-- Exactly the keys have a code, and it is their path (R145). -/
theorem KeyTree.present_iff (h : KeyTree f w) (hc : NoCodes w.code) (ht : w.trivial = false) (hd : deriveCodes w = some c)
    (b : Byte) : (codeOf c b).present = true ↔ ∃ β, SymPath w.node w.root.toNat β b := by
  refine ⟨fun hb => ?_, fun ⟨β, p⟩ => by rw [codeOf_deriveCodes h.wellFormed ht hd p]⟩
  by_contra hno
  rw [deriveCodes_walk h.wellFormed ht] at hd
  rw [derive_frame hd fun γ p => hno ⟨γ, p⟩, hc b] at hb
  cases hb

/-- Paths to different leaves do not clash (R147, R148). -/
theorem KeyTree.tableWf (h : KeyTree f w) (hc : NoCodes w.code) (ht : w.trivial = false) (hd : deriveCodes w = some c) :
    TableWf c := by
  have hcode {β : Bits} {s : Byte} (p : SymPath w.node w.root.toNat β s) := codeOf_deriveCodes h.wellFormed ht hd p
  have hder := h.derivable hc ht
  refine ⟨fun s hs => ?_, fun s t hne hs ht' => ?_⟩
  · obtain ⟨β, p⟩ := (h.present_iff hc ht hd s).1 hs
    rw [hcode p]
    exact ⟨hder.length_pos β s p, hder.length_le β s p⟩
  · obtain ⟨β, p⟩ := (h.present_iff hc ht hd s).1 hs
    obtain ⟨γ, q⟩ := (h.present_iff hc ht hd t).1 ht'
    rw [hcode p, hcode q, clash, Bool.or_eq_false_iff]
    simp only [isPrefix, ← Bool.not_eq_true, List.isPrefixOf_iff_prefix]
    exact ⟨fun hpre => hne (p.eq_of_prefix q hpre), fun hpre => hne (q.eq_of_prefix p hpre).symm⟩

end

theorem huffmanCodes_eq {f : FreqTable} {w : Work} (h : buildTree f = .ok w) : huffmanCodes f = deriveCodes w := by
  rw [huffmanCodes, h]

/-- Settles O26: the tree's paths are the codes, or the one code is the bit 0. -/
theorem derivedCodesArePrefixFree : Obligations.DerivedCodesArePrefixFree := by
  intro f hf
  obtain ⟨w, hbuild, htree⟩ := exists_keyTree (List.length_pos_iff.2 hf)
  obtain ⟨-, hc⟩ := buildTree_frame hbuild
  rw [huffmanCodes_eq hbuild]
  cases ht : w.trivial with
  | true => exact htree.trivialCodes hc ht
  | false =>
    obtain ⟨c, hd⟩ := exists_deriveCodes htree.wellFormed ht (htree.derivable hc ht)
    exact ⟨c, hd, htree.tableWf hc ht hd, fun b => (htree.present_iff hc ht hd b).trans (htree.keys b).symm⟩

/-- Settles O27: a walk down the tree by β meets a leaf's path or ends on one. -/
theorem derivedCodesAreFull : Obligations.DerivedCodesAreFull := by
  intro f c h2 hcodes β
  obtain ⟨w, hbuild, htree⟩ := exists_keyTree (f := f) (by omega)
  have ht : w.trivial = false := htree.trivial.trans (decide_eq_false (by omega))
  rw [huffmanCodes_eq hbuild] at hcodes
  obtain ⟨hroot, hslots, -⟩ := treeWellFormed_slots htree.wellFormed
  obtain ⟨γ, s, p, h⟩ := exists_symPath hslots hroot β
  refine ⟨s, ?_⟩
  rw [codeOf_deriveCodes htree.wellFormed ht hcodes p]
  exact ⟨rfl, h.imp List.isPrefixOf_iff_prefix.2 List.isPrefixOf_iff_prefix.2⟩

end Sys2Proof.Machine
end

section
/-! Proofs of the statements of 43_bit_packer.md: the bytes of Pack, BP_PUSH, and the streaming form (R155 to R159). -/

namespace Sys2Proof.Machine

/-- Settles O28: byte j of Pack is `packByte β j`, whose bits are those of β, high to low. -/
theorem packLayout : Obligations.PackLayout := by
  refine fun β => ⟨length_pack β, fun j _ k hk => ?_, rfl⟩
  simp only [pack, List.getElem_map, List.getElem_range, packByte_bit _ _ _ hk]
  split
  next h => exact List.getD_eq_getElem _ _ h
  next h => exact List.getD_eq_default _ _ (Nat.le_of_not_lt h)

/-! ## BP_PUSH, by whether its bit fills the byte (R157) -/

theorem bpPush_of_full {w : Work} (h : w.nacc.toNat = 7) (b : Bool) :
    bpPush w b =
      { w with pbuf := w.pbuf ++ [setAccBit w.acc 0 b], acc := 0#8, nacc := 0#3, tbits := w.tbits + 1#64 } := by
  simp [bpPush, h]

theorem bpPush_of_room {w : Work} (h : w.nacc.toNat < 7) (b : Bool) :
    bpPush w b =
      { w with acc := setAccBit w.acc (7 - w.nacc.toNat) b, nacc := w.nacc + 1#3, tbits := w.tbits + 1#64 } := by
  simp [bpPush, show w.nacc.toNat + 1 ≠ 8 by omega]

theorem toNat_tbits_bpPush {w : Work} (h : w.tbits.toNat + 1 < 2 ^ 64) (b : Bool) :
    (bpPush w b).tbits.toNat = w.tbits.toNat + 1 := by
  rw [bpPush_tbits, BitVec.toNat_add_of_lt h]
  rfl

theorem packerInv_bpPush {w : Work} (hw : PackerInv w) (h : w.tbits.toNat + 1 < 2 ^ 64) (b : Bool) :
    PackerInv (bpPush w b) := by
  obtain ⟨hn, hp, ha⟩ := hw
  rw [PackerInv, toNat_tbits_bpPush h]
  by_cases h7 : w.nacc.toNat = 7
  · rw [bpPush_of_full h7]
    refine ⟨?_, ?_, fun k _ => by simp⟩
    · change 0 = _
      omega
    · rw [List.length_append, List.length_singleton]
      omega
  · have hlt : w.nacc.toNat < 7 := by omega
    have hnacc : (w.nacc + 1#3).toNat = w.nacc.toNat + 1 := by rw [BitVec.toNat_add_of_lt (by simp; omega)]; rfl
    rw [bpPush_of_room hlt]
    refine ⟨?_, ?_, fun k hk => ?_⟩
    · rw [hnacc]
      omega
    · dsimp only
      omega
    · rw [hnacc] at hk
      rw [setAccBit_bit _ _ _ _ (by omega) (by omega), if_neg (by omega)]
      exact ha k (by omega)

/-- Settles O29: setting bit 7 − NACC leaves the other bits, so the padding below it stays 0. -/
theorem pushKeepsPackerInvariant : Obligations.PushKeepsPackerInvariant := by
  refine fun w b hw h => ⟨packerInv_bpPush hw h b, toNat_tbits_bpPush h b, fun h7 => ?_, fun h7 => ?_⟩
  · rw [bpPush_of_full h7]
    refine ⟨setAccBit w.acc 0 b, rfl, ?_, fun k h1 hk => ?_⟩
    · rw [setAccBit_bit _ _ _ _ (by omega) (by omega), if_pos rfl]
    · rw [setAccBit_bit _ _ _ _ (by omega) hk, if_neg (by omega)]
  · rw [bpPush_of_room h7]
    refine ⟨rfl, ?_, fun k hk hne => ?_⟩
    · rw [setAccBit_bit _ _ _ _ (by omega) (by omega), if_pos rfl]
    · rw [setAccBit_bit _ _ _ _ (by omega) hk, if_neg hne]

/-! ## BP_FLUSH -/

theorem validOf_le (n : Nat) : validOf n ≤ 8 := by
  unfold validOf
  split <;> omega

/-- VALID is wide enough for every trailing-bit count (R158). -/
theorem toNat_valid_bpFlush (w : Work) : (bpFlush w).valid.toNat = validOf w.tbits.toNat := by
  have hvalid : (bpFlush w).valid = BitVec.ofNat 4 (validOf w.tbits.toNat) := rfl
  rw [hvalid, BitVec.toNat_ofNat, Nat.mod_eq_of_lt (by have := validOf_le w.tbits.toNat; omega)]

/-- Settles O30: after each bit the packer holds what has been pushed (`Packed`), and BP_FLUSH adds the last byte. -/
theorem streamingPackerIsPack : Obligations.StreamingPackerIsPack := by
  intro w β hlen
  obtain ⟨hp, ht⟩ := bpFlush_bpPushAll_bpReset w β
  have hn : (bpFlush (bpPushAll (bpReset w) β)).tbits.toNat = β.length := by
    rw [ht, BitVec.toNat_ofNat, Nat.mod_eq_of_lt hlen]
  exact ⟨hp, by rw [toNat_valid_bpFlush, ← bpFlush_tbits, hn], hn⟩

end Sys2Proof.Machine
end

section
/-! Proofs of the statements of 44_bit_unpacker.md: when Unpack fails and what it reads, and that it inverts Pack (R171 to R173). -/

namespace Sys2Proof.Machine

theorem unpack_eq_none {bs : List Byte} {n : Nat} : unpack bs n = none ↔ bs.length < ceil8 n := by
  simp [unpack]

/-- Settles O31: Unpack tests the number of bytes first, and reads bit i as `bitOf` does. -/
theorem unpackReadsBitsInOrder : Obligations.UnpackReadsBitsInOrder := by
  refine fun bs n => ⟨unpack_eq_none, fun u hu => ?_⟩
  obtain ⟨-, hlen, hbits⟩ := unpack_some.1 hu
  refine ⟨hlen, fun i h h' => ?_⟩
  rw [hbits i h, bitOf, List.getD_eq_getElem _ _ h']

theorem unpack_pack (β : Bits) : unpack (pack β) β.length = some β :=
  unpack_some.2 ⟨(length_pack β).ge, rfl, fun _ h => (bitOf_pack β h).symm⟩

/-- R172: UnpackV with the valid count of n bits is Unpack of n, where the bytes are as many as n bits need. -/
theorem unpackV_validOf {bs : List Byte} {n : Nat} (h : bs.length = ceil8 n) : unpackV bs (validOf n) = unpack bs n := by
  rw [unpackV]
  by_cases hn : n = 0
  · subst hn
    have hempty : bs.length = 0 := h
    rw [if_pos hempty, if_pos (show validOf 0 = 0 from rfl)]
    exact (unpack_some.2 ⟨h.ge, rfl, by simp⟩).symm
  · have hvalid : validOf n = (n - 1) % 8 + 1 := if_neg hn
    have hbytes : bs.length = (n - 1) / 8 + 1 := by rw [h, ceil8]; omega
    have htotal : 8 * (bs.length - 1) + validOf n = n := by omega
    rw [if_neg (by omega), if_pos (by omega), htotal]

/-- Settles O32: Unpack reads each bit where Pack put it, and the valid count of Pack's bytes tells their number of bits. -/
theorem unpackInvertsPack : Obligations.UnpackInvertsPack :=
  fun β => ⟨unpack_pack β, (unpackV_validOf (length_pack β)).trans (unpack_pack β)⟩

end Sys2Proof.Machine
end

section
/-! Proofs of the statements of 45_codec_encode.md: what P_E_PACK packs, how many bits that is, an output that does not fit (R183,
R184, R186, R192, R213). -/

namespace Sys2Proof.Machine

/-! ## An output that does not fit (R186, R213, R228) -/

theorem emitOutput_tooLong {A : List Byte} {s : State} (h : fitsCap A.length s.params.obufCap = false) :
    emitOutput A s = raise .outputUnwritable .noStage s := by
  rw [emitOutput, h]; rfl

/-- Settles O38: both phases hand their output to `emitOutput`, which looks at its length first. -/
theorem emitPhasesRefuseLongOutput : Obligations.EmitPhasesRefuseLongOutput := fun _ _ hcap =>
  ⟨fun h => congrArg _ (emitOutput_tooLong (fitsCap_some_of_lt hcap h)),
    fun h => congrArg _ (emitOutput_tooLong (fitsCap_some_of_lt hcap h))⟩

/-! ## The packer writes its own registers only (R156 to R158) -/

/-- The working state `w` with the packer's registers of `p`. -/
def withPacker (w p : Work) : Work :=
  { w with acc := p.acc, nacc := p.nacc, tbits := p.tbits, valid := p.valid, pbuf := p.pbuf }

theorem bpPush_frame (w : Work) (b : Bool) : bpPush w b = withPacker w (bpPush w b) := by
  unfold bpPush
  dsimp only
  split
  · rfl
  · rfl

theorem bpPushAll_frame (w : Work) (β : Bits) : bpPushAll w β = withPacker w (bpPushAll w β) := by
  induction β generalizing w with
  | nil => rfl
  | cons b β ih =>
    calc bpPushAll (bpPush w b) β = withPacker (bpPush w b) (bpPushAll (bpPush w b) β) := ih _
      _ = withPacker w (bpPushAll (bpPush w b) β) := by rw [bpPush_frame]; rfl

/-- BP_FLUSH after the bits β: no bit is left over, and PBUF holds all of Pack(β). -/
theorem bpFlush_of_packed {β : Bits} {w : Work} (h : Packed β w) :
    bpFlush w =
      { w with acc := 0#8, nacc := 0#3, valid := BitVec.ofNat 4 (validOf w.tbits.toNat), pbuf := pack β } := by
  rw [← bpFlush_pbuf h, bpFlush]
  by_cases h0 : w.nacc = 0#3
  · have hmod : β.length % 8 = 0 := by rw [← h.nacc, h0]; rfl
    have hacc : w.acc = 0#8 := h.acc.trans (packByte_of_le (by omega))
    rw [if_pos h0, ← hacc, ← h0]
  · rw [if_neg h0]

/-- The working state after a whole bit sequence has been packed. -/
theorem bpFlush_bpPushAll_eq (w : Work) {β : Bits} (h : β.length < 2 ^ 64) :
    bpFlush (bpPushAll (bpReset w) β) =
      { w with acc := 0#8, nacc := 0#3, tbits := BitVec.ofNat 64 β.length,
               valid := BitVec.ofNat 4 (validOf β.length), pbuf := pack β } := by
  have hpacked : Packed β (bpPushAll (bpReset w) β) := packed_bpPushAll (packed_bpReset w) β
  have hn : (BitVec.ofNat 64 β.length).toNat = β.length := Nat.mod_eq_of_lt h
  rw [bpFlush_of_packed hpacked, hpacked.tbits, hn, bpPushAll_frame]
  rfl

/-- Settles O34: the substitution loop pushes the codes of the input, and the flush leaves their Pack. -/
theorem packPhasePacksPayload : Obligations.PackPhasePacksPayload := by
  intro s hf hcodes hlen
  have hbytes : packBytes (input s) (bpReset s.work) =
      some (bpPushAll (bpReset s.work) (payloadBits s.work.code (input s))) := packBytes_eq hcodes
  rw [exec, execPEPack_some hf hbytes, bpFlush_bpPushAll_eq s.work hlen, goto]

/-! ## How many bits the payload has (R184) -/

theorem length_payloadBits (c : CodeTable) (x : List Byte) :
    (payloadBits c x).length = (x.map fun b => (codeOf c b).bits.length).sum := List.length_flatMap

/-- A sum over the bytes of a sequence, gathered by their values. -/
theorem sum_map_eq_sum_count_mul (x : List Byte) (f : Byte → Nat) :
    (x.map f).sum = (allSymbols.map fun b => x.count b * f b).sum := by
  rw [Finset.sum_list_map_count, ← List.sum_toFinset _ allSymbols_nodup]
  refine Finset.sum_subset (fun b _ => List.mem_toFinset.2 (mem_allSymbols b)) fun b _ hb => ?_
  rw [List.count_eq_zero_of_not_mem (fun h => hb (List.mem_toFinset.2 h)), zero_smul]

/-! ## Inputs over at most two byte values (R192) -/

/-- A tree of at most two leaves has no path of more than one bit, and the code of a lone leaf is one bit (R144). -/
theorem length_code_of_le_two {f : FreqTable} {c : CodeTable} (hcodes : huffmanCodes f = some c)
    (h2 : (presentSymbols f).length ≤ 2) {b : Byte} (hb : 0#32 < freqOf f b) : (codeOf c b).bits.length = 1 := by
  obtain ⟨w, hbuild, htree⟩ := exists_keyTree (List.length_pos_of_mem ((mem_presentSymbols f b).2 hb))
  obtain ⟨-, hno⟩ := buildTree_frame hbuild
  rw [huffmanCodes_eq hbuild] at hcodes
  obtain ⟨β, p⟩ := (htree.keys b).1 hb
  cases ht : w.trivial with
  | true =>
    obtain ⟨-, hsym⟩ := (symPath_leaf (root_leaf htree.wellFormed ht) β b).1 p
    rw [deriveCodes_trivial htree.wellFormed ht] at hcodes
    cases hcodes
    rw [codeOf_setCode, if_pos hsym.symm]
    rfl
  | false =>
    have hpos := (htree.derivable hno ht).length_pos β b p
    have hlt := htree.depth β b p
    rw [List.nil_append] at hpos
    have hβ : β.length = 1 := by omega
    rw [codeOf_deriveCodes htree.wellFormed ht hcodes p]
    exact hβ

/-- Settles O35: the bytes of one value take as many bits as the value's code, which is one where there are at most two. -/
theorem payloadBitCount : Obligations.PayloadBitCount := by
  refine ⟨fun c x => (length_payloadBits c x).trans (sum_map_eq_sum_count_mul x _), fun x c _ hx h2 hcodes => ?_⟩
  have hone : ∀ b ∈ x, (codeOf c b).bits.length = 1 := fun b hb =>
    length_code_of_le_two hcodes h2 (freqOf_countOf_pos hx hb)
  calc (payloadBits c x).length = (x.map fun b => (codeOf c b).bits.length).sum := length_payloadBits c x
    _ = (x.map fun _ => 1).sum := by rw [List.map_congr_left hone]
    _ = x.length := by simp

end Sys2Proof.Machine
end

section
/-! Proofs of the statements of 45_codec_encode.md: Decode gives back what Encode was given (R190, R216). -/

namespace Sys2Proof.Machine

/-! ## Matching the codes of a byte sequence (R210, R212) -/

section
variable {c : CodeTable} (hc : TableWf c)
include hc

/-- Over a well-formed table only one Symbol's code can begin with a present Symbol's code. -/
theorem TableWf.eq_of_prefix {s t : Byte} (hs : (codeOf c s).present = true) (ht : (codeOf c t).present = true)
    (h : (codeOf c s).bits <+: (codeOf c t).bits) : s = t := by
  by_contra hne
  have hclash := hc.2 s t hne hs ht
  rw [clash, isPrefix, List.isPrefixOf_iff_prefix.2 h] at hclash
  cases hclash

/-- R42: Lookup inverts a well-formed table. -/
theorem TableWf.lookup_code {y : Byte} (hy : (codeOf c y).present = true) : lookup c (codeOf c y).bits = some y := by
  cases h : lookup c (codeOf c y).bits with
  | none => exact absurd rfl ((lookup_none _ _).1 h y hy)
  | some s =>
    obtain ⟨hs, hbits⟩ := lookup_some _ _ _ h
    rw [hc.eq_of_prefix hs hy (hbits ▸ List.prefix_rfl)]

/-- No code ends inside another. -/
theorem TableWf.lookup_properPrefix {y : Byte} (hy : (codeOf c y).present = true) {β γ : Bits}
    (h : β ++ γ = (codeOf c y).bits) (hγ : γ ≠ []) : lookup c β = none := by
  refine (lookup_none _ _).2 fun s hs hbits => hγ ?_
  have hsy : s = y := hc.eq_of_prefix hs hy ⟨γ, hbits ▸ h⟩
  rw [← hbits, hsy] at h
  exact List.append_right_eq_self.1 h

/-- With part of a code as the candidate, the loop goes on to the code's end and puts out its Symbol. -/
theorem TableWf.matchBits_code {y : Byte} (hy : (codeOf c y).present = true) {γ : Bits} (hγ : γ ≠ []) {cand : Bits}
    (h : cand ++ γ = (codeOf c y).bits) (rest : Bits) (out : List Byte) :
    matchBits c (γ ++ rest) cand out = matchBits c rest [] (out ++ [y]) := by
  induction γ generalizing cand with
  | nil => exact absurd rfl hγ
  | cons b γ ih =>
    have h' : cand ++ [b] ++ γ = (codeOf c y).bits := by rw [List.append_assoc]; exact h
    rw [List.cons_append, matchBits]
    by_cases hend : γ = []
    · subst hend
      rw [List.append_nil] at h'
      rw [h', hc.lookup_code hy]
      rfl
    · rw [hc.lookup_properPrefix hy h' hend]
      exact ih hend h'

/-- The codes of a byte sequence are matched back to its bytes, with no bit left over. -/
theorem TableWf.matchBits_payloadBits {ys : List Byte} (hys : ∀ y ∈ ys, (codeOf c y).present = true) (out : List Byte) :
    matchBits c (payloadBits c ys) [] out = ([], out ++ ys) := by
  induction ys generalizing out with
  | nil => rw [List.append_nil]; rfl
  | cons y ys ih =>
    obtain ⟨hy, hys⟩ := List.forall_mem_cons.1 hys
    have hne : (codeOf c y).bits ≠ [] := List.length_pos_iff.1 (hc.1 y hy).1
    calc matchBits c ((codeOf c y).bits ++ payloadBits c ys) [] out
        = matchBits c (payloadBits c ys) [] (out ++ [y]) := hc.matchBits_code hy hne rfl _ _
      _ = ([], out ++ y :: ys) := by rw [ih hys, List.append_assoc, List.singleton_append]

/-- No code has more than 255 bits. -/
theorem TableWf.length_payloadBits_le {x : List Byte} (hx : ∀ b ∈ x, (codeOf c b).present = true) :
    (payloadBits c x).length ≤ x.length * 255 := by
  rw [length_payloadBits]
  simpa using List.sum_le_card_nsmul (x.map fun b => (codeOf c b).bits.length) 255
    (List.forall_mem_map.2 fun b hb => (hc.1 b (hx b hb)).2)

end

/-! ## What Encode writes (R188) -/

/-- The artifact of the bytes x under the codes c, part by part (R90). -/
def artifactOf (c : CodeTable) (x : List Byte) : List Byte :=
  u16be (BitVec.ofNat 16 (entriesOf c)) ++ tableBytes c ++ u64be (BitVec.ofNat 64 (payloadBits c x).length)
    ++ pack (payloadBits c x)

theorem artifactOf_noCodes : artifactOf noCodes [] = List.replicate 10 0#8 := by
  have hcount : entriesOf noCodes = 0 := by simp [entriesOf]
  rw [artifactOf, tableBytes_of_noCodes noCodes_noCodes, hcount]
  rfl

theorem tableWf_noCodes : TableWf noCodes := ⟨by simp, by simp⟩

/-- R190: Encode answers with the artifact under a well-formed table that has a code for each byte. -/
theorem exists_encodeFn {x : List Byte} (hx : x.length < 2 ^ 32) :
    ∃ c, TableWf c ∧ (∀ b ∈ x, (codeOf c b).present = true) ∧ encodeFn x = some (artifactOf c x) := by
  by_cases hnil : x = []
  · subst hnil
    exact ⟨noCodes, tableWf_noCodes, by simp, by rw [artifactOf_noCodes]; rfl⟩
  · have hkey {b : Byte} (hb : b ∈ x) : b ∈ presentSymbols (countOf x) :=
      (mem_presentSymbols _ b).2 (freqOf_countOf_pos hx hb)
    obtain ⟨b, hb⟩ := List.exists_mem_of_ne_nil x hnil
    obtain ⟨c, hcodes, hwf, hiff⟩ := derivedCodesArePrefixFree _ (List.ne_nil_of_mem (hkey hb))
    have hentries : (presentSymbols (countOf x)).length = entriesOf c :=
      congrArg List.length (List.filter_congr fun s _ => by rw [Bool.eq_iff_iff, hiff, decide_eq_true_iff])
    refine ⟨c, hwf, fun s hs => (hiff s).2 ((mem_presentSymbols _ s).1 (hkey hs)), ?_⟩
    rw [encodeFn, if_neg hnil, hcodes, artifactOf, hentries]

/-! ## Decode of it (R215) -/

/-- The payload behind its bit count, where it has the bytes the count needs (R206). -/
theorem parsePayload_append {pre payload : List Byte} {p : Nat} {T : BitVec 64} {u : Bits} (hp : pre.length = p)
    (hlen : payload.length = ceil8 T.toNat) (hu : unpack payload T.toNat = some u) :
    parsePayload (pre ++ u64be T ++ payload) p = some (T.toNat, u) := by
  subst hp
  have htotal : (pre ++ u64be T ++ payload).length = pre.length + 8 + payload.length := by simp [Nat.add_assoc]
  have hT : be64 ((pre ++ u64be T ++ payload).drop pre.length) = T.toNat := by
    rw [List.append_assoc, List.drop_left, be64_append (length_u64be T), be64_u64be]
  have hpayload : (pre ++ u64be T ++ payload).drop (pre.length + 8) = payload := List.drop_left' (by simp)
  rw [parsePayload, if_neg (by omega)]
  dsimp only
  rw [hT, if_neg (by omega), if_neg (by omega), hpayload, hu]

theorem decodeFn_of_parts {a out : List Byte} {n p T : Nat} {c : CodeTable} {u : Bits}
    (htable : parseTable a noCodes = some (n, c, p)) (hpayload : parsePayload a p = some (T, u))
    (hmatch : matchBits c u [] [] = ([], out)) : decodeFn a = .ok out := by
  simp only [decodeFn, htable, hpayload, hmatch]

/-- R216: the table parses back to the same codes, the payload unpacks to their bits, and these are matched byte by byte. -/
theorem TableWf.decodeFn_artifactOf {c : CodeTable} (hc : TableWf c) {x : List Byte}
    (hx : ∀ b ∈ x, (codeOf c b).present = true) (hlen : (payloadBits c x).length < 2 ^ 64) :
    decodeFn (artifactOf c x) = .ok x := by
  generalize hT : BitVec.ofNat 64 (payloadBits c x).length = T
  have hbits : (payloadBits c x).length = T.toNat := hT ▸ (Nat.mod_eq_of_lt hlen).symm
  obtain ⟨c', htable, hsame⟩ := serializedTableParsesBack c (u64be T ++ pack (payloadBits c x)) hc
  have hpayload : parsePayload (artifactOf c x) (2 + (tableBytes c).length) = some (T.toNat, payloadBits c x) := by
    rw [artifactOf, hT]
    exact parsePayload_append List.length_append (by rw [length_pack, hbits]) (hbits ▸ unpack_pack _)
  have hmatch : matchBits c' (payloadBits c x) [] [] = ([], x) := by
    rw [SameCodes.matchBits hsame, hc.matchBits_payloadBits hx, List.nil_append]
  rw [← List.append_assoc, ← hT] at htable
  exact decodeFn_of_parts htable hpayload hmatch

/-- Settles O60: Encode's artifact is decoded with its own codes. -/
theorem roundTrip : Obligations.RoundTrip := by
  intro x hx
  obtain ⟨c, hc, hcodes, henc⟩ := exists_encodeFn hx
  have hbits := hc.length_payloadBits_le hcodes
  exact ⟨artifactOf c x, henc, hc.decodeFn_artifactOf hcodes (by omega)⟩

end Sys2Proof.Machine
end

section
/-! Proofs of the statements of 46_codec_decode.md: what P_D_PARSE, P_D_UNPACK and P_D_MATCH accept, and what they then leave (R202
to R212). -/

namespace Sys2Proof.Machine

/-! ## P_D_PARSE (R202, R204) -/

/-- Settles O39: the parser adds the entries of a legal table to the code table. -/
theorem parseAcceptsLegalTable : Obligations.ParseAcceptsLegalTable := by
  intro s es rest hf hcodes hholds
  have ⟨_, _, _, hpw⟩ := hholds
  have hparse : parseTable (input s) s.work.code = _ :=
    (parseTable_eq_some_iff hcodes ..).2 ⟨es, rest, hholds, rfl, rfl, rfl⟩
  exact ⟨addEntries s.work.code es, execPDParse_some hf hparse, fun e he => codeOf_addEntries_of_mem hpw he _,
    fun b hb => codeOf_addEntries_of_ne hb _⟩

section
variable {c : CodeTable} (hc : NoCodes c) {es : List TableEntry} (hpw : es.Pairwise Apart)
include hc hpw

/-- The Symbols present after entries have been added to an empty table are those of the entries. -/
theorem present_addEntries_iff (b : Byte) : (codeOf (addEntries c es) b).present = true ↔ ∃ e ∈ es, e.sym = b := by
  constructor
  · intro hb
    by_contra hnone
    rw [codeOf_addEntries_of_ne (fun e he hsym => hnone ⟨e, he, hsym⟩), hc b] at hb
    cases hb
  · rintro ⟨e, he, rfl⟩
    rw [codeOf_addEntries_of_mem hpw he]

/-- Test (6) of R202 keeps the Symbols distinct, so that the table has one entry for each of them. -/
theorem entriesOf_addEntries : entriesOf (addEntries c es) = es.length := by
  have hnodup : (es.map (·.sym)).Nodup := List.pairwise_map.2 (hpw.imp And.left)
  have hperm : (codeSymbols (addEntries c es)).Perm (es.map (·.sym)) :=
    (List.perm_ext_iff_of_nodup (allSymbols_nodup.filter _) hnodup).2 fun b =>
      (mem_codeSymbols _ b).trans ((present_addEntries_iff hc hpw b).trans List.mem_map.symm)
  exact hperm.length_eq.trans (List.length_map _)

/-- Tests (4) and (7) of R202 keep the table well formed. -/
theorem tableWf_addEntries (hok : ∀ e ∈ es, EntryOk e) : TableWf (addEntries c es) := by
  refine ⟨fun s hs => ?_, fun s t hne hs ht => ?_⟩
  · obtain ⟨e, he, rfl⟩ := (present_addEntries_iff hc hpw s).1 hs
    obtain ⟨h1, h255, -⟩ := hok e he
    rw [codeOf_addEntries_of_mem hpw he]
    exact ⟨h1, h255⟩
  · obtain ⟨d, hd, rfl⟩ := (present_addEntries_iff hc hpw s).1 hs
    obtain ⟨e, he, rfl⟩ := (present_addEntries_iff hc hpw t).1 ht
    have hsymm : Std.Symm fun d e : TableEntry => clash d.bits e.bits = false := ⟨fun _ _ h => (clash_comm ..).trans h⟩
    rw [codeOf_addEntries_of_mem hpw hd, codeOf_addEntries_of_mem hpw he]
    exact (hpw.imp And.right).forall hd he (fun h => hne (congrArg _ h))

end

/-- Settles O41: the parsed table is the empty one with the entries of a legal table added. -/
theorem parsedTableIsWellFormed : Obligations.ParsedTableIsWellFormed := by
  intro a c0 c n p hc0 hparse
  obtain ⟨es, rest, ⟨-, -, hok, hpw⟩, rfl, rfl, -⟩ := (parseTable_eq_some_iff hc0 ..).1 hparse
  have hwf : TableWf (addEntries c0 es) := tableWf_addEntries hc0 hpw hok
  exact ⟨hwf, entriesOf_addEntries hc0 hpw, fun _ => hwf.lookup_code⟩

/-! ## P_D_UNPACK (R206 to R208) -/

/-- A payload that has not exactly the bytes its bit count needs fails one of the three tests of R206. -/
theorem parsePayload_eq_none {a : List Byte} {p : Nat} (h : a.length ≠ p + 8 + ceil8 (be64 (a.drop p))) :
    parsePayload a p = none := by
  rw [parsePayload]
  dsimp only
  split
  · rfl
  split
  · rfl
  split
  · rfl
  · omega

/-- The bit count is read from the eight bytes that hold it. -/
theorem be64_drop_u64be (pre payload : List Byte) (T : BitVec 64) :
    be64 ((pre ++ u64be T ++ payload).drop pre.length) = T.toNat := by
  rw [List.append_assoc, List.drop_left, be64_append (length_u64be T), be64_u64be]

theorem isEmptyFlag_iff (w : Work) : isEmptyFlag w = true ↔ w.nsym = 0#9 ∧ w.tbits = 0#64 := by
  simp [isEmptyFlag]

/-- The whole next state of P_D_UNPACK for an accepted payload. -/
theorem execPDUnpack_eq {s : State} (hf : ilenFits s = true) {T : BitVec 64} {u : Bits}
    (h : parsePayload (input s) s.work.ppos.toNat = some (T.toNat, u)) :
    execPDUnpack s = .next (goto (if s.work.nsym = 0#9 ∧ T = 0#64 then codeDEmit else codeDMatch)
      { s.work with tbits := T, valid := BitVec.ofNat 4 (validOf T.toNat), ubits := u, ppos := s.ilen.setWidth 33 } s) := by
  rw [execPDUnpack, if_pos hf, h]
  simp only [isEmptyFlag_iff, BitVec.ofNat_toNat, BitVec.setWidth_eq]

/-- Settles O43: a payload of the right length is accepted, and its bits are Unpack's. -/
theorem unpackPhaseReadsPayload : Obligations.UnpackPhaseReadsPayload := by
  intro s pre payload T hf hin hpre hlen
  obtain ⟨u, hu⟩ := Option.ne_none_iff_exists'.1 (mt unpack_eq_none.1 (Nat.not_lt.2 hlen.ge))
  obtain ⟨-, hulen, hbits⟩ := unpack_some.1 hu
  have hparse : parsePayload (input s) s.work.ppos.toNat = some (T.toNat, u) := hin ▸ parsePayload_append hpre hlen hu
  exact ⟨u, execPDUnpack_eq hf hparse, hulen, hbits⟩

/-- Settles O44: in each case the payload has not the bytes its bit count needs. -/
theorem unpackPhaseRejectsWrongLength : Obligations.UnpackPhaseRejectsWrongLength := by
  refine fun s hf => ⟨fun hshort => ?short, fun pre payload T hin hpre hlen => ?wrong⟩
  case short =>
    refine execPDUnpack_none hf (parsePayload_eq_none ?_)
    rw [length_input]
    omega
  case wrong =>
    refine execPDUnpack_none hf (parsePayload_eq_none ?_)
    rw [hin, ← hpre, be64_drop_u64be, List.length_append, List.length_append, length_u64be]
    exact fun h => hlen (Nat.add_left_cancel h)

/-! ## P_D_MATCH (R210 to R212) -/

/-- What the loop has consumed is the codes it has matched and the candidate left over. -/
theorem matchBits_consumes {c : CodeTable} {bs cand cand' : Bits} {out out' : List Byte}
    (h : matchBits c bs cand out = (cand', out')) :
    ∃ ys, out' = out ++ ys ∧ (∀ y ∈ ys, (codeOf c y).present = true) ∧ cand ++ bs = payloadBits c ys ++ cand' := by
  induction bs generalizing cand out with
  | nil =>
    cases h
    exact ⟨[], (List.append_nil _).symm, nofun, List.append_nil _⟩
  | cons b bs ih =>
    rw [matchBits] at h
    split at h
    · rename_i r hr
      obtain ⟨hr, hbits⟩ := lookup_some _ _ _ hr
      obtain ⟨ys, rfl, hys, hbs⟩ := ih h
      refine ⟨r :: ys, List.append_assoc .., List.forall_mem_cons.2 ⟨hr, hys⟩, ?_⟩
      calc cand ++ b :: bs = cand ++ [b] ++ ([] ++ bs) := List.append_cons ..
        _ = (codeOf c r).bits ++ (payloadBits c ys ++ cand') := by rw [hbits, hbs]
        _ = payloadBits c (r :: ys) ++ cand' := (List.append_assoc ..).symm
    · obtain ⟨ys, rfl, hys, hbs⟩ := ih h
      exact ⟨ys, rfl, hys, (List.append_cons ..).trans hbs⟩

/-- Settles O45: the loop matches the codes one after the other. -/
theorem greedyMatchingIsExact : Obligations.GreedyMatchingIsExact := by
  intro s ys hwf hys hbits hlen
  refine execPDMatch_nil hlen.symm ?_
  rw [hbits, hwf.matchBits_payloadBits hys, List.nil_append]

/-- Settles O46: with an empty candidate at the end, the bits would be the codes of what has been matched. -/
theorem unmatchedBitsAreRejected : Obligations.UnmatchedBitsAreRejected := by
  intro s _ hlen hnone
  rcases hmatch : matchBits s.work.code s.work.ubits [] [] with ⟨_ | ⟨b, cand⟩, out⟩
  · obtain ⟨ys, -, hys, hbits⟩ := matchBits_consumes hmatch
    exact absurd (hbits.trans (List.append_nil _)) (hnone ys hys)
  · exact execPDMatch_cons hlen hmatch

end Sys2Proof.Machine
end

section
/-! Proofs of the statements of 60_exceptions.md: what `raise` leaves (R232), and which operation raises what (R226). -/

namespace Sys2Proof.Machine

/-- Settles O47: field by field. -/
theorem raiseEntersError : Obligations.RaiseEntersError := fun e st s =>
  ⟨raise_err e st s, raise_stage e st s, raise_olen e st s, raise_status e st s, raise_phase e st s, raise_ibuf e st s,
    raise_ilen e st s, fun a => by rw [raise_obuf, memRead_nil], raise_params e st s, raise_hostOps e st s,
    raise_hostReads e st s⟩

/-- Only `raise` enters ERROR, and it leads to P_IDLE: an operation for which R31 does not list P_IDLE never does. -/
theorem exec_not_error {i : Instr} {s t : State} (hi : codeIdle ∉ successors i) (h : exec i s = .next t)
    (hs : s.status ≠ .error) : t.status ≠ .error := by
  cases exec_answer h with
  | unchanged => exact hs
  | accepted => exact nofun
  | goesOn => exact hs
  | raised e st hidle => exact absurd hidle hi
  | finished => exact nofun

theorem emitOutput_error {A : List Byte} {s : State} (h : (emitOutput A s).status = .error) :
    emitOutput A s = raise .outputUnwritable .noStage s := by
  rcases emitOutput_cases A s with ⟨-, e⟩ | ⟨-, e⟩
  · rw [e] at h; cases h
  · exact e

/-- Settles O49, operation by operation: of each one's answers only `raise` is new in ERROR. -/
theorem errorsAreRaisedWhereListed : Obligations.ErrorsAreRaisedWhereListed := by
  intro i s t h hs ht
  have quiet (hi : codeIdle ∉ successors i) : False := exec_not_error hi h hs ht
  cases i
  case encode => exact (quiet (by decide)).elim
  case decode => exact (quiet (by decide)).elim
  case pECount => exact (quiet (by decide)).elim
  case pETbMerge => exact (quiet (by decide)).elim
  case pIdle => cases h; exact absurd ht hs
  case pETbInit =>
    rcases execPETbInit_next h with rfl | rfl | ⟨-, -, rfl⟩
    · exact .inr (.inr (.inr (.inr ⟨rfl, rfl, .inl rfl⟩)))
    · exact absurd ht hs
    · exact absurd ht hs
  case pEDerive =>
    rcases execPEDerive_next h with ⟨-, rfl⟩ | ⟨c, -, rfl⟩
    · exact .inr (.inr (.inr (.inr ⟨rfl, rfl, .inr (.inl rfl)⟩)))
    · exact absurd ht hs
  case pEPack =>
    rcases execPEPack_next h with ⟨-, ⟨-, rfl⟩ | ⟨w, -, rfl⟩⟩
    · exact .inr (.inr (.inr (.inr ⟨rfl, rfl, .inr (.inr rfl)⟩)))
    · exact absurd ht hs
  case pEEmit =>
    cases execPEEmit_next h
    rw [emitOutput_error ht]
    exact .inl ⟨rfl, rfl, .inl rfl⟩
  case pDParse =>
    rcases execPDParse_next h with ⟨-, ⟨-, rfl⟩ | ⟨n, c, p, -, rfl⟩⟩
    · exact .inr (.inl ⟨rfl, rfl, rfl⟩)
    · exact absurd ht hs
  case pDUnpack =>
    rcases execPDUnpack_next h with ⟨-, ⟨-, rfl⟩ | ⟨T, u, c, -, -, rfl⟩⟩
    · exact .inr (.inr (.inl ⟨rfl, rfl, rfl⟩))
    · exact absurd ht hs
  case pDMatch =>
    rcases execPDMatch_next h with ⟨-, ⟨out, -, rfl⟩ | ⟨b, cand, out, -, rfl⟩⟩
    · exact absurd ht hs
    · exact .inr (.inr (.inr (.inl ⟨rfl, rfl, rfl⟩)))
  case pDEmit =>
    cases execPDEmit_next h
    rw [emitOutput_error ht]
    exact .inl ⟨rfl, rfl, .inr rfl⟩

end Sys2Proof.Machine
end

section
/-! Proofs of the statements of 70_reset_and_hazards.md: the host's commands and accesses while BUSY (R263, R264). -/

namespace Sys2Proof.Machine

section
variable {s : State} (hb : s.status = .busy)
include hb

theorem issue_busy (accepted : State) : issue accepted s = .next s := by
  rw [issue, if_pos ((isBusy_iff s).2 hb)]

/-- ENCODE, DECODE and the reserved bytes are all issued, so none has an effect. -/
theorem writeCommand_busy (v : BitVec 8) : writeCommand v s = .next s := by
  unfold writeCommand
  rcases decodeCmd_cases v with e | e | e <;> rw [e] <;> exact issue_busy hb _

theorem writeInput_busy {a : Nat} (ha : ibufIndex s.params a = true) (b : Byte) :
    writeInput a b s = .refused .hostWriteWhileBusy := by
  rw [writeInput, ha, (isBusy_iff s).2 hb]; rfl

theorem writeLength_busy (n : BitVec 32) : writeLength n s = .refused .hostWriteWhileBusy := by
  rw [writeLength, if_pos ((isBusy_iff s).2 hb)]

theorem readOutput_busy {a : Nat} (ha : obufIndex s.params a = true) : readOutput a s = .next (returnFree 8 s) := by
  rw [readOutput, ha, (isBusy_iff s).2 hb]; rfl

theorem readRegister_olen_busy : readRegister .olen s = returnFree 64 s := by
  rw [readRegister, if_pos ((isBusy_iff s).2 hb)]

end

/-- Settles O9: the step is the write to CMD. -/
theorem commandWhileBusyIgnored : Obligations.CommandWhileBusyIgnored := by
  intro s v rest h hs hb
  rw [step_live h hs, hostAction]
  exact writeCommand_busy (s := { s with hostOps := rest }) hb v

/-- Settles O11, access by access; ERR and STAGE are clear because the invariant ties them to the status ERROR. -/
theorem hostAccessWhileBusy : Obligations.HostAccessWhileBusy := by
  intro s rest a b n hs hb
  let s' : State := { s with hostOps := rest }
  refine ⟨fun h ha => ?writeIbuf, fun h => ?writeIlen, fun h ha => ?readObuf, fun h => ?readOlen, fun h => ?readStatus,
    fun hinv h => ?readErr, fun hinv h => ?readStage⟩
  case writeIbuf => exact (step_live h hs).trans (writeInput_busy (s := s') hb ha b)
  case writeIlen => exact (step_live h hs).trans (writeLength_busy (s := s') hb n)
  case readObuf => exact ⟨_, _, (step_live h hs).trans (readOutput_busy (s := s') hb ha)⟩
  case readOlen => exact ⟨_, _, (step_readReg h hs).trans (congrArg _ (readRegister_olen_busy (s := s') hb))⟩
  case readStatus => rw [step_readReg h hs, readRegister, hb]; rfl
  case readErr => rw [step_readReg h hs, readRegister, hinv.err_of_busy hb]; rfl
  case readStage => rw [step_readReg h hs, readRegister, hinv.stage_of_busy hb]; rfl

end Sys2Proof.Machine
end
